-- ==== Sys2Proof/Word.lean ====
section
/-! DEFINITION. The word types of the command interface and the one-bit element of the queues. -/

namespace Sys2Proof

/-- A payload or response word: an unsigned 32-bit value (`30_encoding.md` R65, R66). -/
abbrev Word := BitVec 32

/-- A command word CW (R60, R61). -/
abbrev CmdWord := BitVec 16

/-- A slot index field DA or DB of a command word (R61, R64). -/
abbrev SlotIx := BitVec 4

/-- A byte of the host's byte/bit conversions (`45_bitconv.md` R149, R151). -/
abbrev Byte := BitVec 8

/-- One queue element: a single bit (parameter `BIT_W` = 1 of R7, decision D5).  `false` is 0, `true` is 1. -/
abbrev Bit := Bool

end Sys2Proof
end

