-- ==== Sys2Proof/Syntax.lean ====
section
/-! DEFINITION. The operations of the block as syntax: one constructor of `Instr` for each row of
spec/opcode_table.json (`30_encoding.md` R75), the commands that carry them, and the reasons a command is refused. -/

namespace Sys2Proof

/-- QS, the queue select of a queue micro-operation (R63, format Q). -/
inductive QSel where
  | tx
  | rx
deriving DecidableEq, Repr

/-- The operations of the opcode map (R75), with their operands.
The first six are host commands, the next thirteen the block's internal micro-operations, the last two the host-side
helper functions (R62). -/
inductive Instr where
  /-- CREATE_DEVICE: slot DA; P0 baud_rate, P1 data_bits, P2 stop_bits, P3 start_bits (R70, R101). -/
  | createDevice (da : SlotIx) (baud data stop start : Word)
  /-- CONNECT: slots DA and DB (R140). -/
  | connect (da db : SlotIx)
  /-- ENQUEUE_TRANSMIT: slot DA and the bit sequence of R68 (R134). -/
  | enqueueTransmit (da : SlotIx) (bits : List Bit)
  /-- TICK: slot DA; P0 numerator, P1 denominator of the time amount (R69, R104). -/
  | tick (da : SlotIx) (num den : Word)
  /-- STEP: slot DA (R127). -/
  | step (da : SlotIx)
  /-- DRAIN_RECEIVED: slot DA (R137). -/
  | drainReceived (da : SlotIx)
  /-- IS_READY (R106). -/
  | isReady (da : SlotIx)
  /-- RESET_CLOCK (R108). -/
  | resetClock (da : SlotIx)
  /-- UPDATE_STATE (R110). -/
  | updateState (da : SlotIx)
  /-- HANDLE_TRANSMIT (R115); its operand S0 is the one UPDATE_STATE kept (assumption log 7). -/
  | handleTransmit (da : SlotIx)
  /-- HANDLE_RECEIVE (R120); its operand S0 is the one UPDATE_STATE kept (assumption log 7). -/
  | handleReceive (da : SlotIx)
  /-- PEER_PUSH: sender DA and the bit in P0[0] (R82, R144). -/
  | peerPush (da : SlotIx) (v : Bit)
  /-- Q_INIT (R86). -/
  | qInit (da : SlotIx) (qs : QSel)
  /-- Q_PUSH: the bit in P0[0] (R82, R88). -/
  | qPush (da : SlotIx) (qs : QSel) (v : Bit)
  /-- Q_POP (R90). -/
  | qPop (da : SlotIx) (qs : QSel)
  /-- Q_PEEK (R92). -/
  | qPeek (da : SlotIx) (qs : QSel)
  /-- Q_RESET (R94). -/
  | qReset (da : SlotIx) (qs : QSel)
  /-- Q_IS_EMPTY (R96). -/
  | qIsEmpty (da : SlotIx) (qs : QSel)
  /-- Q_IS_FULL (R97). -/
  | qIsFull (da : SlotIx) (qs : QSel)
  /-- BYTES_TO_BITS: a byte sequence (R149). -/
  | bytesToBits (bytes : List Byte)
  /-- BITS_TO_BYTE: a bit sequence, which must have 8 bits (R151). -/
  | bitsToByte (bits : List Bit)
deriving DecidableEq, Repr

/-- A command: a 16-bit command word and its payload of 32-bit words (R60). -/
structure Command where
  cw : CmdWord
  payload : List Word
deriving DecidableEq, Repr

/-- Who issues a command (R62, R77). -/
inductive Origin where
  /-- A host, through the command port. -/
  | port
  /-- The block's own sequencing (a micro-operation) or the host's side (a helper): "those operations exist only
  inside the block's own sequencing or on the host side" (R77). -/
  | inside
deriving DecidableEq, Repr

/-- A command with the side that issues it. -/
structure Issue where
  origin : Origin
  command : Command
deriving DecidableEq, Repr

/-- Why a command has no meaning (`60_exceptions.md` R162, the table of reasons).  The last two are the model's own
names for refusals that the spec states and leaves out of that table (assumption log 8). -/
inductive RefuseReason where
  /-- The OPC selects no operation that this side may issue (R77, R78). -/
  | illegalOpcode
  /-- A field of the command word that must be 0 is not (R75, R78). -/
  | reservedField
  /-- The payload is shorter than the command needs (R65). -/
  | shortPayload
  /-- The index is at least NDEV, the slot is not created, or CREATE_DEVICE names a slot that exists. -/
  | badSlot
  /-- A zero configuration word (R101). -/
  | badConfig
  /-- TICK with denominator 0 (R104). -/
  | badTime
  /-- CONNECT with DA = DB (R141). -/
  | selfLink
  /-- N_TX or N_RX is not a power of two in 1..2^16 when the block is built (R8). -/
  | badCapacity
  /-- Another parameter is outside the range R7 admits when the block is built. -/
  | badParameter
  /-- BITS_TO_BYTE of a sequence whose length is not 8 (R151). -/
  | badLength
deriving DecidableEq, Repr

end Sys2Proof
end

