-- ==== Sys2Proof/WellFormed.lean ====
section
/-! DEFINITION. Which instruction terms have an encoding: a length that a payload carries in one 32-bit word is
below 2^32 (`30_encoding.md` R65, R68).  Every other operand is exact by its type. -/

namespace Sys2Proof

/-- A length or count that fits in one payload word (R65). -/
abbrev fitsWord (n : Nat) : Prop := n < 2 ^ 32

/-- The well-formed instruction terms: those that some command encodes. -/
def Instr.wf : Instr → Bool
  | .createDevice _ _ _ _ _ => true
  | .connect _ _ => true
  | .enqueueTransmit _ bits => decide (fitsWord bits.length)
  | .tick _ _ _ => true
  | .step _ => true
  | .drainReceived _ => true
  | .isReady _ => true
  | .resetClock _ => true
  | .updateState _ => true
  | .handleTransmit _ => true
  | .handleReceive _ => true
  | .peerPush _ _ => true
  | .qInit _ _ => true
  | .qPush _ _ _ => true
  | .qPop _ _ => true
  | .qPeek _ _ => true
  | .qReset _ _ => true
  | .qIsEmpty _ _ => true
  | .qIsFull _ _ => true
  | .bytesToBits bytes => decide (fitsWord bytes.length)
  | .bitsToByte bits => decide (fitsWord bits.length)

end Sys2Proof
end

