-- ==== Sys2Proof/Decode.lean ====
section
/-! DEFINITION. Command words and payloads to instructions and back, from the encoding tables of
`30_encoding.md` (R60 to R79, R82): the fields, the decoder, the encoder, the issue rule of the command port, the
bit packing of R68 and the byte transport of R66. -/

namespace Sys2Proof

/-! ### Fields of a command word (R61) -/

/-- OPC = CW[15:8]. -/
def opcOf (cw : CmdWord) : Nat := (cw.extractLsb' 8 8).toNat

/-- DA = CW[7:4]. -/
def daOf (cw : CmdWord) : SlotIx := cw.extractLsb' 4 4

/-- CW[3:0]: DB for CONNECT, QS for a queue micro-operation, otherwise a field that must be 0. -/
def lowOf (cw : CmdWord) : SlotIx := cw.extractLsb' 0 4

/-- The command word with the given OPC, CW[7:4] and CW[3:0]. -/
def mkCw (opc : BitVec 8) (da low : SlotIx) : CmdWord := opc ++ da ++ low

/-- The operation class OPC[7:6] (R62). -/
inductive OpClass where
  /-- 0b00: executed by the command port. -/
  | host
  /-- 0b01. -/
  | deviceMicro
  /-- 0b10. -/
  | queueMicro
  /-- 0b11: computed on the host's side. -/
  | helper
deriving DecidableEq, Repr

/-- The class of an OPC value (R62). -/
def opcClass (opc : Nat) : OpClass :=
  match opc / 64 with
  | 0 => .host
  | 1 => .deviceMicro
  | 2 => .queueMicro
  | _ => .helper

/-- The OPC values the command port accepts: 0x01..0x06 (R77). -/
def portAccepts (opc : Nat) : Bool := decide (1 ≤ opc ∧ opc ≤ 6)

/-! ### Bit sequences in words (R68) -/

/-- The number a bit sequence writes, its first bit the most significant (R42, R151). -/
def bitsValue : List Bit → Nat
  | [] => 0
  | b :: bs => b.toNat * 2 ^ bs.length + bitsValue bs

/-- How many 32-bit words carry `n` packed bits: ceil(n/32) (R67). -/
def wordsFor (n : Nat) : Nat := (n + 31) / 32

/-- One word of packed bits, the first in bit 31; missing bits are 0. -/
def packWord (bits : List Bit) : Word := BitVec.ofNat 32 (bitsValue ((bits ++ List.replicate 32 false).take 32))

/-- The packed words of a bit sequence: bit i of the sequence is bit 31 - (i mod 32) of word i div 32 (R68). -/
def packBits (bits : List Bit) : List Word :=
  (List.range (wordsFor bits.length)).map fun k => packWord (bits.drop (32 * k))

/-- Bit i of a sequence of packed words (R68). -/
def packedBit (ws : List Word) (i : Nat) : Bit := (ws.getD (i / 32) 0).getLsbD (31 - i % 32)

/-- The first `n` bits of packed words, or `none` where the words are too few (R65, R68).  Bits of the last word past
position n-1, and words past it, are not read. -/
def unpackBits (n : Nat) (ws : List Word) : Option (List Bit) :=
  if ws.length < wordsFor n then none else some ((List.range n).map (packedBit ws))

/-! ### The decoder -/

/-- Formats H0 and U: CW[3:0] must be 0, DA = CW[7:4] (R63, R75). -/
def formatH0 (cw : CmdWord) (k : SlotIx → Except RefuseReason Instr) : Except RefuseReason Instr :=
  if lowOf cw = 0 then k (daOf cw) else .error .reservedField

/-- Format Q: CW[3:1] must be 0, CW[0] selects the queue, 0 = tx, 1 = rx (R63, R75). -/
def formatQ (cw : CmdWord) (k : SlotIx → QSel → Except RefuseReason Instr) : Except RefuseReason Instr :=
  if lowOf cw = 0 then k (daOf cw) .tx
  else if lowOf cw = 1 then k (daOf cw) .rx
  else .error .reservedField

/-- Format F: CW[7:0] must be 0 (R63, R75). -/
def formatF (cw : CmdWord) (k : Except RefuseReason Instr) : Except RefuseReason Instr :=
  if daOf cw = 0 ∧ lowOf cw = 0 then k else .error .reservedField

/-- The operand of an instruction whose bit is carried in P0[0] (R82). -/
def bitOperand (payload : List Word) (k : Bit → Instr) : Except RefuseReason Instr :=
  match payload with
  | p0 :: _ => .ok (k (p0.getLsbD 0))
  | [] => .error .shortPayload

/-- The operand of an instruction that takes a counted, packed bit sequence: P0 = its length, then the words (R68). -/
def bitsOperand (payload : List Word) (k : List Bit → Instr) : Except RefuseReason Instr :=
  match payload with
  | [] => .error .shortPayload
  | p0 :: ws =>
    match unpackBits p0.toNat ws with
    | some bits => .ok (k bits)
    | none => .error .shortPayload

/-- The operand of BYTES_TO_BITS: P0 = the number of bytes, then one word for each, the byte in its low 8 bits
(assumption log 9: the spec gives a helper's operands no place in a payload). -/
def bytesOperand (payload : List Word) (k : List Byte → Instr) : Except RefuseReason Instr :=
  match payload with
  | [] => .error .shortPayload
  | p0 :: ws =>
    if ws.length < p0.toNat then .error .shortPayload
    else .ok (k ((ws.take p0.toNat).map fun w => w.extractLsb' 0 8))

/-- The instruction of a command, or the reason it has none: OPC first, then the fields that must be 0, then the
payload (R75, R78).  Payload words past those the instruction needs are not read (assumption log 10). -/
def decode (c : Command) : Except RefuseReason Instr :=
  match opcOf c.cw with
  | 0x01 => formatH0 c.cw fun da =>
      match c.payload with
      | p0 :: p1 :: p2 :: p3 :: _ => .ok (.createDevice da p0 p1 p2 p3)
      | _ => .error .shortPayload
  | 0x02 => .ok (.connect (daOf c.cw) (lowOf c.cw))
  | 0x03 => formatH0 c.cw fun da => bitsOperand c.payload (.enqueueTransmit da)
  | 0x04 => formatH0 c.cw fun da =>
      match c.payload with
      | p0 :: p1 :: _ => .ok (.tick da p0 p1)
      | _ => .error .shortPayload
  | 0x05 => formatH0 c.cw fun da => .ok (.step da)
  | 0x06 => formatH0 c.cw fun da => .ok (.drainReceived da)
  | 0x40 => formatH0 c.cw fun da => .ok (.isReady da)
  | 0x41 => formatH0 c.cw fun da => .ok (.resetClock da)
  | 0x42 => formatH0 c.cw fun da => .ok (.updateState da)
  | 0x43 => formatH0 c.cw fun da => .ok (.handleTransmit da)
  | 0x44 => formatH0 c.cw fun da => .ok (.handleReceive da)
  | 0x45 => formatH0 c.cw fun da => bitOperand c.payload (.peerPush da)
  | 0x80 => formatQ c.cw fun da qs => .ok (.qInit da qs)
  | 0x81 => formatQ c.cw fun da qs => bitOperand c.payload (.qPush da qs)
  | 0x82 => formatQ c.cw fun da qs => .ok (.qPop da qs)
  | 0x83 => formatQ c.cw fun da qs => .ok (.qPeek da qs)
  | 0x84 => formatQ c.cw fun da qs => .ok (.qReset da qs)
  | 0x85 => formatQ c.cw fun da qs => .ok (.qIsEmpty da qs)
  | 0x86 => formatQ c.cw fun da qs => .ok (.qIsFull da qs)
  | 0xC0 => formatF c.cw (bytesOperand c.payload .bytesToBits)
  | 0xC1 => formatF c.cw (bitsOperand c.payload .bitsToByte)
  | _ => .error .illegalOpcode

/-- The instruction an issued command stands for.  The command port accepts host commands only, and the other
operations exist only on the inside (R62, R77). -/
def decodeIssue (i : Issue) : Except RefuseReason Instr :=
  match i.origin, portAccepts (opcOf i.command.cw) with
  | .port, true => decode i.command
  | .port, false => .error .illegalOpcode
  | .inside, true => .error .illegalOpcode
  | .inside, false => decode i.command

/-! ### The encoder -/

/-- The OPC of an instruction (R75). -/
def Instr.opc : Instr → BitVec 8
  | .createDevice _ _ _ _ _ => 0x01
  | .connect _ _ => 0x02
  | .enqueueTransmit _ _ => 0x03
  | .tick _ _ _ => 0x04
  | .step _ => 0x05
  | .drainReceived _ => 0x06
  | .isReady _ => 0x40
  | .resetClock _ => 0x41
  | .updateState _ => 0x42
  | .handleTransmit _ => 0x43
  | .handleReceive _ => 0x44
  | .peerPush _ _ => 0x45
  | .qInit _ _ => 0x80
  | .qPush _ _ _ => 0x81
  | .qPop _ _ => 0x82
  | .qPeek _ _ => 0x83
  | .qReset _ _ => 0x84
  | .qIsEmpty _ _ => 0x85
  | .qIsFull _ _ => 0x86
  | .bytesToBits _ => 0xC0
  | .bitsToByte _ => 0xC1

/-- CW[3:0] of a queue micro-operation (R63). -/
def qsField : QSel → SlotIx
  | .tx => 0
  | .rx => 1

/-- The payload word that carries one bit operand in P0[0] (R82). -/
def bitWord (v : Bit) : Word := if v then 1 else 0

/-- The payload of a counted, packed bit sequence (R68). -/
def bitsPayload (bits : List Bit) : List Word := BitVec.ofNat 32 bits.length :: packBits bits

/-- CW[7:4], CW[3:0] and the payload of an instruction (R63, R67, R82). -/
def Instr.operands : Instr → SlotIx × SlotIx × List Word
  | .createDevice da baud data stop start => (da, 0, [baud, data, stop, start])
  | .connect da db => (da, db, [])
  | .enqueueTransmit da bits => (da, 0, bitsPayload bits)
  | .tick da num den => (da, 0, [num, den])
  | .step da => (da, 0, [])
  | .drainReceived da => (da, 0, [])
  | .isReady da => (da, 0, [])
  | .resetClock da => (da, 0, [])
  | .updateState da => (da, 0, [])
  | .handleTransmit da => (da, 0, [])
  | .handleReceive da => (da, 0, [])
  | .peerPush da v => (da, 0, [bitWord v])
  | .qInit da qs => (da, qsField qs, [])
  | .qPush da qs v => (da, qsField qs, [bitWord v])
  | .qPop da qs => (da, qsField qs, [])
  | .qPeek da qs => (da, qsField qs, [])
  | .qReset da qs => (da, qsField qs, [])
  | .qIsEmpty da qs => (da, qsField qs, [])
  | .qIsFull da qs => (da, qsField qs, [])
  | .bytesToBits bytes =>
      (0, 0, BitVec.ofNat 32 bytes.length :: bytes.map fun b => b.zeroExtend 32)
  | .bitsToByte bits => (0, 0, bitsPayload bits)

/-- The command of an instruction. -/
def encode (i : Instr) : Command :=
  { cw := mkCw i.opc i.operands.1 i.operands.2.1, payload := i.operands.2.2 }

/-- The side that may issue an OPC: the port for a host command, otherwise the inside (R62, R77). -/
def originOf (opc : Nat) : Origin := if portAccepts opc then .port else .inside

/-- The issued command of an instruction, from the side that may issue it. -/
def issueOf (i : Instr) : Issue := { origin := originOf i.opc.toNat, command := encode i }

/-! ### The byte transport (R66, R76) -/

/-- Payload words whose presence follows from OPC alone (R67, R76, R82). -/
def fixedWords (opc : Nat) : Nat :=
  match opc with
  | 0x01 => 4
  | 0x03 => 1
  | 0x04 => 2
  | 0x45 => 1
  | 0x81 => 1
  | 0xC0 => 1
  | 0xC1 => 1
  | _ => 0

/-- Payload words whose presence follows from P0 (R67, R76; for the helpers, assumption log 9). -/
def countedWords (opc p0 : Nat) : Nat :=
  match opc with
  | 0x03 => wordsFor p0
  | 0xC0 => p0
  | 0xC1 => wordsFor p0
  | _ => 0

/-- A word as bytes, most significant first (R66, decision D21). -/
def wordBytes (w : Word) : List Byte :=
  [w.extractLsb' 24 8, w.extractLsb' 16 8, w.extractLsb' 8 8, w.extractLsb' 0 8]

/-- A command as bytes: CW, then each payload word, each most significant byte first (R66). -/
def commandBytes (c : Command) : List Byte :=
  c.cw.extractLsb' 8 8 :: c.cw.extractLsb' 0 8 :: c.payload.flatMap wordBytes

/-- Up to `n` whole words from the front of a byte string, and what is left. -/
def takeWords : Nat → List Byte → List Word × List Byte
  | 0, bs => ([], bs)
  | n + 1, b3 :: b2 :: b1 :: b0 :: rest =>
      let r := takeWords n rest
      ((b3 ++ b2 ++ b1 ++ b0) :: r.1, r.2)
  | _ + 1, bs => ([], bs)

/-- One command from the front of a byte string: CW, the words OPC calls for, then those P0 calls for (R76).
`none` where not even a command word has arrived; a byte string that ends early gives a short payload. -/
def parseCommand : List Byte → Option (Command × List Byte)
  | hi :: lo :: rest =>
      let cw : CmdWord := hi ++ lo
      let first := takeWords (fixedWords (opcOf cw)) rest
      let more := takeWords (countedWords (opcOf cw) (first.1.headD 0).toNat) first.2
      some ({ cw := cw, payload := first.1 ++ more.1 }, more.2)
  | _ => none

/-- Why a byte string gives no instruction. -/
inductive DecodeError where
  /-- Fewer than two bytes: no command word has arrived. -/
  | noCommandWord
  /-- The command has no meaning, for this reason. -/
  | refuse (r : RefuseReason)
deriving DecidableEq, Repr

/-- The instruction at the front of a byte string with what follows it, or why there is none: total on any bytes. -/
def decodeBytes (bs : List Byte) : Except DecodeError (Instr × List Byte) :=
  match parseCommand bs with
  | none => .error .noCommandWord
  | some (c, rest) =>
    match decode c with
    | .ok i => .ok (i, rest)
    | .error r => .error (.refuse r)

/-! ### The numbered words of spec/opcode_table.json -/

/-- The payload word `k` of an instruction whose bits, numbered from bit 0 of CW, are `w`. -/
def tablePayloadWord (w k : Nat) : Word := BitVec.ofNat 32 (w >>> (16 + 32 * k))

/-- The command whose bits are the `nbits` low bits of `w`, every bit above them 0: CW in bits 15..0, payload word k
in the 32 bits from bit 16 + 32k on, as many words as the instruction takes. -/
def commandOfTableWord (nbits w : Nat) : Command :=
  let w := w % 2 ^ nbits
  let cw : CmdWord := BitVec.ofNat 16 w
  let n := fixedWords (opcOf cw) + countedWords (opcOf cw) (tablePayloadWord w 0).toNat
  { cw := cw, payload := (List.range n).map (tablePayloadWord w) }

/-- The instruction the decoder reads from the table's numbering of an instruction's bits. -/
def decodeTableWord (nbits w : Nat) : Option Instr := (decode (commandOfTableWord nbits w)).toOption

end Sys2Proof
end

