-- ==== Sys2Proof/Config.lean ====
section
/-! DEFINITION. What an implementation fixes: the parameters of the block (`00_scope.md` R7), the two line
levels, and the free values that the spec leaves without a value. -/

namespace Sys2Proof

/-- Which state value gates the receive phase of a step (parameter `RX_GUARD`, R7, R121, decision D9). -/
inductive RxGuard where
  /-- The state S0 that UPDATE_STATE computed at the start of the step: the spec's choice. -/
  | stepStart
  /-- The live state register: the named alternative. -/
  | live
deriving DecidableEq, Repr

/-- The parameters of one built block (R7).  They are fixed when the block is built and no command writes them. -/
structure Params where
  /-- `NDEV`, the number of device slots. -/
  ndev : Nat
  /-- `N_TX`, the capacity of every transmit queue in bits. -/
  nTx : Nat
  /-- `N_RX`, the capacity of every receive queue in bits. -/
  nRx : Nat
  /-- `ACC_W`, the width of a reconstructed byte in bits. -/
  accW : Nat
  /-- `RX_GUARD`. -/
  rxGuard : RxGuard
deriving DecidableEq, Repr

/-- The block the reset state is built with: the defaults of R7 (`NDEV` 2, `ACC_W` 8, `STEP_START`) and, for the
two capacities that R7 leaves OPEN, the values the examples of `95_test_vectors.md` use (assumption log 1). -/
def Config.defaultParams : Params :=
  { ndev := 2, nTx := 128, nRx := 16, accW := 8, rxGuard := .stepStart }

/-- `START_V`, the start-bit value: 0, "logical low" (R7, R44, decision D5). -/
def Config.startV : Bit := false

/-- `STOP_V`, the stop-bit value: 1, "logical high" (R7, R44, decision D5). -/
def Config.stopV : Bit := true

/-- FREE VALUE.  The response word that reports a count of 2^32 or more, which no 32-bit response word holds: R67
and R72 give the field and not its value there (assumption log 2).  It is applied to the counter `State.free`. -/
opaque Config.freeWord : Nat → Word

/-- FREE VALUE.  What slot `i` of a queue holds when nothing has been written there since Q_INIT (R86, R178: "slot
contents unspecified"; assumption log 3).  No operation reads one in a state that meets the invariant. -/
opaque Config.staleBit : Nat → Bit

end Sys2Proof
end

