-- ==== Sys2Proof/Machine/Params.lean ====
section
/-! DEFINITION. When a block with given parameters exists (`00_scope.md` R7, R8). -/

namespace Sys2Proof.Machine

/-- A capacity the block may be built with: a power of two in 1..2^16 (R8, R83, decision D4). -/
def capacityOk (n : Nat) : Bool := decide (1 ≤ n ∧ n ≤ 2 ^ 16 ∧ 2 ^ Nat.log2 n = n)

/-- The two queue capacities are admitted (R8). -/
def capacitiesOk (p : Params) : Bool := capacityOk p.nTx && capacityOk p.nRx

/-- The other parameters are admitted: `NDEV` in 2..16 (R7), `ACC_W` in 8..32 (R7 gives 8, decision D12 admits a wider
byte, and a response word has 32 bits: assumption log 4). -/
def otherParamsOk (p : Params) : Bool := decide (2 ≤ p.ndev ∧ p.ndev ≤ 16 ∧ 8 ≤ p.accW ∧ p.accW ≤ 32)

/-- Parameters a block can be built with. -/
def paramsOk (p : Params) : Bool := capacitiesOk p && otherParamsOk p

end Sys2Proof.Machine
end

