-- ==== Sys2Proof/Machine/State.lean ====
section
/-! DEFINITION. The state of the block (`10_state.md`), as plain data, the reasons a step stops, and the state right
after the block is built. -/

namespace Sys2Proof.Machine

/-- `DeviceState` (R28): a closed four-valued enumeration. -/
inductive DeviceState where
  | idle
  | transmitting
  | receiving
  | transmittingAndReceiving
deriving DecidableEq, Repr

/-- A BoundedQueue (R32, R83).  Its capacity is a parameter of the block.  `slots` lists the slots that have been
written since Q_INIT, by index in strictly rising order; a slot it does not list holds no value the spec gives. -/
structure Queue where
  slots : List (Nat × Bit)
  rpos : Nat
  wpos : Nat
  count : Nat
deriving DecidableEq, Repr

/-- One created device slot (R25 to R33). -/
structure Device where
  baudRate : Word
  dataBits : Word
  stopBits : Word
  startBits : Word
  bitsPerFrame : Nat
  timePerByte : Rat
  state : DeviceState
  clock : Rat
  peer : Option Nat
  tx : Queue
  rx : Queue
  rxb : List Nat
deriving DecidableEq, Repr

/-- TXR, the transmit result (R73). -/
inductive TxResult where
  | none
  | sent
  | underrun
deriving DecidableEq, Repr

/-- RXR, the receive result (R74). -/
inductive RxResult where
  | none
  | empty
  | byte
  | errStart
  | errUnderrun
  | errStop
deriving DecidableEq, Repr

/-- What an operation returns (R67, R82).  The first form is the response of a host command; the others are results
that the port never carries. -/
inductive Output where
  /-- The response words RSP0, RSP1, ... of a host command; none for a command that returns nothing (R67, R71). -/
  | response (words : List Word)
  /-- A micro-operation that returns nothing: RESET_CLOCK, Q_INIT, Q_RESET (R82). -/
  | done
  /-- The boolean of IS_READY, Q_IS_EMPTY, Q_IS_FULL and Q_PUSH. -/
  | flag (b : Bool)
  /-- The two booleans of PEER_PUSH. -/
  | pushed (ok nopeer : Bool)
  /-- The optional bit of Q_POP and Q_PEEK. -/
  | bit (v : Option Bit)
  /-- The new state of UPDATE_STATE. -/
  | newState (st : DeviceState)
  /-- (TXR, NOPEER, tx_lost) of HANDLE_TRANSMIT. -/
  | transmit (txr : TxResult) (nopeer : Bool) (lost : Nat)
  /-- (RXR, byte) of HANDLE_RECEIVE. -/
  | receive (rxr : RxResult) (byte : Nat)
  /-- The bit sequence of BYTES_TO_BITS. -/
  | bits (bs : List Bit)
  /-- The byte of BITS_TO_BYTE. -/
  | byte (b : Byte)
deriving DecidableEq, Repr

/-- The whole machine.  `dev` and `refused` are the state R19 gives the block, `params` the parameters it was built
with (R7); `pending` is the host's command stream (R23), and `s0`, `out` and `free` are the model's own. -/
structure State where
  /-- The parameters the block was built with; no command writes them. -/
  params : Params
  /-- The device table (R19): the created slots by index, in strictly rising order.  A slot that is not listed has
  `exists = false` and no other field (R20). -/
  dev : List (Nat × Device)
  /-- The model mark `refused` (R21): `none` is false, `some r` is true, with the reason (R162). -/
  refused : Option RefuseReason
  /-- S0, "kept for the rest of the step" (R110): what the last UPDATE_STATE computed. -/
  s0 : DeviceState
  /-- What the last executed operation returned (R60, R82). -/
  out : Output
  /-- How many free values have been used. -/
  free : Nat
  /-- The commands the host, or the block's own sequencing, has issued and the block has not yet taken. -/
  pending : List Issue
deriving DecidableEq, Repr

/-- The reasons a step can fault.  There is none: "the block has no exceptions, no traps and no fatal errors" (R155),
"no behaviour of the block is `fault`" (`93_implementation_defined.md`). -/
inductive Fault
deriving DecidableEq, Repr

/-- The reasons a step has no next state. -/
inductive Refusal where
  /-- Raised by an arm of `exec` whose instruction has no meaning yet.  Safe.  No arm raises it. -/
  | notModelled (mnemonic : String)
  /-- Raised by `step` in a state whose mark `refused` is set and whose host has issued a further command: "the block
  executes no later command" (R162).  Safe: nothing can be claimed of such a run. -/
  | blockRefused
deriving DecidableEq, Repr

/-- A block built with parameters `p` (R37, R177): no slot exists and nothing is refused.  With parameters that R8 or
R7 does not admit the block does not exist, and the mark `refused` says so from the start (R162: BadCapacity). -/
def State.build (p : Params) : State :=
  { params := p
    dev := []
    refused :=
      if capacitiesOk p = false then some .badCapacity
      else if otherParamsOk p = false then some .badParameter
      else none
    s0 := .idle
    out := .response []
    free := 0
    pending := [] }

/-- The machine right after reset: the block, built with the default parameters (R37, R177). -/
def State.reset : State := State.build Config.defaultParams

end Sys2Proof.Machine
end

