-- ==== Sys2Proof/Machine/Table.lean ====
section
/-! DEFINITION. Sparse tables: a list of index and value pairs in strictly rising order of index.  The device table
of the block and the slot arrays of the queues are held so (`10_state.md` R19, R32). -/

namespace Sys2Proof.Machine

/-- The value listed at an index. -/
def tableGet {α : Type} : List (Nat × α) → Nat → Option α
  | [], _ => none
  | (k, v) :: t, i => if k = i then some v else tableGet t i

/-- The table with a value written at an index; the order stays. -/
def tablePut {α : Type} : List (Nat × α) → Nat → α → List (Nat × α)
  | [], i, v => [(i, v)]
  | (k, w) :: t, i, v =>
    if i < k then (i, v) :: (k, w) :: t
    else if i = k then (i, v) :: t
    else (k, w) :: tablePut t i v

/-- The canonical form: indices strictly rising.  Equal tables are then equal lists. -/
abbrev tableWf {α : Type} (t : List (Nat × α)) : Prop := (t.map Prod.fst).Pairwise (· < ·)

/-- The canonical form of all the storage of a state: the device table and every queue's slot array. -/
abbrev Memory.wf (s : State) : Prop :=
  tableWf s.dev ∧ ∀ e ∈ s.dev, tableWf e.2.tx.slots ∧ tableWf e.2.rx.slots

end Sys2Proof.Machine
end

