-- ==== Sys2Proof/Machine/Operands.lean ====
section
/-! DEFINITION. What the operands of a command select and mean: slot indices, queue selects, the time amount of
TICK and the configuration words of CREATE_DEVICE (`30_encoding.md` R63 to R70). -/

namespace Sys2Proof.Machine

/-- A slot index field, zero-extended (R64). -/
def slotIndex (da : SlotIx) : Nat := da.toNat

/-- The time amount of TICK: P0 / P1 as an exact rational (R69, decision D6). -/
def timeAmount (num den : Word) : Rat := (num.toNat : Rat) / (den.toNat : Rat)

/-- The configuration words of CREATE_DEVICE that are refused: a zero in any of them (R70, R101). -/
def configHasZero (baud data stop start : Word) : Bool :=
  decide (baud = 0 ∨ data = 0 ∨ stop = 0 ∨ start = 0)

/-- `bits_per_frame = start_bits + data_bits + stop_bits`, an integer (R26, R101). -/
def bitsPerFrameOf (data stop start : Word) : Nat := start.toNat + data.toNat + stop.toNat

/-- `time_per_byte = bits_per_frame / baud_rate`, an exact rational (R26, R103, decision D6). -/
def timePerByteOf (bpf : Nat) (baud : Word) : Rat := (bpf : Rat) / (baud.toNat : Rat)

/-- The queue of a device that QS selects (R63). -/
def queueOf (D : Device) : QSel → Queue
  | .tx => D.tx
  | .rx => D.rx

/-- A device with the queue that QS selects replaced. -/
def withQueue (D : Device) (q : Queue) : QSel → Device
  | .tx => { D with tx := q }
  | .rx => { D with rx := q }

/-- The capacity of the queue that QS selects: N_TX or N_RX (R32). -/
def capacityOf (p : Params) : QSel → Nat
  | .tx => p.nTx
  | .rx => p.nRx

/-- Device slot `d`, where it holds a device: an index at or above NDEV names none (R20, R64). -/
def devAt (s : State) (d : Nat) : Option Device := if d < s.params.ndev then tableGet s.dev d else none

/-- The device a DA or DB field names, where there is one. -/
def deviceOperand (s : State) (da : SlotIx) : Option Device := devAt s (slotIndex da)

end Sys2Proof.Machine
end

