-- ==== Sys2Proof/Machine/Flags.lean ====
section
/-! DEFINITION. The result codes and the STEP status word.  The block keeps no flags (`10_state.md` R24): every
outcome is a field of a response (`30_encoding.md` R71 to R74). -/

namespace Sys2Proof.Machine

/-- The 2-bit code of a device state (R28). -/
def stateCode : DeviceState → Word
  | .idle => 0
  | .transmitting => 1
  | .receiving => 2
  | .transmittingAndReceiving => 3

/-- The transmit result code TXR (R73). -/
def txCode : TxResult → Word
  | .none => 0
  | .sent => 1
  | .underrun => 2

/-- The receive result code RXR (R74). -/
def rxCode : RxResult → Word
  | .none => 0
  | .empty => 1
  | .byte => 2
  | .errStart => 3
  | .errUnderrun => 4
  | .errStop => 5

/-- A boolean as a one-bit field. -/
def boolCode (b : Bool) : Word := if b then 1 else 0

/-- RSP0 of a STEP: READY, S0, SEND, TXR, RXR and NOPEER in their places, every other bit 0 (R72, R127). -/
def stepStatus (ready : Bool) (s0 send : DeviceState) (txr : TxResult) (rxr : RxResult) (nopeer : Bool) : Word :=
  boolCode ready ||| (stateCode s0 <<< 1) ||| (stateCode send <<< 3) ||| (txCode txr <<< 5) |||
    (rxCode rxr <<< 8) ||| (boolCode nopeer <<< 11)

/-- READY = RSP0[0] (R72). -/
def statusReady (w : Word) : Bool := w.getLsbD 0

/-- S0 = RSP0[2:1]. -/
def statusS0 (w : Word) : BitVec 2 := w.extractLsb' 1 2

/-- SEND = RSP0[4:3]. -/
def statusSend (w : Word) : BitVec 2 := w.extractLsb' 3 2

/-- TXR = RSP0[7:5]. -/
def statusTxr (w : Word) : BitVec 3 := w.extractLsb' 5 3

/-- RXR = RSP0[10:8]. -/
def statusRxr (w : Word) : BitVec 3 := w.extractLsb' 8 3

/-- NOPEER = RSP0[11]. -/
def statusNopeer (w : Word) : Bool := w.getLsbD 11

end Sys2Proof.Machine
end

