-- ==== Sys2Proof/Machine/Ops.lean ====
section
/-! DEFINITION. The named operations over the block's storage that the meanings share: the queue primitives
(`41_queue.md`), device access, the response, the refusal (`60_exceptions.md` R162), the device clock and state
(`42_clock_state.md`), the peer push (`44_link.md`), the transmit framer, the receive deframer and the ready step
(`43_framing.md`), and the host-side bit conversion (`45_bitconv.md`).

The block takes no exception and returns from none (R155, R165, R166): the one operation that stands in that place is
`refuse`.  The recovery of each failure event is part of the operation that meets it (R165). -/

namespace Sys2Proof.Machine

/-! ### Queue primitives (R83 to R97).  `N` is the capacity. -/

/-- `next(i) = (i + 1) mod N` (R84). -/
def nextPos (N i : Nat) : Nat := (i + 1) % N

/-- `MemRead(q, i)` (R12): the slot's bit; a slot that has not been written since Q_INIT holds an unspecified one. -/
def slotRead (q : Queue) (i : Nat) : Bit := (tableGet q.slots i).getD (Config.staleBit i)

/-- Q_INIT (R86): empty, positions 0 (decision D19), slot contents unspecified. -/
def qInit : Queue := { slots := [], rpos := 0, wpos := 0, count := 0 }

/-- `QPush` (R88): `none` where it returns false, and then nothing changes (R89). -/
def qPush (N : Nat) (q : Queue) (v : Bit) : Option Queue :=
  if q.count = N then none
  else some { slots := tablePut q.slots q.wpos v, rpos := q.rpos, wpos := nextPos N q.wpos, count := q.count + 1 }

/-- `QPop` (R90): the popped bit and the queue after it; `none` on an empty queue, and then nothing changes. -/
def qPop (N : Nat) (q : Queue) : Option (Bit × Queue) :=
  if q.count = 0 then none
  else some (slotRead q q.rpos, { q with rpos := nextPos N q.rpos, count := q.count - 1 })

/-- `QPeek` (R92). -/
def qPeek (q : Queue) : Option Bit := if q.count = 0 then none else some (slotRead q q.rpos)

/-- A pop whose bit is not used. -/
def qDrop (N : Nat) (q : Queue) : Queue :=
  match qPop N q with
  | none => q
  | some r => r.2

/-- `QReset` (R39, R94): slots stay. -/
def qReset (q : Queue) : Queue := { q with rpos := 0, wpos := 0, count := 0 }

/-- `QIsEmpty` (R96). -/
def qIsEmpty (q : Queue) : Bool := decide (q.count = 0)

/-- `QIsFull` (R97). -/
def qIsFull (N : Nat) (q : Queue) : Bool := decide (q.count = N)

/-- Push each bit of a sequence in order; a push that fails is skipped and counts nothing.  Answers the queue and how
many pushes succeeded (the loop of ENQUEUE_TRANSMIT, R134). -/
def qPushAll (N : Nat) (q : Queue) : List Bit → Queue × Nat
  | [] => (q, 0)
  | b :: bs =>
    match qPush N q b with
    | some q' => ((qPushAll N q' bs).1, (qPushAll N q' bs).2 + 1)
    | none => qPushAll N q bs

/-! ### Device access, refusal, response -/

/-- Write a device slot (R11). -/
def putDev (s : State) (d : Nat) (D : Device) : State := { s with dev := tablePut s.dev d D }

/-- Refuse a command (R162): the mark `refused` is set for good and no other state changes. -/
def refuse (s : State) (r : RefuseReason) : Host.Outcome State Fault Refusal := .next { s with refused := some r }

/-- Complete an operation with what it returns. -/
def returns (s : State) (o : Output) : Host.Outcome State Fault Refusal := .next { s with out := o }

/-- Run an operation on the device that DA names, or refuse BadSlot (R20, R64, R78). -/
def onDevice (s : State) (da : SlotIx) (k : Device → Host.Outcome State Fault Refusal) :
    Host.Outcome State Fault Refusal :=
  match deviceOperand s da with
  | none => refuse s .badSlot
  | some D => k D

/-- A count as a response word.  A count of 2^32 or more fits no word and the spec states no word for it: a free
value (assumption log 2). -/
def countWord (s : State) (n : Nat) : Word := if n < 2 ^ 32 then BitVec.ofNat 32 n else Config.freeWord s.free

/-- The state once a count has been given a response word: a free value, where one was used, is used up. -/
def useCount (s : State) (n : Nat) : State := if n < 2 ^ 32 then s else { s with free := s.free + 1 }

/-! ### Creation, clock and state (R101, R106, R108, R110) -/

/-- The device CREATE_DEVICE makes (R38, R101). -/
def newDevice (baud data stop start : Word) : Device :=
  { baudRate := baud
    dataBits := data
    stopBits := stop
    startBits := start
    bitsPerFrame := bitsPerFrameOf data stop start
    timePerByte := timePerByteOf (bitsPerFrameOf data stop start) baud
    state := .idle
    clock := timePerByteOf (bitsPerFrameOf data stop start) baud
    peer := none
    tx := qInit
    rx := qInit
    rxb := [] }

/-- `IsReady` (R106): the clock is at or below 0. -/
def isReady (D : Device) : Bool := decide (D.clock ≤ 0)

/-- `ResetClock` (R108): the clock becomes time_per_byte, and any negative residue is dropped. -/
def resetClock (D : Device) : Device := { D with clock := D.timePerByte }

/-- The state UPDATE_STATE computes from which queues are occupied, both tested first (R110, `90_conflicts.md` C10). -/
def computedState (D : Device) : DeviceState :=
  match !qIsEmpty D.tx, !qIsEmpty D.rx with
  | true, true => .transmittingAndReceiving
  | false, true => .receiving
  | true, false => .transmitting
  | false, false => D.state

/-- UPDATE_STATE on device `d` (R110): the state register and S0 take the computed state. -/
def updateStateOf (s : State) (d : Nat) (D : Device) : State :=
  { putDev s d { D with state := computedState D } with s0 := computedState D }

/-! ### The link (R144, R145) -/

/-- `PeerPush` from device `d` (R144): a push onto the peer's receive queue.  `none` where it returns false (no peer,
or a full queue), and then nothing changes. -/
def peerPush (s : State) (d : Nat) (v : Bit) : Option State :=
  match (devAt s d).bind Device.peer with
  | none => none
  | some p =>
    match devAt s p with
    | none => none
    | some P =>
      match qPush s.params.nRx P.rx v with
      | none => none
      | some q => some (putDev s p { P with rx := q })

/-! ### The transmit framer (R115 to R119) -/

/-- One push of a frame, and `tx_lost` one more where it fails: the frame goes on (R119). -/
def framePush (d : Nat) (v : Bit) (a : State × Nat) : State × Nat :=
  match peerPush a.1 d v with
  | some s' => (s', a.2)
  | none => (a.1, a.2 + 1)

/-- Pop one bit of device `d`'s transmit queue. -/
def popTx (s : State) (d : Nat) : Option (Bit × State) :=
  match devAt s d with
  | none => none
  | some D =>
    match qPop s.params.nTx D.tx with
    | none => none
    | some (b, q) => some (b, putDev s d { D with tx := q })

/-- Step 2 of the framer: `n` times, pop a bit and push it.  The flag is false on an underrun (R115, R118). -/
def frameData (d : Nat) : Nat → State × Nat → Bool × State × Nat
  | 0, a => (true, a)
  | n + 1, a =>
    match popTx a.1 d with
    | none => (false, a)
    | some (b, s') => frameData d n (framePush d b (s', a.2))

/-- Step 3 of the framer: `n` stop bits (R115). -/
def frameStop (d : Nat) : Nat → State × Nat → State × Nat
  | 0, a => a
  | n + 1, a => frameStop d n (framePush d Config.stopV a)

/-- Set the state register of device `d` to Idle. -/
def setIdle (s : State) (d : Nat) : State :=
  match devAt s d with
  | none => s
  | some D => putDev s d { D with state := .idle }

/-- S0 lets the transmit phase run (R116). -/
def transmits : DeviceState → Bool
  | .transmitting => true
  | .transmittingAndReceiving => true
  | .idle => false
  | .receiving => false

/-- What a phase of a step answers: the transmit phase's state and (TXR, NOPEER, tx_lost) (R82, R115). -/
structure TxPhase where
  state : State
  txr : TxResult
  nopeer : Bool
  lost : Nat

/-- `HandleTransmit` on device slot `d`, which holds `D` (R115): one start bit, the data bits, the stop bits, then
Idle; an underrun abandons the frame where it stands (R118). -/
def handleTransmit (s : State) (d : Nat) (D : Device) (s0 : DeviceState) : TxPhase :=
  if transmits s0 then
    let started := framePush d Config.startV (s, 0)
    match frameData d D.dataBits.toNat started with
    | (false, a) => { state := setIdle a.1 d, txr := .underrun, nopeer := D.peer.isNone, lost := a.2 }
    | (true, a) =>
      let stopped := frameStop d D.stopBits.toNat a
      { state := setIdle stopped.1 d, txr := .sent, nopeer := D.peer.isNone, lost := stopped.2 }
  else { state := s, txr := .none, nopeer := false, lost := 0 }

/-! ### The receive deframer (R120 to R126) -/

/-- S0 (or the live register) lets the receive phase run (R121). -/
def receives : DeviceState → Bool
  | .receiving => true
  | .transmittingAndReceiving => true
  | .idle => false
  | .transmitting => false

/-- `acc <- ((acc << 1) | b) mod 2^ACC_W` (R14, R120, R124). -/
def accumulate (accW acc : Nat) (b : Bit) : Nat := ((acc <<< 1) ||| b.toNat) % 2 ^ accW

/-- Step 3 of the deframer: `n` times, pop a data bit into the accumulator; `none` on an underrun (R120, R123). -/
def deframeData (N accW : Nat) : Nat → Queue → Nat → Option (Nat × Queue)
  | 0, q, acc => some (acc, q)
  | n + 1, q, acc =>
    match qPop N q with
    | none => none
    | some (b, q') => deframeData N accW n q' (accumulate accW acc b)

/-- A frame failure: the receive queue is reset, the state is Idle, no byte (R122, R123, R125, C6). -/
def frameFailure (D : Device) (rxr : RxResult) : Device × RxResult × Nat :=
  ({ D with rx := qReset D.rx, state := .idle }, rxr, 0)

/-- The receive phase past its guard: the device and (RXR, byte) after it (R120, steps 1 to 4). -/
def deframe (p : Params) (D : Device) : Device × RxResult × Nat :=
  match qPeek D.rx with
  | none => (D, .empty, 0)
  | some h =>
    if h ≠ Config.startV then frameFailure D .errStart
    else
      match deframeData p.nRx p.accW D.dataBits.toNat (qDrop p.nRx D.rx) 0 with
      | none => frameFailure D .errUnderrun
      | some (acc, q) =>
        if qPeek q = some Config.stopV then
          ({ D with rx := qDrop p.nRx q, state := .idle, rxb := D.rxb ++ [acc] }, .byte, acc)
        else frameFailure D .errStop

/-- The state the receive phase tests: S0, or the live register where `RX_GUARD` is LIVE (R121, decision D9). -/
def receiveGuard (p : Params) (D : Device) (s0 : DeviceState) : DeviceState :=
  match p.rxGuard with
  | .stepStart => s0
  | .live => D.state

/-- `HandleReceive` on a device (R120). -/
def receiveDevice (p : Params) (D : Device) (s0 : DeviceState) : Device × RxResult × Nat :=
  if receives (receiveGuard p D s0) then deframe p D else (D, .none, 0)

/-- What the receive phase answers: the state and (RXR, byte) (R82, R120). -/
structure RxPhase where
  state : State
  rxr : RxResult
  byte : Nat

/-- `HandleReceive` on device slot `d`, which holds `D` (R120). -/
def handleReceive (s : State) (d : Nat) (D : Device) (s0 : DeviceState) : RxPhase :=
  { state := putDev s d (receiveDevice s.params D s0).1
    rxr := (receiveDevice s.params D s0).2.1
    byte := (receiveDevice s.params D s0).2.2 }

/-! ### The ready step (R127, R130) -/

/-- The device after the first two parts of a ready step: the clock reloaded, the state recomputed (R108, R110). -/
def stepStarted (D : Device) : Device := { resetClock D with state := computedState D }

/-- The device that slot `d` holds, or `D` where it holds none. -/
def currentDevice (s : State) (d : Nat) (D : Device) : Device := (devAt s d).getD D

/-- The response of a ready step (R72, R127). -/
def stepResponse (s0 send : DeviceState) (tx : TxPhase) (rx : RxPhase) : List Word :=
  [stepStatus true s0 send tx.txr rx.rxr tx.nopeer, BitVec.ofNat 32 rx.byte, countWord rx.state tx.lost]

/-- A ready step of device slot `d`, which holds `D`: reload the clock, recompute the state, transmit, receive, in
that order (R127, R130), and respond. -/
def readyStep (s : State) (d : Nat) (D : Device) : Host.Outcome State Fault Refusal :=
  let s1 := updateStateOf s d (resetClock D)
  let tx := handleTransmit s1 d (stepStarted D) (computedState D)
  let rx := handleReceive tx.state d (currentDevice tx.state d (stepStarted D)) (computedState D)
  returns (useCount rx.state tx.lost)
    (.response (stepResponse (computedState D) (currentDevice rx.state d D).state tx rx))

/-! ### Host-side bit conversion (R149 to R152) -/

/-- The bits of one byte, most significant first. -/
def byteBits (x : Byte) : List Bit :=
  [x.getLsbD 7, x.getLsbD 6, x.getLsbD 5, x.getLsbD 4, x.getLsbD 3, x.getLsbD 2, x.getLsbD 1, x.getLsbD 0]

/-- `BytesToBits` (R149). -/
def bytesToBits (xs : List Byte) : List Bit := xs.flatMap byteBits

/-- `BitsToByte` (R151): the sum over j of b[j] * 2^(7-j); `none` outside its domain of exactly 8 bits. -/
def bitsToByte (bits : List Bit) : Option Byte :=
  if bits.length = 8 then some (BitVec.ofNat 8 (bitsValue bits)) else none

/-- The conversion of a whole bit sequence back to bytes (R152): defined only for a multiple of 8. -/
def bitsToBytes : List Bit → Option (List Byte)
  | [] => some []
  | b0 :: b1 :: b2 :: b3 :: b4 :: b5 :: b6 :: b7 :: rest =>
    match bitsToByte [b0, b1, b2, b3, b4, b5, b6, b7], bitsToBytes rest with
    | some x, some xs => some (x :: xs)
    | _, _ => none
  | _ => none

end Sys2Proof.Machine
end

