-- ==== Sys2Proof/Machine/Bitconv.lean ====
section
/-! DEFINITION. The meanings of the byte and bit conversion helpers (`45_bitconv.md`).  They hold no state (R154). -/

namespace Sys2Proof.Machine

/-- BYTES_TO_BITS (R149). -/
def execBytesToBits (bytes : List Byte) (s : State) : Host.Outcome State Fault Refusal :=
  returns s (.bits (bytesToBits bytes))

/-- BITS_TO_BYTE (R151): refused outside its domain of exactly 8 bits (decision D29). -/
def execBitsToByte (bits : List Bit) (s : State) : Host.Outcome State Fault Refusal :=
  match bitsToByte bits with
  | some x => returns s (.byte x)
  | none => refuse s .badLength

end Sys2Proof.Machine
end

