-- ==== Sys2Proof/Machine/Clock.lean ====
section
/-! DEFINITION. The meanings of device creation, the per-device clock and the state recomputation
(`42_clock_state.md`). -/

namespace Sys2Proof.Machine

/-- CREATE_DEVICE (R101): refused BadSlot on an index at or above NDEV or a slot that exists, then BadConfig on a zero
configuration word; otherwise the slot comes into being with the values of R38. -/
def execCreateDevice (da : SlotIx) (baud data stop start : Word) (s : State) : Host.Outcome State Fault Refusal :=
  if s.params.ndev ≤ slotIndex da ∨ (deviceOperand s da).isSome then refuse s .badSlot
  else if configHasZero baud data stop start then refuse s .badConfig
  else returns (putDev s (slotIndex da) (newDevice baud data stop start)) (.response [])

/-- TICK (R104): the clock falls by P0 / P1; it never reloads and runs nothing. -/
def execTick (da : SlotIx) (num den : Word) (s : State) : Host.Outcome State Fault Refusal :=
  onDevice s da fun D =>
    if den = 0 then refuse s .badTime
    else returns (putDev s (slotIndex da) { D with clock := D.clock - timeAmount num den }) (.response [])

/-- IS_READY (R106). -/
def execIsReady (da : SlotIx) (s : State) : Host.Outcome State Fault Refusal :=
  onDevice s da fun D => returns s (.flag (isReady D))

/-- RESET_CLOCK (R108). -/
def execResetClock (da : SlotIx) (s : State) : Host.Outcome State Fault Refusal :=
  onDevice s da fun D => returns (putDev s (slotIndex da) (resetClock D)) .done

/-- UPDATE_STATE (R110). -/
def execUpdateState (da : SlotIx) (s : State) : Host.Outcome State Fault Refusal :=
  onDevice s da fun D => returns (updateStateOf s (slotIndex da) D) (.newState (computedState D))

end Sys2Proof.Machine
end

