-- ==== Sys2Proof/Machine/Framing.lean ====
section
/-! DEFINITION. The meanings of the transmit framer, the receive deframer, the step, enqueue and drain
(`43_framing.md`). -/

namespace Sys2Proof.Machine

/-- HANDLE_TRANSMIT (R115), with the S0 that the last UPDATE_STATE kept. -/
def execHandleTransmit (da : SlotIx) (s : State) : Host.Outcome State Fault Refusal :=
  onDevice s da fun D =>
    let tx := handleTransmit s (slotIndex da) D s.s0
    returns tx.state (.transmit tx.txr tx.nopeer tx.lost)

/-- HANDLE_RECEIVE (R120), with the S0 that the last UPDATE_STATE kept. -/
def execHandleReceive (da : SlotIx) (s : State) : Host.Outcome State Fault Refusal :=
  onDevice s da fun D =>
    let rx := handleReceive s (slotIndex da) D s.s0
    returns rx.state (.receive rx.rxr rx.byte)

/-- STEP (R127): a device that is not ready changes nothing (R129); a ready one runs its step. -/
def execStep (da : SlotIx) (s : State) : Host.Outcome State Fault Refusal :=
  onDevice s da fun D =>
    if isReady D then readyStep s (slotIndex da) D
    else returns s (.response [stepStatus false D.state D.state .none .none false, 0, 0])

/-- ENQUEUE_TRANSMIT (R134): push each bit in order; RSP0 is how many went in. -/
def execEnqueueTransmit (da : SlotIx) (bits : List Bit) (s : State) : Host.Outcome State Fault Refusal :=
  onDevice s da fun D =>
    let r := qPushAll s.params.nTx D.tx bits
    returns (useCount (putDev s (slotIndex da) { D with tx := r.1 }) r.2) (.response [countWord s r.2])

/-- DRAIN_RECEIVED (R137): the received bytes, counted, and the store emptied. -/
def execDrainReceived (da : SlotIx) (s : State) : Host.Outcome State Fault Refusal :=
  onDevice s da fun D =>
    returns (useCount (putDev s (slotIndex da) { D with rxb := [] }) D.rxb.length)
      (.response (countWord s D.rxb.length :: D.rxb.map (BitVec.ofNat 32)))

end Sys2Proof.Machine
end

