-- ==== Sys2Proof/Machine/Link.lean ====
section
/-! DEFINITION. The meanings of the link wiring and the peer push (`44_link.md`). -/

namespace Sys2Proof.Machine

/-- CONNECT (R140): refused BadSlot where either slot holds no device, then SelfLink where both are the same slot;
otherwise both peer fields are written, and no other device's (R142). -/
def execConnect (da db : SlotIx) (s : State) : Host.Outcome State Fault Refusal :=
  match deviceOperand s da, deviceOperand s db with
  | some A, some B =>
    if da = db then refuse s .selfLink
    else returns (putDev (putDev s (slotIndex da) { A with peer := some (slotIndex db) }) (slotIndex db)
      { B with peer := some (slotIndex da) }) (.response [])
  | _, _ => refuse s .badSlot

/-- PEER_PUSH (R144): false, and nothing changes, with no peer (R145) or a full receive queue. -/
def execPeerPush (da : SlotIx) (v : Bit) (s : State) : Host.Outcome State Fault Refusal :=
  onDevice s da fun D =>
    match peerPush s (slotIndex da) v with
    | none => returns s (.pushed false D.peer.isNone)
    | some s' => returns s' (.pushed true D.peer.isNone)

end Sys2Proof.Machine
end

