-- ==== Sys2Proof/Machine/Queue.lean ====
section
/-! DEFINITION. The meanings of the queue micro-operations (`41_queue.md`). -/

namespace Sys2Proof.Machine

/-- Q_INIT (R86): the queue as constructed. -/
def execQInit (da : SlotIx) (qs : QSel) (s : State) : Host.Outcome State Fault Refusal :=
  onDevice s da fun D => returns (putDev s (slotIndex da) (withQueue D qInit qs)) .done

/-- Q_PUSH (R88): false, and nothing changes, on a full queue (R89). -/
def execQPush (da : SlotIx) (qs : QSel) (v : Bit) (s : State) : Host.Outcome State Fault Refusal :=
  onDevice s da fun D =>
    match qPush (capacityOf s.params qs) (queueOf D qs) v with
    | none => returns s (.flag false)
    | some q => returns (putDev s (slotIndex da) (withQueue D q qs)) (.flag true)

/-- Q_POP (R90): none, and nothing changes, on an empty queue. -/
def execQPop (da : SlotIx) (qs : QSel) (s : State) : Host.Outcome State Fault Refusal :=
  onDevice s da fun D =>
    match qPop (capacityOf s.params qs) (queueOf D qs) with
    | none => returns s (.bit none)
    | some (b, q) => returns (putDev s (slotIndex da) (withQueue D q qs)) (.bit (some b))

/-- Q_PEEK (R92). -/
def execQPeek (da : SlotIx) (qs : QSel) (s : State) : Host.Outcome State Fault Refusal :=
  onDevice s da fun D => returns s (.bit (qPeek (queueOf D qs)))

/-- Q_RESET (R94). -/
def execQReset (da : SlotIx) (qs : QSel) (s : State) : Host.Outcome State Fault Refusal :=
  onDevice s da fun D => returns (putDev s (slotIndex da) (withQueue D (qReset (queueOf D qs)) qs)) .done

/-- Q_IS_EMPTY (R96). -/
def execQIsEmpty (da : SlotIx) (qs : QSel) (s : State) : Host.Outcome State Fault Refusal :=
  onDevice s da fun D => returns s (.flag (qIsEmpty (queueOf D qs)))

/-- Q_IS_FULL (R97). -/
def execQIsFull (da : SlotIx) (qs : QSel) (s : State) : Host.Outcome State Fault Refusal :=
  onDevice s da fun D => returns s (.flag (qIsFull (capacityOf s.params qs) (queueOf D qs)))

end Sys2Proof.Machine
end

