-- ==== Sys2Proof/Machine/Dispatch.lean ====
section
/-! DEFINITION. The meaning of each operation: one arm per constructor of `Instr`. -/

namespace Sys2Proof.Machine

/-- One operation on a state. -/
def exec (i : Instr) (s : State) : Host.Outcome State Fault Refusal :=
  match i with
  | .createDevice da baud data stop start => Sys2Proof.Machine.execCreateDevice da baud data stop start s
  | .connect da db => Sys2Proof.Machine.execConnect da db s
  | .enqueueTransmit da bits => Sys2Proof.Machine.execEnqueueTransmit da bits s
  | .tick da num den => Sys2Proof.Machine.execTick da num den s
  | .step da => Sys2Proof.Machine.execStep da s
  | .drainReceived da => Sys2Proof.Machine.execDrainReceived da s
  | .isReady da => Sys2Proof.Machine.execIsReady da s
  | .resetClock da => Sys2Proof.Machine.execResetClock da s
  | .updateState da => Sys2Proof.Machine.execUpdateState da s
  | .handleTransmit da => Sys2Proof.Machine.execHandleTransmit da s
  | .handleReceive da => Sys2Proof.Machine.execHandleReceive da s
  | .peerPush da v => Sys2Proof.Machine.execPeerPush da v s
  | .qInit da qs => Sys2Proof.Machine.execQInit da qs s
  | .qPush da qs v => Sys2Proof.Machine.execQPush da qs v s
  | .qPop da qs => Sys2Proof.Machine.execQPop da qs s
  | .qPeek da qs => Sys2Proof.Machine.execQPeek da qs s
  | .qReset da qs => Sys2Proof.Machine.execQReset da qs s
  | .qIsEmpty da qs => Sys2Proof.Machine.execQIsEmpty da qs s
  | .qIsFull da qs => Sys2Proof.Machine.execQIsFull da qs s
  | .bytesToBits bytes => Sys2Proof.Machine.execBytesToBits bytes s
  | .bitsToByte bits => Sys2Proof.Machine.execBitsToByte bits s

end Sys2Proof.Machine
end

