-- ==== Sys2Proof/Machine/Fetch.lean ====
section
/-! DEFINITION. How the block takes its next command.  It has no program counter and no instruction memory
(`10_state.md` R23, `20_memory.md` R58): the commands the host issues play the role of the program. -/

namespace Sys2Proof.Machine

/-- Take the next issued command and execute it (R47, R52, R60).
With none issued the block does nothing: a device changes only inside a command (R171).
In a refused block no later command is executed (R162).
A command that stands for no operation, or for one its side may not issue, is refused (R77, R78). -/
def runNext (s : State) : Host.Outcome State Fault Refusal :=
  match s.pending with
  | [] => .next s
  | c :: rest =>
    if s.refused.isSome then .refused .blockRefused
    else
      match decodeIssue c with
      | .error r => refuse { s with pending := rest } r
      | .ok i => exec i { s with pending := rest }

/-- The issued command of a word of spec/opcode_table.json: a host command comes through the port, a micro-operation
or a helper from the inside (R62, R77). -/
def issueOfTableWord (nbits w : Nat) : Issue :=
  { origin := originOf (opcOf (commandOfTableWord nbits w).cw), command := commandOfTableWord nbits w }

/-- A command from the host's side of the port. -/
def portIssue (i : Instr) : Issue := { origin := .port, command := encode i }

end Sys2Proof.Machine
end

