-- ==== Sys2Proof/Machine/Step.lean ====
section
/-! DEFINITION. One step of the machine: one command, atomically (`20_memory.md` R47). -/

namespace Sys2Proof.Machine

/-- One step: the next issued command, executed. -/
def step (s : State) : Host.Outcome State Fault Refusal := runNext s

/-- The state whose next command is the one with these bits (assumption log 6). -/
def State.withFetchWord (s : State) (nbits w : Nat) : State :=
  { s with pending := issueOfTableWord nbits w :: s.pending }

end Sys2Proof.Machine
end

