-- ==== Sys2Proof/Machine/Asm.lean ====
section
/-! DEFINITION. The text syntax of the host commands and the pseudo-commands (`30_encoding.md` R80, R81,
decision D30): a line of text, as a list of characters, to the commands it stands for. -/

namespace Sys2Proof.Machine

/-- White space inside a line. -/
def asmSpace (c : Char) : Bool := c == ' ' || c == '\t'

/-- A piece of text without the white space around it. -/
def asmTrim (cs : List Char) : List Char := ((cs.dropWhile asmSpace).reverse.dropWhile asmSpace).reverse

/-- A line without its comment: `;` to end of line, outside a quoted text (R80). -/
def asmStrip : Bool → List Char → List Char
  | _, [] => []
  | quoted, c :: cs =>
    if c == ';' && !quoted then []
    else c :: asmStrip (if c == '"' then !quoted else quoted) cs

/-- The pieces of a text between the commas outside a quoted text. -/
def asmCommas : Bool → List Char → List (List Char)
  | _, [] => [[]]
  | quoted, c :: cs =>
    if c == ',' && !quoted then [] :: asmCommas quoted cs
    else
      match asmCommas (if c == '"' then !quoted else quoted) cs with
      | [] => [[c]]
      | p :: ps => (c :: p) :: ps

/-- The value of a digit below a base. -/
def asmDigit (base : Nat) (c : Char) : Option Nat :=
  let v :=
    if '0' ≤ c ∧ c ≤ '9' then c.toNat - '0'.toNat
    else if 'a' ≤ c ∧ c ≤ 'f' then c.toNat - 'a'.toNat + 10
    else if 'A' ≤ c ∧ c ≤ 'F' then c.toNat - 'A'.toNat + 10
    else base
  if v < base then some v else none

/-- Digits of a base, after a value already read. -/
def asmDigits (base : Nat) : Nat → List Char → Option Nat
  | acc, [] => some acc
  | acc, c :: cs =>
    match asmDigit base c with
    | none => none
    | some v => asmDigits base (acc * base + v) cs

/-- A number: decimal, or hexadecimal after `0x` (R9). -/
def asmNat : List Char → Option Nat
  | [] => none
  | ['0', 'x'] => none
  | '0' :: 'x' :: cs => asmDigits 16 0 cs
  | cs => asmDigits 10 0 cs

/-- A slot index: a number the 4-bit field holds. -/
def asmSlot (cs : List Char) : Option SlotIx := (asmNat cs).bind fun n => if n < 16 then some (BitVec.ofNat 4 n) else none

/-- A payload word: a number a u32 holds. -/
def asmWord (cs : List Char) : Option Word := (asmNat cs).bind fun n => if n < 2 ^ 32 then some (BitVec.ofNat 32 n) else none

/-- A byte. -/
def asmByte (cs : List Char) : Option Byte := (asmNat cs).bind fun n => if n < 256 then some (BitVec.ofNat 8 n) else none

/-- A time amount `num/den`. -/
def asmTime (cs : List Char) : Option (Word × Word) :=
  match cs.span (· != '/') with
  | (num, _ :: den) =>
    match asmWord (asmTrim num), asmWord (asmTrim den) with
    | some n, some d => some (n, d)
    | _, _ => none
  | (_, []) => none

/-- One bit of a `0b` sequence. -/
def asmBit (c : Char) : Option Bit := if c == '0' then some false else if c == '1' then some true else none

/-- A bit sequence `0b<bits>`, the first-pushed bit leftmost; `0b` alone is the empty one (R80). -/
def asmBits : List Char → Option (List Bit)
  | '0' :: 'b' :: cs => cs.mapM asmBit
  | _ => none

/-- The bytes of a `send`: numbers, or one quoted text, each character by its ASCII code (R81). -/
def asmBytes (ops : List (List Char)) : Option (List Byte) :=
  match ops with
  | [ '"' :: cs ] =>
    match cs.reverse with
    | '"' :: text =>
      if text.all fun c => decide (c.toNat < 128 ∧ c ≠ '"') then some (text.reverse.map fun c => BitVec.ofNat 8 c.toNat)
      else none
    | _ => none
  | _ => ops.mapM asmByte

/-- `send d, bytes` (R81): the bits of the bytes, enqueued. -/
def asmSend (d : SlotIx) (bytes : List Byte) : List Instr := [.enqueueTransmit d (bytesToBits bytes)]

/-- `iter a, b, num/den` (R81): one driver iteration with device a processed before device b (R172). -/
def asmIter (a b : SlotIx) (num den : Word) : List Instr := [.tick a num den, .tick b num den, .step a, .step b]

/-- The commands of a mnemonic and its operands. -/
def asmCommand (name : List Char) (ops : List (List Char)) : Option (List Instr) :=
  if name = "create".toList then
    match ops with
    | [d, p0, p1, p2, p3] =>
      match asmSlot d, asmWord p0, asmWord p1, asmWord p2, asmWord p3 with
      | some d, some p0, some p1, some p2, some p3 => some [.createDevice d p0 p1 p2 p3]
      | _, _, _, _, _ => none
    | _ => none
  else if name = "connect".toList then
    match ops with
    | [a, b] =>
      match asmSlot a, asmSlot b with
      | some a, some b => some [.connect a b]
      | _, _ => none
    | _ => none
  else if name = "enqueue".toList then
    match ops with
    | [d, bits] =>
      match asmSlot d, asmBits bits with
      | some d, some bits => some [.enqueueTransmit d bits]
      | _, _ => none
    | _ => none
  else if name = "tick".toList then
    match ops with
    | [d, t] =>
      match asmSlot d, asmTime t with
      | some d, some (n, m) => some [.tick d n m]
      | _, _ => none
    | _ => none
  else if name = "step".toList then
    match ops with
    | [d] => (asmSlot d).map fun d => [.step d]
    | _ => none
  else if name = "drain".toList then
    match ops with
    | [d] => (asmSlot d).map fun d => [.drainReceived d]
    | _ => none
  else if name = "send".toList then
    match ops with
    | d :: b :: bs =>
      match asmSlot d, asmBytes (b :: bs) with
      | some d, some xs => some (asmSend d xs)
      | _, _ => none
    | _ => none
  else if name = "iter".toList then
    match ops with
    | [a, b, t] =>
      match asmSlot a, asmSlot b, asmTime t with
      | some a, some b, some (n, m) => some (asmIter a b n m)
      | _, _, _ => none
    | _ => none
  else none

/-- The commands of one line of text: none of them for a blank or comment line, `none` for a line with no meaning. -/
def assembleLine (line : List Char) : Option (List Instr) :=
  match asmTrim (asmStrip false line) with
  | [] => some []
  | cs => asmCommand (cs.takeWhile fun c => !asmSpace c) ((asmCommas false (cs.dropWhile fun c => !asmSpace c)).map asmTrim)

end Sys2Proof.Machine
end

