-- ==== Sys2Proof/Machine/Events.lean ====
section
/-! DEFINITION. The event taxonomy (`60_exceptions.md` R156): which events a response records.  The block does not
return the event codes; a host reads the events off the response fields. -/

namespace Sys2Proof.Machine

/-- The events of R156.  TimingDrift has no code and no operation produces it. -/
inductive Event where
  | bufferOverflow
  | bufferUnderrun
  | framingError
  | noPeer
deriving DecidableEq, Repr

/-- The event codes (R156, decision D28). -/
def eventCode : Event → Nat
  | .bufferOverflow => 1
  | .bufferUnderrun => 2
  | .framingError => 3
  | .noPeer => 4

/-- A STEP response signals a frame failure: RXR is ERR_START, ERR_UNDERRUN or ERR_STOP (R74). -/
def statusFrameFailure (w : Word) : Bool :=
  decide (statusRxr w = 3 ∨ statusRxr w = 4 ∨ statusRxr w = 5)

/-- The events a STEP response records, by its words RSP0 and RSP2 (R156, R164: all are reported together).  A device
with no peer loses its pushes to NoPeer, not to a full queue (R119, R161). -/
def stepEvents (rsp0 rsp2 : Word) : List Event :=
  (if rsp2 ≠ 0 ∧ statusNopeer rsp0 = false then [.bufferOverflow] else [])
    ++ (if statusTxr rsp0 = 2 ∨ statusRxr rsp0 = 4 then [.bufferUnderrun] else [])
    ++ (if statusRxr rsp0 = 3 ∨ statusRxr rsp0 = 5 then [.framingError] else [])
    ++ (if statusNopeer rsp0 then [.noPeer] else [])

/-- The events an ENQUEUE_TRANSMIT response records: RSP0 below the length offered (R156, R157). -/
def enqueueEvents (offered : Nat) (rsp0 : Word) : List Event :=
  if rsp0.toNat < offered then [.bufferOverflow] else []

/-- TimingDrift (R160): device `d` is linked to a device with a different time_per_byte. -/
def timingDrift (s : State) (d : Nat) : Bool :=
  match devAt s d with
  | none => false
  | some D =>
    match D.peer.bind (devAt s) with
    | none => false
    | some P => decide (D.timePerByte ≠ P.timePerByte)

end Sys2Proof.Machine
end

