-- ==== Sys2Proof/Machine/Registers.lean ====
section
/-! DEFINITION. The register reference numbers (`10_state.md` R35), for the observation of a state.  No command reads
or writes by number (decision D32). -/

namespace Sys2Proof.Machine

/-- The value of a field by its reference number, in the field's own domain. -/
inductive RegValue where
  | word (w : Word)
  | nat (n : Nat)
  | time (t : Rat)
  | state (st : DeviceState)
  | peer (p : Option Nat)
  | bytes (bs : List Nat)
deriving DecidableEq, Repr

/-- The field of a device with a reference number 0x00..0x0F (R35). -/
def deviceField (D : Device) (no : Nat) : Option RegValue :=
  match no with
  | 0x00 => some (.word D.baudRate)
  | 0x01 => some (.word D.dataBits)
  | 0x02 => some (.word D.stopBits)
  | 0x03 => some (.word D.startBits)
  | 0x04 => some (.nat D.bitsPerFrame)
  | 0x05 => some (.time D.timePerByte)
  | 0x06 => some (.state D.state)
  | 0x07 => some (.time D.clock)
  | 0x08 => some (.peer D.peer)
  | 0x09 => some (.nat D.tx.count)
  | 0x0A => some (.nat D.tx.rpos)
  | 0x0B => some (.nat D.tx.wpos)
  | 0x0C => some (.nat D.rx.count)
  | 0x0D => some (.nat D.rx.rpos)
  | 0x0E => some (.nat D.rx.wpos)
  | 0x0F => some (.bytes D.rxb)
  | _ => none

/-- The field of device slot `d` with a reference number; a slot that does not exist has none (R20). -/
def regRead (s : State) (d no : Nat) : Option RegValue := (devAt s d).bind fun D => deviceField D no

end Sys2Proof.Machine
end

