-- ==== Sys2Proof/Safety.lean ====
section
/-! DEFINITION. What counts as a safe run, and the terms in which claims about the block are stated: the invariant of
its state, the sequence a queue holds, the frame on the wire, and what a step leaves alone. -/

namespace Sys2Proof.Machine

/-! ### Sequences -/

/-- `contents(q)`: the sequence a queue of capacity `N` holds, head first (`41_queue.md` R85). -/
def contents (N : Nat) (q : Queue) : List Bit :=
  (List.range q.count).map fun k => slotRead q ((q.rpos + k) % N)

/-- How many more bits a queue of capacity `N` takes. -/
def room (N : Nat) (q : Queue) : Nat := N - q.count

/-- The bits of one complete frame on the wire: start bit, data bits, stop bits (`20_memory.md` R44). -/
def wireFrame (data : List Bit) (stop : Nat) : List Bit :=
  Config.startV :: (data ++ List.replicate stop Config.stopV)

/-- What a receiver with `n` data bits and a byte of `w` bits makes of a bit sequence: the result code, the byte, and
the bits that stay (`43_framing.md` R120 to R126, stated on the sequence). -/
def readFrame (n w : Nat) : List Bit → RxResult × Nat × List Bit
  | [] => (.empty, 0, [])
  | h :: t =>
    if h ≠ Config.startV then (.errStart, 0, [])
    else if t.length < n then (.errUnderrun, 0, [])
    else if (t.drop n).head? = some Config.stopV then (.byte, bitsValue (t.take n) % 2 ^ w, t.drop (n + 1))
    else (.errStop, 0, [])

/-- The device after its receive phase has made result `r` and byte `x` of its queue, with `q` the queue that is left:
Idle but for an empty queue, and the byte, where there is one, joins the store (R120). -/
def received (D : Device) (q : Queue) (r : RxResult) (x : Nat) : Device :=
  { D with
    rx := q
    state := if r = .empty then D.state else .idle
    rxb := if r = .byte then D.rxb ++ [x] else D.rxb }

/-- A run of pushes (`some v`) and pops (`none`) on a queue: the bits whose push succeeded, the bits popped, the queue
after it. -/
def queueRun (N : Nat) : List (Option Bit) → Queue → List Bit × List Bit × Queue
  | [], q => ([], [], q)
  | some v :: ops, q =>
    match qPush N q v with
    | none => queueRun N ops q
    | some q' => (v :: (queueRun N ops q').1, (queueRun N ops q').2)
  | none :: ops, q =>
    match qPop N q with
    | none => queueRun N ops q
    | some (b, q') =>
      ((queueRun N ops q').1, b :: (queueRun N ops q').2.1, (queueRun N ops q').2.2)

/-- The receive phase runs on this state: S0, or the live state register where RX_GUARD is LIVE, is Receiving or
TransmittingAndReceiving (R121). -/
abbrev ReceiveRuns (s : State) (D : Device) : Prop :=
  (s.params.rxGuard = .stepStart ∧ (s.s0 = .receiving ∨ s.s0 = .transmittingAndReceiving)) ∨
  (s.params.rxGuard = .live ∧ (D.state = .receiving ∨ D.state = .transmittingAndReceiving))

/-! ### The invariant -/

/-- A queue of capacity `N` is well formed: its slot array is canonical and inside 0..N-1, `0 <= count <= N`,
`wpos = (rpos + count) mod N` (R32), and every slot of the occupied window has been written (R91). -/
abbrev queueWf (N : Nat) (q : Queue) : Prop :=
  tableWf q.slots ∧ (∀ e ∈ q.slots, e.1 < N) ∧ q.count ≤ N ∧ q.rpos < N ∧ q.wpos = (q.rpos + q.count) % N ∧
    ∀ k < q.count, (tableGet q.slots ((q.rpos + k) % N)).isSome

/-- A device's configuration is positive and its derived values are those of R26. -/
abbrev configWf (D : Device) : Prop :=
  D.baudRate ≠ 0 ∧ D.dataBits ≠ 0 ∧ D.stopBits ≠ 0 ∧ D.startBits ≠ 0 ∧
    D.bitsPerFrame = bitsPerFrameOf D.dataBits D.stopBits D.startBits ∧
    D.timePerByte = timePerByteOf D.bitsPerFrame D.baudRate

/-- A device's peer, where it has one, is another created slot (R31). -/
abbrev peerWf (s : State) (d : Nat) (D : Device) : Prop := ∀ p ∈ D.peer, p ≠ d ∧ (devAt s p).isSome

/-- The device in slot `d` is well formed: R25, R26, R31, R32 and R33. -/
abbrev deviceWf (s : State) (d : Nat) (D : Device) : Prop :=
  configWf D ∧ peerWf s d D ∧ queueWf s.params.nTx D.tx ∧ queueWf s.params.nRx D.rx ∧
    ∀ x ∈ D.rxb, x < 2 ^ s.params.accW

/-- The device table is canonical and inside 0..NDEV-1 (R19). -/
abbrev State.Canon (s : State) : Prop := tableWf s.dev ∧ ∀ e ∈ s.dev, e.1 < s.params.ndev

/-- The invariant of the block: it was built with admitted parameters, its device table is canonical, and every
created device is well formed. -/
abbrev State.Inv (s : State) : Prop :=
  paramsOk s.params = true ∧ s.Canon ∧ ∀ e ∈ s.dev, deviceWf s e.1 e.2

/-- Every state register is Idle (R29). -/
abbrev State.AllIdle (s : State) : Prop := ∀ e ∈ s.dev, e.2.state = .idle

/-- Every command that waits was issued through the port. -/
abbrev State.PortOnly (s : State) : Prop := ∀ c ∈ s.pending, c.origin = .port

/-- A run that still supports claims: no command has been refused (R21, R162). -/
abbrev State.Safe (s : State) : Prop := s.refused = none

/-! ### What an operation leaves alone -/

/-- The parameters, the mark `refused` and the command stream are as before. -/
abbrev SameHost (s t : State) : Prop := t.params = s.params ∧ t.refused = s.refused ∧ t.pending = s.pending

/-- Everything but the device table and the operation's output is as before. -/
abbrev SameBlock (s t : State) : Prop := SameHost s t ∧ t.s0 = s.s0 ∧ t.free = s.free

/-- Every device slot outside a list is as before: every field of it, each bit of its queues among them. -/
abbrev SameSlotsBut (ds : List Nat) (s t : State) : Prop := ∀ e, e ∉ ds → devAt t e = devAt s e

/-- Nothing but the listed device slots, and what the operation returns, has changed. -/
abbrev OnlySlots (ds : List Nat) (s t : State) : Prop := SameBlock s t ∧ SameSlotsBut ds s t

/-! ### Boot (R179, R180) -/

/-- A slot and the configuration it is created with. -/
structure SlotConfig where
  slot : SlotIx
  baud : Word
  data : Word
  stop : Word
  start : Word
deriving DecidableEq, Repr

/-- The peer that CONNECTs of a list of links, in that order, leave slot `d` with: the other slot of the LAST link that
names `d`, since CONNECT writes the two slots it names and no third one (R140, R142; assumption log 21). -/
def linkedTo : List (SlotIx × SlotIx) → Nat → Option Nat
  | [], _ => none
  | l :: later, d =>
    match linkedTo later d with
    | some p => some p
    | none =>
      if slotIndex l.1 = d then some (slotIndex l.2)
      else if slotIndex l.2 = d then some (slotIndex l.1)
      else none

/-- A link joins two distinct slots of `devs`: what CONNECT takes once they are created (R140). -/
abbrev linkWf (devs : List SlotConfig) (l : SlotIx × SlotIx) : Prop :=
  l.1 ≠ l.2 ∧ l.1 ∈ devs.map SlotConfig.slot ∧ l.2 ∈ devs.map SlotConfig.slot

/-- A link names a slot. -/
abbrev linkNames (l : SlotIx × SlotIx) (d : SlotIx) : Prop := l.1 = d ∨ l.2 = d

/-- Two devices are connected: each is the other's peer (R140). -/
abbrev Connected (s : State) (a b : SlotIx) : Prop :=
  (devAt s (slotIndex a)).bind Device.peer = some (slotIndex b) ∧
  (devAt s (slotIndex b)).bind Device.peer = some (slotIndex a)

/-- `CleanStart(devs, links)` (R180), the state that steps (1) to (3) of R179 reach: nothing refused; every link joins
two distinct slots of `devs`; the slots of `devs` exist, each as created with its own configuration but for its peer,
which is the one the CONNECTs of `links` leave; no other slot exists. -/
def CleanStart (devs : List SlotConfig) (links : List (SlotIx × SlotIx)) (s : State) : Prop :=
  s.refused = none ∧
  (∀ l ∈ links, linkWf devs l) ∧
  (∀ c ∈ devs, devAt s (slotIndex c.slot) =
    some { newDevice c.baud c.data c.stop c.start with peer := linkedTo links (slotIndex c.slot) }) ∧
  ∀ d D, devAt s d = some D → ∃ c ∈ devs, slotIndex c.slot = d

/-- The commands of boot steps (2) and (3) of R179: create every device, then connect every pair. -/
def bootCommands (devs : List SlotConfig) (links : List (SlotIx × SlotIx)) : List Issue :=
  (devs.map fun c => portIssue (.createDevice c.slot c.baud c.data c.stop c.start)) ++
    links.map fun l => portIssue (.connect l.1 l.2)

/-- The commands of a driver iteration that ticks devices a and b by the same amount and steps a before b (R172). -/
def iteration (a b : SlotIx) (num den : Word) : List Issue := (asmIter a b num den).map portIssue

/-- `n` driver iterations. -/
def iterations (a b : SlotIx) (num den : Word) (n : Nat) : List Issue :=
  (List.replicate n (iteration a b num den)).flatten

/-- Two devices as the round-trip law R139 takes them: created with the same configuration, 8 data bits and 1 stop bit,
linked, with equal clocks that have not run past a period, Idle, B's two queues empty, the bits of `bytes` in A's transmit
queue, N_RX >= 10 and bytes of 8 bits. -/
structure LinkedPair (s : State) (a b : SlotIx) (A B : Device) (bytes : List Byte) : Prop where
  inv : s.Inv
  safe : s.Safe
  nRx : 10 ≤ s.params.nRx
  accW : s.params.accW = 8
  devA : devAt s (slotIndex a) = some A
  devB : devAt s (slotIndex b) = some B
  peerA : A.peer = some (slotIndex b)
  peerB : B.peer = some (slotIndex a)
  data : A.dataBits = 8 ∧ B.dataBits = 8
  stop : A.stopBits = 1 ∧ B.stopBits = 1
  period : B.timePerByte = A.timePerByte
  clock : B.clock = A.clock ∧ A.clock ≤ A.timePerByte
  idle : A.state = .idle ∧ B.state = .idle
  txA : contents s.params.nTx A.tx = bytesToBits bytes
  txB : B.tx.count = 0
  rxA : A.rx.count = 0
  rxB : B.rx.count = 0

end Sys2Proof.Machine
end

