-- ==== Sys2Proof/Certificates/Slice0/Obligations.lean ====
section
/-! DEFINITION. The statements of the model, from the numbered rules of the spec.  Each docstring names the rules.
`slotIndex da` is the slot a DA field names, `devAt s d` the device slot `d` holds, `contents N q` the sequence a queue
holds (R85), and `OnlySlots ds s t` says that nothing but the listed slots and the operation's output has changed. -/

open Sys2Proof Sys2Proof.Machine

/-! ### Encoding -/

/-- Decoding the encoding of a well-formed instruction gives it back, every operand at every value the encoding admits
(R61 to R70, R75, R82; the helpers' operand words are assumption log 9). -/
def Obligations.DecodeEncodeGivesBackInstruction : Prop :=
  ∀ i : Instr, i.wf = true → decode (encode i) = .ok i

/-- A command word has one meaning: the instruction a command decodes to is well formed and is encoded with the very
same command word (R61, R75). -/
def Obligations.DecodedInstructionHasSameCommandWord : Prop :=
  ∀ (c : Command) (i : Instr), decode c = .ok i → i.wf = true ∧ (encode i).cw = c.cw

/-- Every row of the opcode map, its command word written out bit by bit from R61 and R75, decodes to its instruction, for
every DA, DB, QS and payload that is long enough: P0 to P3 in the order of R70, P0/P1 in that of R69, bit i of a bit sequence
from bit 31 - i mod 32 of P[1 + i div 32] with nothing past bit L-1 (R68), a bit operand from P0[0] (R82).  (Words past those
the command needs are assumption log 10, the helpers' payload is 9.) -/
def Obligations.WrittenOutWordsDecode : Prop :=
  ∀ (da db : SlotIx) (p0 p1 p2 p3 : Word) (ws : List Word),
    decode ⟨0b00000001#8 ++ da ++ 0b0000#4, p0 :: p1 :: p2 :: p3 :: ws⟩ = .ok (.createDevice da p0 p1 p2 p3) ∧
    decode ⟨0b00000010#8 ++ da ++ db, ws⟩ = .ok (.connect da db) ∧
    ((p0.toNat + 31) / 32 ≤ ws.length →
      ∃ bits, decode ⟨0b00000011#8 ++ da ++ 0b0000#4, p0 :: ws⟩ = .ok (.enqueueTransmit da bits) ∧
        bits.length = p0.toNat ∧
        ∀ i, i < p0.toNat → bits[i]? = (ws[i / 32]?).map fun w => w.getLsbD (31 - i % 32)) ∧
    decode ⟨0b00000100#8 ++ da ++ 0b0000#4, p0 :: p1 :: ws⟩ = .ok (.tick da p0 p1) ∧
    decode ⟨0b00000101#8 ++ da ++ 0b0000#4, ws⟩ = .ok (.step da) ∧
    decode ⟨0b00000110#8 ++ da ++ 0b0000#4, ws⟩ = .ok (.drainReceived da) ∧
    decode ⟨0b01000000#8 ++ da ++ 0b0000#4, ws⟩ = .ok (.isReady da) ∧
    decode ⟨0b01000001#8 ++ da ++ 0b0000#4, ws⟩ = .ok (.resetClock da) ∧
    decode ⟨0b01000010#8 ++ da ++ 0b0000#4, ws⟩ = .ok (.updateState da) ∧
    decode ⟨0b01000011#8 ++ da ++ 0b0000#4, ws⟩ = .ok (.handleTransmit da) ∧
    decode ⟨0b01000100#8 ++ da ++ 0b0000#4, ws⟩ = .ok (.handleReceive da) ∧
    decode ⟨0b01000101#8 ++ da ++ 0b0000#4, p0 :: ws⟩ = .ok (.peerPush da (p0.getLsbD 0)) ∧
    (∀ (low : SlotIx) (qs : QSel), (low = 0b0000#4 ∧ qs = .tx) ∨ (low = 0b0001#4 ∧ qs = .rx) →
      decode ⟨0b10000000#8 ++ da ++ low, ws⟩ = .ok (.qInit da qs) ∧
      decode ⟨0b10000001#8 ++ da ++ low, p0 :: ws⟩ = .ok (.qPush da qs (p0.getLsbD 0)) ∧
      decode ⟨0b10000010#8 ++ da ++ low, ws⟩ = .ok (.qPop da qs) ∧
      decode ⟨0b10000011#8 ++ da ++ low, ws⟩ = .ok (.qPeek da qs) ∧
      decode ⟨0b10000100#8 ++ da ++ low, ws⟩ = .ok (.qReset da qs) ∧
      decode ⟨0b10000101#8 ++ da ++ low, ws⟩ = .ok (.qIsEmpty da qs) ∧
      decode ⟨0b10000110#8 ++ da ++ low, ws⟩ = .ok (.qIsFull da qs)) ∧
    (p0.toNat ≤ ws.length →
      ∃ bytes, decode ⟨0b11000000#8 ++ 0b0000#4 ++ 0b0000#4, p0 :: ws⟩ = .ok (.bytesToBits bytes) ∧
        bytes.length = p0.toNat ∧
        ∀ k, k < p0.toNat → bytes[k]? = (ws[k]?).map fun w => w.extractLsb' 0 8) ∧
    ((p0.toNat + 31) / 32 ≤ ws.length →
      ∃ bits, decode ⟨0b11000001#8 ++ 0b0000#4 ++ 0b0000#4, p0 :: ws⟩ = .ok (.bitsToByte bits) ∧
        bits.length = p0.toNat ∧
        ∀ i, i < p0.toNat → bits[i]? = (ws[i / 32]?).map fun w => w.getLsbD (31 - i % 32))

/-- The encodings with no meaning (R65, R75, R78): an OPC outside the map is IllegalOpcode, a command word whose must-be-0
field is not 0 is ReservedField, and a payload shorter than its command needs is ShortPayload: 4 words for CREATE_DEVICE, 2
for TICK, 1 + ceil(P0/32) for ENQUEUE_TRANSMIT, 1 for PEER_PUSH and Q_PUSH.  (ReservedField for the formats U, Q and F is the
model's name: assumption log 8; the helpers' payload is 9.) -/
def Obligations.ReservedEncodingsHaveNoMeaning : Prop :=
  ∀ c : Command,
    (opcOf c.cw ∉ [0x01, 0x02, 0x03, 0x04, 0x05, 0x06, 0x40, 0x41, 0x42, 0x43, 0x44, 0x45, 0x80, 0x81, 0x82, 0x83, 0x84,
        0x85, 0x86, 0xC0, 0xC1] → decode c = .error .illegalOpcode) ∧
    (opcOf c.cw ∈ [0x01, 0x03, 0x04, 0x05, 0x06, 0x40, 0x41, 0x42, 0x43, 0x44, 0x45] → lowOf c.cw ≠ 0 →
        decode c = .error .reservedField) ∧
    (opcOf c.cw ∈ [0x80, 0x81, 0x82, 0x83, 0x84, 0x85, 0x86] → 2 ≤ (lowOf c.cw).toNat →
        decode c = .error .reservedField) ∧
    (opcOf c.cw ∈ [0xC0, 0xC1] → daOf c.cw ≠ 0 ∨ lowOf c.cw ≠ 0 → decode c = .error .reservedField) ∧
    (opcOf c.cw = 0x01 → lowOf c.cw = 0 → c.payload.length < 4 → decode c = .error .shortPayload) ∧
    (opcOf c.cw = 0x04 → lowOf c.cw = 0 → c.payload.length < 2 → decode c = .error .shortPayload) ∧
    (opcOf c.cw = 0x03 → lowOf c.cw = 0 → c.payload.length < 1 + ((c.payload.headD 0).toNat + 31) / 32 →
        decode c = .error .shortPayload) ∧
    (opcOf c.cw = 0x45 → lowOf c.cw = 0 → c.payload = [] → decode c = .error .shortPayload) ∧
    (opcOf c.cw = 0x81 → (lowOf c.cw).toNat < 2 → c.payload = [] → decode c = .error .shortPayload) ∧
    (opcOf c.cw = 0xC0 → daOf c.cw = 0 → lowOf c.cw = 0 → c.payload.length < 1 + (c.payload.headD 0).toNat →
        decode c = .error .shortPayload) ∧
    (opcOf c.cw = 0xC1 → daOf c.cw = 0 → lowOf c.cw = 0 →
        c.payload.length < 1 + ((c.payload.headD 0).toNat + 31) / 32 → decode c = .error .shortPayload)

/-- The byte transport of R66 and R76 loses nothing: the bytes of an instruction's command, with anything behind them,
give that command and what is behind it. -/
def Obligations.CommandBytesParseBack : Prop :=
  ∀ (i : Instr) (rest : List Byte), i.wf = true →
    parseCommand (commandBytes (encode i) ++ rest) = some (encode i, rest)

/-! ### The step, the port and the refusal -/

/-- A step executes the instruction that the next issued command stands for, with the command taken off the stream
(R47, R60); a next command that stands for none is refused: it is taken off, the mark holds the reason, and nothing else
changes (R78, R162); with no command issued a step changes nothing (R171). -/
def Obligations.StepRunsTheDecodedInstruction : Prop :=
  ∀ (s : State) (c : Issue) (rest : List Issue),
    (∀ i, s.pending = c :: rest → s.refused = none → decodeIssue c = .ok i →
      step s = exec i { s with pending := rest }) ∧
    (∀ r, s.pending = c :: rest → s.refused = none → decodeIssue c = .error r →
      step s = .next { s with pending := rest, refused := some r }) ∧
    (s.pending = [] → step s = .next s)

/-- The command port accepts host commands only: any other OPC is refused there with the reason IllegalOpcode, and
nothing but the mark and the command stream changes (R77, R162). -/
def Obligations.PortRefusesMicroOperations : Prop :=
  ∀ (s : State) (c : Command) (rest : List Issue),
    s.pending = ⟨.port, c⟩ :: rest → s.refused = none → ¬ (1 ≤ opcOf c.cw ∧ opcOf c.cw ≤ 6) →
      step s = .next { s with pending := rest, refused := some .illegalOpcode }

/-- A refused block executes no later command, and the mark is never cleared (R21, R162). -/
def Obligations.RefusedBlockExecutesNothing : Prop :=
  ∀ (s : State) (r : RefuseReason), s.refused = some r →
    (s.pending ≠ [] → step s = .refused .blockRefused) ∧ ∀ t, step s = .next t → t = s

/-- An instruction that is refused changes nothing but the mark `refused` (R162). -/
def Obligations.RefusalChangesOnlyTheMark : Prop :=
  ∀ (i : Instr) (s t : State), exec i s = .next t → t.refused ≠ s.refused →
    t = { s with refused := t.refused } ∧ t.refused ≠ none

/-- Every operation completes in every state: there is no fault and no trap (R155, R165).  A refused command completes
with the mark set (assumption log 5). -/
def Obligations.EveryOperationAnswersANextState : Prop :=
  ∀ (i : Instr) (s : State), ∃ t, exec i s = .next t

/-- Every operation but CREATE_DEVICE that names a slot with no device in it, an index at or above NDEV among them, is
refused BadSlot (R20, R64, R162). -/
def Obligations.MissingSlotIsRefusedBadSlot : Prop :=
  ∀ (s : State) (da db : SlotIx) (num den : Word) (bits : List Bit) (v : Bit) (qs : QSel),
    devAt s (slotIndex da) = none →
    ∀ i ∈ [.connect da db, .connect db da, .enqueueTransmit da bits, .tick da num den, .step da, .drainReceived da,
        .isReady da, .resetClock da, .updateState da, .handleTransmit da, .handleReceive da, .peerPush da v, .qInit da qs,
        .qPush da qs v, .qPop da qs, .qPeek da qs, .qReset da qs, .qIsEmpty da qs, .qIsFull da qs],
      exec i s = .next { s with refused := some .badSlot }

/-! ### Building the block, and the invariants -/

/-- When the block is built, every slot has `exists = false` and `refused = false` (R37); the parameters are those it was
built with. -/
def Obligations.BuiltBlockHasNoDevice : Prop :=
  ∀ p : Params, paramsOk p = true →
    (State.build p).refused = none ∧ (State.build p).params = p ∧ ∀ d, devAt (State.build p) d = none

/-- A block is refused BadCapacity at its building exactly when N_TX or N_RX is not a power of two in 1..2^16
(R8, R83, R162). -/
def Obligations.BuildRefusesBadCapacity : Prop :=
  ∀ p : Params, (State.build p).refused = some .badCapacity ↔
    ¬ ((∃ k, k ≤ 16 ∧ p.nTx = 2 ^ k) ∧ (∃ k, k ≤ 16 ∧ p.nRx = 2 ^ k))

/-- The reset state meets the invariant, and every state register in it is Idle. -/
def Obligations.ResetMeetsInvariant : Prop :=
  State.reset.Inv ∧ State.reset.AllIdle ∧ Memory.wf State.reset ∧ State.reset.Safe

/-- Every step keeps the invariant of the block: the device table and every slot array canonical, every configuration
positive with its derived values, every queue with `0 <= count <= N` and `wpos = (rpos + count) mod N`, no device its own
peer, every received byte inside ACC_W bits (R25, R26, R31, R32, R33, R91). -/
def Obligations.StepKeepsInvariant : Prop :=
  ∀ s t : State, s.Inv → step s = .next t → t.Inv

/-- Between commands every state register is Idle: a step that takes a command from the port keeps it so (R29, R128). -/
def Obligations.PortStepKeepsStateIdle : Prop :=
  ∀ s t : State, s.Inv → s.AllIdle → s.PortOnly → step s = .next t → t.AllIdle ∧ t.PortOnly

/-- Every step keeps all storage in its canonical form, from every state whose storage has it. -/
def Obligations.StepKeepsStorageCanonical : Prop :=
  ∀ s t : State, Memory.wf s → step s = .next t → Memory.wf t

/-- No operation changes a parameter, removes a device, or changes a configuration field of one (R20, R25, R26, R102). -/
def Obligations.ConfigurationNeverChanges : Prop :=
  ∀ (i : Instr) (s t : State), exec i s = .next t →
    t.params = s.params ∧
    ∀ d D, devAt s d = some D → ∃ E, devAt t d = some E ∧
      E.baudRate = D.baudRate ∧ E.dataBits = D.dataBits ∧ E.stopBits = D.stopBits ∧ E.startBits = D.startBits ∧
      E.bitsPerFrame = D.bitsPerFrame ∧ E.timePerByte = D.timePerByte

/-- A device's clock is written only by TICK, STEP and RESET_CLOCK on that device: every other operation, and each of
these on another slot, leaves it (R30, R105, R169). -/
def Obligations.ClockWrittenOnlyByItsOwnCommands : Prop :=
  ∀ (i : Instr) (s t : State) (d : Nat) (D E : Device), exec i s = .next t →
    devAt s d = some D → devAt t d = some E → E.clock ≠ D.clock →
    ∃ da, slotIndex da = d ∧ (i = .step da ∨ i = .resetClock da ∨ ∃ num den, i = .tick da num den)

/-- Among the host commands a transmit queue is written only by ENQUEUE_TRANSMIT and STEP on its device, and a receive
queue only by STEP on its device or on a device whose peer it is (R34). -/
def Obligations.QueuesWrittenOnlyByTheirWriters : Prop :=
  ∀ (i : Instr) (s t : State) (d : Nat) (D E : Device), portAccepts i.opc.toNat = true → exec i s = .next t →
    devAt s d = some D → devAt t d = some E →
    (E.tx ≠ D.tx → ∃ da, slotIndex da = d ∧ (i = .step da ∨ ∃ bits, i = .enqueueTransmit da bits)) ∧
    (E.rx ≠ D.rx → ∃ da, i = .step da ∧
      (slotIndex da = d ∨ ∃ F, devAt s (slotIndex da) = some F ∧ F.peer = some d))

/-- A peer field is written only by CONNECT, and only in the two slots it names (R31, R142). -/
def Obligations.PeerWrittenOnlyByConnect : Prop :=
  ∀ (i : Instr) (s t : State) (d : Nat) (D E : Device), exec i s = .next t →
    devAt s d = some D → devAt t d = some E → E.peer ≠ D.peer →
    ∃ da db, i = .connect da db ∧ (slotIndex da = d ∨ slotIndex db = d)

/-! ### Device creation and clock (42_clock_state.md) -/

/-- CREATE_DEVICE on a free slot with four positive words: the slot holds a device with the reset values of R38, and
nothing else changes (R26, R38, R101). -/
def Obligations.CreateDeviceMakesTheDevice : Prop :=
  ∀ (s : State) (da : SlotIx) (baud data stop start : Word),
    slotIndex da < s.params.ndev → devAt s (slotIndex da) = none →
    baud ≠ 0 → data ≠ 0 → stop ≠ 0 → start ≠ 0 →
    ∃ t D, exec (.createDevice da baud data stop start) s = .next t ∧ t.out = .response [] ∧
      OnlySlots [slotIndex da] s t ∧ devAt t (slotIndex da) = some D ∧
      D.baudRate = baud ∧ D.dataBits = data ∧ D.stopBits = stop ∧ D.startBits = start ∧
      D.bitsPerFrame = start.toNat + data.toNat + stop.toNat ∧
      D.timePerByte * (baud.toNat : Rat) = (D.bitsPerFrame : Rat) ∧
      D.state = .idle ∧ D.clock = D.timePerByte ∧ D.peer = none ∧ D.rxb = [] ∧
      D.tx.count = 0 ∧ D.tx.rpos = 0 ∧ D.tx.wpos = 0 ∧ D.rx.count = 0 ∧ D.rx.rpos = 0 ∧ D.rx.wpos = 0

/-- The operands that are refused: CREATE_DEVICE with an index at or above NDEV or on a slot that exists (BadSlot), and
otherwise with a zero configuration word (BadConfig); TICK with P1 = 0 (BadTime) and CONNECT with DA = DB (SelfLink) on
created slots (R69, R70, R101, R102, R104, R140, R141, R162). -/
def Obligations.OperandRefusals : Prop :=
  ∀ (s : State) (da : SlotIx) (baud data stop start num : Word),
    (s.params.ndev ≤ slotIndex da ∨ devAt s (slotIndex da) ≠ none →
      exec (.createDevice da baud data stop start) s = .next { s with refused := some .badSlot }) ∧
    (slotIndex da < s.params.ndev → devAt s (slotIndex da) = none → baud = 0 ∨ data = 0 ∨ stop = 0 ∨ start = 0 →
      exec (.createDevice da baud data stop start) s = .next { s with refused := some .badConfig }) ∧
    (devAt s (slotIndex da) ≠ none → exec (.tick da num 0) s = .next { s with refused := some .badTime }) ∧
    (devAt s (slotIndex da) ≠ none → exec (.connect da da) s = .next { s with refused := some .selfLink })

/-- TICK subtracts P0 / P1 from the clock of its device, and changes nothing else (R69, R104, R105). -/
def Obligations.TickSubtractsFromTheClock : Prop :=
  ∀ (s : State) (da : SlotIx) (num den : Word) (D : Device), devAt s (slotIndex da) = some D → den ≠ 0 →
    ∃ t, exec (.tick da num den) s = .next t ∧ t.out = .response [] ∧ OnlySlots [slotIndex da] s t ∧
      devAt t (slotIndex da) = some { D with clock := D.clock - (num.toNat : Rat) / (den.toNat : Rat) }

/-- A device ticked by the same positive amount k times after its clock was loaded is ready exactly when k is at least
the ceiling of time_per_byte over the amount (R104, R106, R109). -/
def Obligations.ReadyAfterCeilingOfTicks : Prop :=
  ∀ (s : State) (da : SlotIx) (num den : Word) (D : Device) (k : Nat), devAt s (slotIndex da) = some D →
    D.clock = D.timePerByte → num ≠ 0 → den ≠ 0 → s.refused = none →
    s.pending = List.replicate k (portIssue (.tick da num den)) →
    ∃ t E, core.run k s = .next t ∧ devAt t (slotIndex da) = some E ∧
      (isReady E = true ↔ ⌈D.timePerByte / ((num.toNat : Rat) / (den.toNat : Rat))⌉ ≤ (k : Int))

/-- IS_READY answers whether the clock is at or below 0 and changes nothing (R106). -/
def Obligations.IsReadyTestsTheClock : Prop :=
  ∀ (s : State) (da : SlotIx) (D : Device), devAt s (slotIndex da) = some D →
    exec (.isReady da) s = .next { s with out := .flag (decide (D.clock ≤ 0)) }

/-- RESET_CLOCK sets the clock to time_per_byte, whatever it was, and changes nothing else (R108). -/
def Obligations.ResetClockLoadsTimePerByte : Prop :=
  ∀ (s : State) (da : SlotIx) (D : Device), devAt s (slotIndex da) = some D →
    ∃ t, exec (.resetClock da) s = .next t ∧ t.out = .done ∧ OnlySlots [slotIndex da] s t ∧
      devAt t (slotIndex da) = some { D with clock := D.timePerByte }

/-- UPDATE_STATE sets the state from which queues are occupied, leaves it where both are empty, returns it, and keeps it
as S0; nothing else changes (R110). -/
def Obligations.UpdateStateReadsQueueOccupancy : Prop :=
  ∀ (s : State) (da : SlotIx) (D : Device), devAt s (slotIndex da) = some D →
    ∃ t st, exec (.updateState da) s = .next t ∧ t.out = .newState st ∧ t.s0 = st ∧
      SameHost s t ∧ t.free = s.free ∧ SameSlotsBut [slotIndex da] s t ∧
      devAt t (slotIndex da) = some { D with state := st } ∧
      (D.tx.count ≠ 0 → D.rx.count ≠ 0 → st = .transmittingAndReceiving) ∧
      (D.tx.count = 0 → D.rx.count ≠ 0 → st = .receiving) ∧
      (D.tx.count ≠ 0 → D.rx.count = 0 → st = .transmitting) ∧
      (D.tx.count = 0 → D.rx.count = 0 → st = D.state)

/-! ### Queues (41_queue.md) -/

/-- Q_PUSH on a well-formed queue.  Not full: true, the slot at wpos takes the bit, wpos moves on mod N, the count goes
up, rpos and every other slot stay, and the bit joins the end of the sequence.  Full: false, and every field stays
(R88, R89). -/
def Obligations.QPushAppendsTheBitOrFails : Prop :=
  ∀ (s : State) (da : SlotIx) (qs : QSel) (v : Bit) (D : Device), devAt s (slotIndex da) = some D →
    queueWf (capacityOf s.params qs) (queueOf D qs) →
    ((queueOf D qs).count < capacityOf s.params qs →
      ∃ t q, exec (.qPush da qs v) s = .next t ∧ t.out = .flag true ∧ OnlySlots [slotIndex da] s t ∧
        devAt t (slotIndex da) = some (withQueue D q qs) ∧
        slotRead q (queueOf D qs).wpos = v ∧
        (∀ i, i ≠ (queueOf D qs).wpos → tableGet q.slots i = tableGet (queueOf D qs).slots i) ∧
        q.wpos = ((queueOf D qs).wpos + 1) % capacityOf s.params qs ∧
        q.rpos = (queueOf D qs).rpos ∧ q.count = (queueOf D qs).count + 1 ∧
        contents (capacityOf s.params qs) q = contents (capacityOf s.params qs) (queueOf D qs) ++ [v]) ∧
    ((queueOf D qs).count = capacityOf s.params qs →
      exec (.qPush da qs v) s = .next { s with out := .flag false })

/-- Q_POP on a well-formed queue with bits in it gives the head of the sequence; rpos moves on mod N, the count goes
down, wpos and the slots stay, and the rest of the sequence is left (R90). -/
def Obligations.QPopTakesTheHead : Prop :=
  ∀ (s : State) (da : SlotIx) (qs : QSel) (D : Device) (b : Bit) (rest : List Bit),
    devAt s (slotIndex da) = some D → queueWf (capacityOf s.params qs) (queueOf D qs) →
    contents (capacityOf s.params qs) (queueOf D qs) = b :: rest →
    ∃ t q, exec (.qPop da qs) s = .next t ∧ t.out = .bit (some b) ∧ OnlySlots [slotIndex da] s t ∧
      devAt t (slotIndex da) = some (withQueue D q qs) ∧
      q.rpos = ((queueOf D qs).rpos + 1) % capacityOf s.params qs ∧
      q.count + 1 = (queueOf D qs).count ∧ q.wpos = (queueOf D qs).wpos ∧ q.slots = (queueOf D qs).slots ∧
      contents (capacityOf s.params qs) q = rest

/-- Q_PEEK gives the head of a well-formed queue, or none, and changes nothing; Q_POP on an empty queue gives none and
changes nothing (R90, R92, R93). -/
def Obligations.QPeekAndEmptyPopChangeNothing : Prop :=
  ∀ (s : State) (da : SlotIx) (qs : QSel) (D : Device), devAt s (slotIndex da) = some D →
    queueWf (capacityOf s.params qs) (queueOf D qs) →
    exec (.qPeek da qs) s = .next { s with out := .bit (contents (capacityOf s.params qs) (queueOf D qs)).head? } ∧
    ((queueOf D qs).count = 0 → exec (.qPop da qs) s = .next { s with out := .bit none })

/-- Q_INIT and Q_RESET leave the selected queue empty with positions 0 and change nothing else; Q_RESET leaves the
slots as they were, and a second one changes nothing more (R39, R86, R94, R95). -/
def Obligations.QInitAndQResetEmptyTheQueue : Prop :=
  ∀ (s : State) (da : SlotIx) (qs : QSel) (D : Device), devAt s (slotIndex da) = some D →
    (∃ t q, exec (.qInit da qs) s = .next t ∧ t.out = .done ∧ OnlySlots [slotIndex da] s t ∧
      devAt t (slotIndex da) = some (withQueue D q qs) ∧ q.count = 0 ∧ q.rpos = 0 ∧ q.wpos = 0) ∧
    ∃ t, exec (.qReset da qs) s = .next t ∧ t.out = .done ∧ OnlySlots [slotIndex da] s t ∧
      devAt t (slotIndex da) =
        some (withQueue D { slots := (queueOf D qs).slots, rpos := 0, wpos := 0, count := 0 } qs) ∧
      ∃ u, exec (.qReset da qs) t = .next u ∧ ∀ e, devAt u e = devAt t e

/-- Q_IS_EMPTY and Q_IS_FULL answer `count = 0` and `count = N` and change nothing (R96, R97). -/
def Obligations.QueueTestsReadTheCount : Prop :=
  ∀ (s : State) (da : SlotIx) (qs : QSel) (D : Device), devAt s (slotIndex da) = some D →
    exec (.qIsEmpty da qs) s = .next { s with out := .flag (decide ((queueOf D qs).count = 0)) } ∧
    exec (.qIsFull da qs) s = .next { s with out := .flag (decide ((queueOf D qs).count = capacityOf s.params qs)) }

/-- Wraparound FIFO law: over any run of pushes and pops on a well-formed queue, what it held and what was pushed, in
order, is what was popped, in order, and what it holds (R85, R99). -/
def Obligations.CircularBufferIsFifo : Prop :=
  ∀ (N : Nat) (ops : List (Option Bit)) (q : Queue), queueWf N q →
    contents N q ++ (queueRun N ops q).1 =
      (queueRun N ops q).2.1 ++ contents N (queueRun N ops q).2.2 ∧
    queueWf N (queueRun N ops q).2.2

/-- Capacity law: on an empty well-formed queue N pushes succeed, the queue is then full and the next push fails and leaves
it as it is, and N pops then give the bits back and leave it empty, where the next pop fails (R98). -/
def Obligations.CapacityLaw : Prop :=
  ∀ (N : Nat) (q : Queue) (bits : List Bit), queueWf N q → q.count = 0 → bits.length = N →
    (queueRun N (bits.map some) q).1 = bits ∧
    qIsFull N (queueRun N (bits.map some) q).2.2 = true ∧
    (∀ v, qPush N (queueRun N (bits.map some) q).2.2 v = none ∧
      queueRun N (bits.map some ++ [some v]) q = queueRun N (bits.map some) q) ∧
    (queueRun N (bits.map some ++ List.replicate N none) q).2.1 = bits ∧
    qIsEmpty (queueRun N (bits.map some ++ List.replicate N none) q).2.2 = true ∧
    qPop N (queueRun N (bits.map some ++ List.replicate N none) q).2.2 = none

/-! ### Framing (43_framing.md) -/

/-- HANDLE_TRANSMIT of a device with a peer, when S0 lets it run and a whole frame is queued: the frame of R44 is pushed
onto the peer's receive queue as far as it has room, each lost push is counted, data_bits bits leave the transmit queue,
the state is Idle and the result SENT; no other device changes (R44, R115, R117, R119). -/
def Obligations.TransmitSendsOneFrame : Prop :=
  ∀ (s : State) (da : SlotIx) (D P : Device) (p : Nat), s.Inv → devAt s (slotIndex da) = some D → D.peer = some p →
    devAt s p = some P → s.s0 = .transmitting ∨ s.s0 = .transmittingAndReceiving → D.dataBits.toNat ≤ D.tx.count →
    ∃ t tx rx frame, frame = wireFrame ((contents s.params.nTx D.tx).take D.dataBits.toNat) D.stopBits.toNat ∧
      exec (.handleTransmit da) s = .next t ∧
      t.out = .transmit .sent false (frame.length - room s.params.nRx P.rx) ∧
      OnlySlots [slotIndex da, p] s t ∧
      devAt t (slotIndex da) = some { D with tx := tx, state := .idle } ∧
      devAt t p = some { P with rx := rx } ∧
      contents s.params.nTx tx = (contents s.params.nTx D.tx).drop D.dataBits.toNat ∧
      contents s.params.nRx rx = contents s.params.nRx P.rx ++ frame.take (room s.params.nRx P.rx)

/-- HANDLE_TRANSMIT of a device with a peer, when S0 lets it run and fewer than data_bits bits are queued: the start bit
and those bits are pushed, no stop bit is, the transmit queue is left empty, the state is Idle and the result UNDERRUN
(R118, R158). -/
def Obligations.TransmitUnderrunAbandonsTheFrame : Prop :=
  ∀ (s : State) (da : SlotIx) (D P : Device) (p : Nat), s.Inv → devAt s (slotIndex da) = some D → D.peer = some p →
    devAt s p = some P → s.s0 = .transmitting ∨ s.s0 = .transmittingAndReceiving → D.tx.count < D.dataBits.toNat →
    ∃ t tx rx bits, bits = Config.startV :: contents s.params.nTx D.tx ∧
      exec (.handleTransmit da) s = .next t ∧
      t.out = .transmit .underrun false (bits.length - room s.params.nRx P.rx) ∧
      OnlySlots [slotIndex da, p] s t ∧
      devAt t (slotIndex da) = some { D with tx := tx, state := .idle } ∧
      devAt t p = some { P with rx := rx } ∧
      contents s.params.nTx tx = [] ∧
      contents s.params.nRx rx = contents s.params.nRx P.rx ++ bits.take (room s.params.nRx P.rx)

/-- HANDLE_TRANSMIT of a device with no peer, when S0 lets it run: every push is lost, 1 + data_bits + stop_bits of them
or, on an underrun, one more than the bits queued; the data bits are consumed, NOPEER is set, the state is Idle, and no
other device changes (R119, R145). -/
def Obligations.TransmitWithNoPeerLosesTheFrame : Prop :=
  ∀ (s : State) (da : SlotIx) (D : Device), s.Inv → devAt s (slotIndex da) = some D → D.peer = none →
    s.s0 = .transmitting ∨ s.s0 = .transmittingAndReceiving →
    ∃ t tx txr lost, exec (.handleTransmit da) s = .next t ∧ t.out = .transmit txr true lost ∧
      OnlySlots [slotIndex da] s t ∧
      devAt t (slotIndex da) = some { D with tx := tx, state := .idle } ∧
      contents s.params.nTx tx = (contents s.params.nTx D.tx).drop D.dataBits.toNat ∧
      (D.dataBits.toNat ≤ D.tx.count → txr = .sent ∧ lost = 1 + D.dataBits.toNat + D.stopBits.toNat) ∧
      (D.tx.count < D.dataBits.toNat → txr = .underrun ∧ lost = 1 + D.tx.count)

/-- Where a phase does nothing: HANDLE_TRANSMIT on an S0 outside its states returns (NONE, 0, 0); HANDLE_RECEIVE returns
(NONE, 0) where its guard does not let it run, and (EMPTY, 0) where it runs on an empty receive queue; nothing else
changes (R115, R116, R120, R121, R126). -/
def Obligations.PhasesThatChangeNothing : Prop :=
  ∀ (s : State) (da : SlotIx) (D : Device), devAt s (slotIndex da) = some D →
    (s.s0 = .idle ∨ s.s0 = .receiving →
      exec (.handleTransmit da) s = .next { s with out := .transmit .none false 0 }) ∧
    (¬ ReceiveRuns s D →
      ∃ t, exec (.handleReceive da) s = .next t ∧ t.out = .receive .none 0 ∧ SameBlock s t ∧
        ∀ e, devAt t e = devAt s e) ∧
    (ReceiveRuns s D → D.rx.count = 0 →
      ∃ t, exec (.handleReceive da) s = .next t ∧ t.out = .receive .empty 0 ∧ SameBlock s t ∧
        ∀ e, devAt t e = devAt s e)

/-- HANDLE_RECEIVE, where it runs, on a receive queue whose sequence is a start bit, data_bits data bits, a stop bit and
a rest: BYTE, with the data bits as a number mod 2^ACC_W; the rest stays queued, the byte joins the store, the state is
Idle, nothing else changes (R120, R124, R125, R126). -/
def Obligations.ReceiveReadsOneByte : Prop :=
  ∀ (s : State) (da : SlotIx) (D : Device) (data rest : List Bit), s.Inv → devAt s (slotIndex da) = some D →
    ReceiveRuns s D → data.length = D.dataBits.toNat →
    contents s.params.nRx D.rx = Config.startV :: (data ++ Config.stopV :: rest) →
    ∃ t q x, x = bitsValue data % 2 ^ s.params.accW ∧ exec (.handleReceive da) s = .next t ∧
      t.out = .receive .byte x ∧ OnlySlots [slotIndex da] s t ∧ contents s.params.nRx q = rest ∧
      devAt t (slotIndex da) = some { D with rx := q, state := .idle, rxb := D.rxb ++ [x] }

/-- HANDLE_RECEIVE, where it runs, on a head that is not the start-bit value: ERR_START, the whole receive queue is
discarded, the state is Idle, nothing else changes (R122, R159). -/
def Obligations.ReceiveStartErrorDiscardsTheQueue : Prop :=
  ∀ (s : State) (da : SlotIx) (D : Device) (rest : List Bit), s.Inv → devAt s (slotIndex da) = some D →
    ReceiveRuns s D → contents s.params.nRx D.rx = Config.stopV :: rest →
    ∃ t, exec (.handleReceive da) s = .next t ∧ t.out = .receive .errStart 0 ∧ OnlySlots [slotIndex da] s t ∧
      devAt t (slotIndex da) = some { D with rx := qReset D.rx, state := .idle } ∧
      contents s.params.nRx (qReset D.rx) = []

/-- HANDLE_RECEIVE, where it runs, on a start bit with fewer than data_bits bits behind it: ERR_UNDERRUN, the receive
queue is discarded, no byte, the state is Idle, nothing else changes (R123, R158). -/
def Obligations.ReceiveUnderrunDiscardsTheQueue : Prop :=
  ∀ (s : State) (da : SlotIx) (D : Device) (data : List Bit), s.Inv → devAt s (slotIndex da) = some D →
    ReceiveRuns s D → data.length < D.dataBits.toNat →
    contents s.params.nRx D.rx = Config.startV :: data →
    ∃ t, exec (.handleReceive da) s = .next t ∧ t.out = .receive .errUnderrun 0 ∧ OnlySlots [slotIndex da] s t ∧
      devAt t (slotIndex da) = some { D with rx := qReset D.rx, state := .idle } ∧
      contents s.params.nRx (qReset D.rx) = []

/-- HANDLE_RECEIVE, where it runs, on a start bit and data_bits data bits with no stop-bit value next, be it another
value or nothing: ERR_STOP, the receive queue is discarded, no byte, the state is Idle, nothing else changes (R125). -/
def Obligations.ReceiveStopErrorDiscardsTheQueue : Prop :=
  ∀ (s : State) (da : SlotIx) (D : Device) (data rest : List Bit), s.Inv → devAt s (slotIndex da) = some D →
    ReceiveRuns s D → data.length = D.dataBits.toNat → rest.head? ≠ some Config.stopV →
    contents s.params.nRx D.rx = Config.startV :: (data ++ rest) →
    ∃ t, exec (.handleReceive da) s = .next t ∧ t.out = .receive .errStop 0 ∧ OnlySlots [slotIndex da] s t ∧
      devAt t (slotIndex da) = some { D with rx := qReset D.rx, state := .idle } ∧
      contents s.params.nRx (qReset D.rx) = []

/-- The accumulator keeps the last ACC_W data bits: with at most ACC_W of them, all, as a number; with more, the last
ACC_W (R124). -/
def Obligations.AccumulatorKeepsTheLastBits : Prop :=
  ∀ (w : Nat) (data : List Bit),
    (data.length ≤ w → data.foldl (accumulate w) 0 = bitsValue data) ∧
    (w < data.length → data.foldl (accumulate w) 0 = bitsValue (data.drop (data.length - w)))

/-- A receiver whose queue cannot hold a start bit, its data bits and a stop bit together never reads a byte (R186). -/
def Obligations.SmallReceiveQueueNeverReadsAByte : Prop :=
  ∀ (s t : State) (da : SlotIx) (D : Device) (r : RxResult) (x : Nat), s.Inv → devAt s (slotIndex da) = some D →
    s.params.nRx < D.dataBits.toNat + 2 → exec (.handleReceive da) s = .next t → t.out = .receive r x →
    r ≠ .byte ∧ ∃ E, devAt t (slotIndex da) = some E ∧ E.rxb = D.rxb

/-- A STEP that is not ready changes nothing, and responds READY = 0 with the state register in S0 and SEND; a ready one
always reloads the clock with time_per_byte (R72, R108, R127, R129). -/
def Obligations.StepChangesNothingUnlessReady : Prop :=
  ∀ (s : State) (da : SlotIx) (D : Device), devAt s (slotIndex da) = some D →
    (0 < D.clock →
      exec (.step da) s = .next { s with
        out := .response [(stateCode D.state <<< 3) ||| (stateCode D.state <<< 1), 0, 0] }) ∧
    (D.clock ≤ 0 →
      ∃ t E, exec (.step da) s = .next t ∧ devAt t (slotIndex da) = some E ∧ E.clock = D.timePerByte)

/-- A ready STEP is RESET_CLOCK, UPDATE_STATE, HANDLE_TRANSMIT and HANDLE_RECEIVE in that order, and responds with their
results (R72, R127, R130).  RSP2 is tx_lost wherever a word holds it (assumption log 2). -/
def Obligations.ReadyStepIsItsFourPhases : Prop :=
  ∀ (s : State) (da : SlotIx) (D : Device), s.Inv → devAt s (slotIndex da) = some D → D.clock ≤ 0 →
    ∃ t1 t2 t3 t4 E st txr nopeer lost rxr x w t,
      exec (.resetClock da) s = .next t1 ∧
      exec (.updateState da) t1 = .next t2 ∧ t2.out = .newState st ∧
      exec (.handleTransmit da) t2 = .next t3 ∧ t3.out = .transmit txr nopeer lost ∧
      exec (.handleReceive da) t3 = .next t4 ∧ t4.out = .receive rxr x ∧
      devAt t4 (slotIndex da) = some E ∧
      exec (.step da) s = .next t ∧
      t.out = .response
        [1 ||| (stateCode st <<< 1) ||| (stateCode E.state <<< 3) ||| (txCode txr <<< 5) ||| (rxCode rxr <<< 8) |||
          (boolCode nopeer <<< 11), BitVec.ofNat 32 x, w] ∧
      (lost < 2 ^ 32 → w.toNat = lost ∧ t.free = s.free) ∧
      t.dev = t4.dev ∧ t.s0 = t4.s0 ∧ SameHost s t

/-- A ready STEP of a device whose state register is Idle, as it is between commands: the clock is reloaded with
time_per_byte, S0 is the pair of bits (rx non-empty, tx non-empty) at its start, the state register ends Idle, RXR is never
EMPTY, and no device but its own and its peer's changes (R108, R111, R113, R128). -/
def Obligations.ReadyStepEndsIdleWithClockReloaded : Prop :=
  ∀ (s : State) (da : SlotIx) (D : Device), s.Inv → devAt s (slotIndex da) = some D → D.clock ≤ 0 → D.state = .idle →
    ∃ t E status rsp1 rsp2, exec (.step da) s = .next t ∧ t.out = .response [status, rsp1, rsp2] ∧
      statusReady status = true ∧
      (statusS0 status).toNat = 2 * (if D.rx.count = 0 then 0 else 1) + (if D.tx.count = 0 then 0 else 1) ∧
      statusSend status = 0 ∧ statusRxr status ≠ 1 ∧
      devAt t (slotIndex da) = some E ∧ E.clock = D.timePerByte ∧ E.state = .idle ∧
      SameSlotsBut (slotIndex da :: D.peer.toList) s t

/-- The STEP status word holds each field in its own bits, and bits 31..12 are 0 (R72, R73, R74). -/
def Obligations.StatusWordFields : Prop :=
  ∀ (ready nopeer : Bool) (s0 send : DeviceState) (txr : TxResult) (rxr : RxResult),
    statusReady (stepStatus ready s0 send txr rxr nopeer) = ready ∧
    (statusS0 (stepStatus ready s0 send txr rxr nopeer)).toNat = (stateCode s0).toNat ∧
    (statusSend (stepStatus ready s0 send txr rxr nopeer)).toNat = (stateCode send).toNat ∧
    (statusTxr (stepStatus ready s0 send txr rxr nopeer)).toNat = (txCode txr).toNat ∧
    (statusRxr (stepStatus ready s0 send txr rxr nopeer)).toNat = (rxCode rxr).toNat ∧
    statusNopeer (stepStatus ready s0 send txr rxr nopeer) = nopeer ∧
    (stepStatus ready s0 send txr rxr nopeer).toNat < 2 ^ 12

/-- ENQUEUE_TRANSMIT appends, in order, as many bits as the transmit queue has room for, drops the rest, returns how many
went in, and changes nothing else; of no bits it returns 0 and changes nothing (R134, R135). -/
def Obligations.EnqueueAppendsWhatFits : Prop :=
  ∀ (s : State) (da : SlotIx) (bits : List Bit) (D : Device), s.Inv → devAt s (slotIndex da) = some D →
    ∃ t q w, exec (.enqueueTransmit da bits) s = .next t ∧ t.out = .response [w] ∧
      w.toNat = min bits.length (s.params.nTx - D.tx.count) ∧ OnlySlots [slotIndex da] s t ∧
      devAt t (slotIndex da) = some { D with tx := q } ∧
      contents s.params.nTx q = contents s.params.nTx D.tx ++ bits.take (s.params.nTx - D.tx.count) ∧
      (bits = [] → q = D.tx ∧ w = 0)

/-- DRAIN_RECEIVED returns the received bytes in order, counted, empties the store, and changes nothing else; a second
one returns none (R137, R138).  RSP0 is the count wherever a word holds it (assumption log 2). -/
def Obligations.DrainReturnsTheBytesOnce : Prop :=
  ∀ (s : State) (da : SlotIx) (D : Device), s.Inv → devAt s (slotIndex da) = some D →
    ∃ t w ws, exec (.drainReceived da) s = .next t ∧ t.out = .response (w :: ws) ∧
      ws.map BitVec.toNat = D.rxb ∧ (D.rxb.length < 2 ^ 32 → w.toNat = D.rxb.length ∧ t.free = s.free) ∧
      SameHost s t ∧ t.s0 = s.s0 ∧ SameSlotsBut [slotIndex da] s t ∧
      devAt t (slotIndex da) = some { D with rxb := [] } ∧
      ∃ u, exec (.drainReceived da) t = .next u ∧ u.out = .response [0]

/-! ### Link (44_link.md) -/

/-- CONNECT of two distinct created slots makes each the other's peer and changes nothing else, no third device's peer
among it (R140, R142). -/
def Obligations.ConnectLinksBothSides : Prop :=
  ∀ (s : State) (da db : SlotIx) (A B : Device), devAt s (slotIndex da) = some A → devAt s (slotIndex db) = some B →
    da ≠ db →
    ∃ t, exec (.connect da db) s = .next t ∧ t.out = .response [] ∧ OnlySlots [slotIndex da, slotIndex db] s t ∧
      devAt t (slotIndex da) = some { A with peer := some (slotIndex db) } ∧
      devAt t (slotIndex db) = some { B with peer := some (slotIndex da) }

/-- CONNECT is symmetric and idempotent: on any slots and in any state the other order of the operands gives the same
state, and issuing it twice, in either order, gives the state of issuing it once (R143). -/
def Obligations.ConnectIsSymmetricAndIdempotent : Prop :=
  ∀ (s : State) (da db : SlotIx),
    ∃ t, exec (.connect da db) s = .next t ∧ exec (.connect db da) s = .next t ∧
      exec (.connect da db) t = .next t ∧ exec (.connect db da) t = .next t

/-- PEER_PUSH to a peer is a push onto its receive queue: with room, true, and the bit is at the end of that queue when
the operation completes; on a full queue, false, and nothing changes.  With no peer it is a no-op failure that signals it
(R53, R144, R145, R146). -/
def Obligations.PeerPushReachesThePeer : Prop :=
  ∀ (s : State) (da : SlotIx) (v : Bit) (D : Device), s.Inv → devAt s (slotIndex da) = some D →
    (∀ P p, D.peer = some p → devAt s p = some P → P.rx.count < s.params.nRx →
      ∃ t q, exec (.peerPush da v) s = .next t ∧ t.out = .pushed true false ∧
        OnlySlots [p] s t ∧ devAt t p = some { P with rx := q } ∧
        contents s.params.nRx q = contents s.params.nRx P.rx ++ [v]) ∧
    (∀ P p, D.peer = some p → devAt s p = some P → P.rx.count = s.params.nRx →
      exec (.peerPush da v) s = .next { s with out := .pushed false false }) ∧
    (D.peer = none → exec (.peerPush da v) s = .next { s with out := .pushed false true })

/-! ### Bit conversion (45_bitconv.md) -/

/-- BYTES_TO_BITS gives 8 bits a byte, output bit 8k + j being bit 7 - j of byte k, and changes nothing (R149, R154). -/
def Obligations.BytesToBitsIsMsbFirst : Prop :=
  ∀ (s : State) (xs : List Byte), ∃ bs, exec (.bytesToBits xs) s = .next { s with out := .bits bs } ∧
    bs.length = 8 * xs.length ∧ ∀ k j (hk : k < xs.length), j < 8 → bs[8 * k + j]? = some (xs[k].getLsbD (7 - j))

/-- BITS_TO_BYTE of 8 bits gives the sum over j of b[j] * 2^(7-j) and changes nothing; of any other length it is refused,
under the model's own reason name (R151, assumption log 8). -/
def Obligations.BitsToByteIsMsbFirst : Prop :=
  ∀ (s : State) (bs : List Bit),
    (bs.length = 8 → ∃ x, exec (.bitsToByte bs) s = .next { s with out := .byte x } ∧
      x.toNat = ((List.range 8).map fun j => (bs.getD j false).toNat * 2 ^ (7 - j)).sum) ∧
    (bs.length ≠ 8 → exec (.bitsToByte bs) s = .next { s with refused := some .badLength })

/-- The two conversions are inverse, on one byte and on sequences, and a bit sequence whose length is not a multiple of 8
has no bytes (R151, R152). -/
def Obligations.BitConversionsAreInverse : Prop :=
  (∀ xs : List Byte, bitsToBytes (bytesToBits xs) = some xs) ∧
  (∀ (bs : List Bit) (xs : List Byte), bitsToBytes bs = some xs → bytesToBits xs = bs) ∧
  (∀ bs : List Bit, bs.length % 8 ≠ 0 → bitsToBytes bs = none)

/-! ### Boot and the round trip -/

/-- From a built block, the boot order of R179 (create any devices on distinct slots below NDEV with positive
configurations, then connect any pairs of distinct ones among them, each list in any order) reaches `CleanStart` (R180).  A
pair that shares no slot with another pair is then connected both ways, and a device that no pair names has no peer. -/
def Obligations.BootReachesCleanStart : Prop :=
  ∀ (p : Params) (devs : List SlotConfig) (links : List (SlotIx × SlotIx)), paramsOk p = true →
    (devs.map SlotConfig.slot).Nodup →
    (∀ c ∈ devs, slotIndex c.slot < p.ndev ∧ configHasZero c.baud c.data c.stop c.start = false) →
    (∀ l ∈ links, linkWf devs l) →
    ∃ t, core.run (devs.length + links.length) { State.build p with pending := bootCommands devs links } = .next t ∧
      t.pending = [] ∧ CleanStart devs links t ∧
      (∀ l ∈ links, (∀ m ∈ links, m ≠ l → ¬ linkNames m l.1 ∧ ¬ linkNames m l.2) → Connected t l.1 l.2) ∧
      ∀ c ∈ devs, (∀ l ∈ links, ¬ linkNames l c.slot) → (devAt t (slotIndex c.slot)).bind Device.peer = none

/-- One byte over the link: in a linked pair with both devices ready, a step of A and then a step of B move exactly one
byte from A's transmit queue to B's store; A's step reports SENT with nothing lost and B's step reports the byte, and the
pair is linked as before with the bytes that are left (R115, R120, R153, the step of R139's induction). -/
def Obligations.OneByteCrossesTheLink : Prop :=
  ∀ (s : State) (a b : SlotIx) (A B : Device) (x : Byte) (bytes : List Byte),
    LinkedPair s a b A B (x :: bytes) → A.clock ≤ 0 →
    ∃ t u A' B', exec (.step a) s = .next t ∧ t.out = .response [0x023, 0, 0] ∧
      exec (.step b) t = .next u ∧ u.out = .response [0x205, x.zeroExtend 32, 0] ∧
      LinkedPair u a b A' B' bytes ∧ A'.clock = A.timePerByte ∧ A'.timePerByte = A.timePerByte ∧
      B'.rxb = B.rxb ++ [x.toNat]

/-- Frame round trip (R139), for both orders of stepping: from a linked pair, n driver iterations that tick both devices by
the same positive amount and step both, A before B with n at least len(S) * ceil(time_per_byte / amount), or B before A with
one more ready step of B, leave A's transmit queue and B's receive queue empty and the bytes of S, in order, at the end of B's
store.  No step of the run reports a frame failure, or any other event of R156; and where B's store was empty,
DRAIN_RECEIVED then returns S. -/
def Obligations.FrameRoundTripDeliversEveryByte : Prop :=
  ∀ (s : State) (a b : SlotIx) (A B : Device) (bytes : List Byte) (num den : Word) (n : Nat),
    LinkedPair s a b A B bytes → num ≠ 0 → den ≠ 0 →
    (s.pending = iterations a b num den n ∧
        (bytes.length : Int) * ⌈A.timePerByte / ((num.toNat : Rat) / (den.toNat : Rat))⌉ ≤ n) ∨
      (s.pending = iterations b a num den n ∧
        ((bytes.length : Int) + 1) * ⌈A.timePerByte / ((num.toNat : Rat) / (den.toNat : Rat))⌉ ≤ n) →
    ∃ t A' B', core.run (4 * n) s = .next t ∧ t.refused = none ∧
      devAt t (slotIndex a) = some A' ∧ A'.tx.count = 0 ∧
      devAt t (slotIndex b) = some B' ∧ B'.rx.count = 0 ∧ B'.rxb = B.rxb ++ bytes.map BitVec.toNat ∧
      (∀ k u status rsp1 rsp2, 0 < k → k ≤ 4 * n → core.run k s = .next u → u.out = .response [status, rsp1, rsp2] →
        statusFrameFailure status = false ∧ stepEvents status rsp2 = []) ∧
      (B.rxb = [] → ∃ u w, exec (.drainReceived b) t = .next u ∧ w.toNat = bytes.length ∧
        u.out = .response (w :: bytes.map fun x => x.zeroExtend 32))
end

