-- ==== Sys2Proof/Laws/Decode.lean ====
section
/-! SUPPORT. The laws of the command word's fields, of the bit packing of R68 and of the byte transport of R66. -/

namespace Sys2Proof

/-! ### Fields of a command word -/

@[simp] theorem opcOf_mkCw (opc : BitVec 8) (da low : SlotIx) : opcOf (mkCw opc da low) = opc.toNat := by
  rw [opcOf]
  congr 1
  apply BitVec.eq_of_getLsbD_eq
  intro i hi
  simp only [mkCw, BitVec.getLsbD_extractLsb', BitVec.getLsbD_append, hi, decide_true, Bool.true_and]
  rw [if_neg (by omega), if_neg (by omega)]
  congr 1; omega

@[simp] theorem daOf_mkCw (opc : BitVec 8) (da low : SlotIx) : daOf (mkCw opc da low) = da := by
  apply BitVec.eq_of_getLsbD_eq
  intro i hi
  simp only [daOf, mkCw, BitVec.getLsbD_extractLsb', BitVec.getLsbD_append, hi, decide_true, Bool.true_and]
  rw [if_neg (by omega), if_pos (by omega)]
  congr 1; omega

@[simp] theorem lowOf_mkCw (opc : BitVec 8) (da low : SlotIx) : lowOf (mkCw opc da low) = low := by
  apply BitVec.eq_of_getLsbD_eq
  intro i hi
  simp only [lowOf, mkCw, BitVec.getLsbD_extractLsb', BitVec.getLsbD_append, hi, decide_true, Bool.true_and]
  rw [if_pos (by omega)]
  congr 1; omega

/-- A command word is its three fields. -/
theorem mkCw_fields {cw : CmdWord} {opc : BitVec 8} (h : opcOf cw = opc.toNat) : mkCw opc (daOf cw) (lowOf cw) = cw := by
  have hopc : opc = cw.extractLsb' 8 8 := BitVec.eq_of_toNat_eq h.symm
  subst hopc
  apply BitVec.eq_of_getLsbD_eq
  intro i hi
  simp only [mkCw, daOf, lowOf, BitVec.getLsbD_extractLsb', BitVec.getLsbD_append]
  split
  · next h => simp [h]
  · split
    · next h1 h2 => rw [decide_eq_true h2, Bool.true_and]; congr 1; omega
    · next h1 h2 => rw [decide_eq_true (by omega), Bool.true_and]; congr 1; omega

/-- The fields of an encoded instruction's command word. -/
theorem opcOf_encode (i : Instr) : opcOf (encode i).cw = i.opc.toNat := opcOf_mkCw _ _ _

theorem daOf_encode (i : Instr) : daOf (encode i).cw = i.operands.1 := daOf_mkCw _ _ _

theorem lowOf_encode (i : Instr) : lowOf (encode i).cw = i.operands.2.1 := lowOf_mkCw _ _ _

/-! ### Bit packing -/

theorem bitsValue_lt_pow (bs : List Bit) : bitsValue bs < 2 ^ bs.length := by
  induction bs with
  | nil => simp [bitsValue]
  | cons b bs ih =>
    simp only [bitsValue, List.length_cons, Nat.pow_succ]
    have : b.toNat * 2 ^ bs.length ≤ 1 * 2 ^ bs.length :=
      Nat.mul_le_mul_right _ (by cases b <;> simp)
    omega

/-- Bit i of the number that a bit sequence writes is its element from the end (R42). -/
theorem bitsValue_testBit (bs : List Bit) (i : Nat) (h : i < bs.length) :
    (bitsValue bs).testBit i = bs.getD (bs.length - 1 - i) false := by
  induction bs with
  | nil => simp at h
  | cons b bs ih =>
    rw [bitsValue, Nat.mul_comm, Nat.testBit_two_pow_mul_add _ (bitsValue_lt_pow bs)]
    split
    · next hi =>
      rw [ih hi, List.length_cons, show bs.length + 1 - 1 - i = (bs.length - 1 - i) + 1 by omega, List.getD_cons_succ]
    · next hi =>
      have : i = bs.length := by simp only [List.length_cons] at h; omega
      subst this
      simp only [Nat.sub_self, List.length_cons, Nat.add_sub_cancel, List.getD_cons_zero]
      cases b <;> simp

/-- Bit 31 - j of a packed word is element j of the sequence, or 0 past its end (R68). -/
theorem packWord_getLsbD (bs : List Bit) (j : Nat) (h : j < 32) : (packWord bs).getLsbD (31 - j) = bs.getD j false := by
  have hlen : ((bs ++ List.replicate 32 false).take 32).length = 32 := by simp
  rw [packWord, BitVec.getLsbD_ofNat, decide_eq_true (by omega), Bool.true_and, bitsValue_testBit _ _ (by omega), hlen,
    show 32 - 1 - (31 - j) = j by omega, List.getD_eq_getElem?_getD, List.getElem?_take_of_lt h, List.getElem?_append]
  split
  · rw [List.getD_eq_getElem?_getD]
  · next hj =>
    rw [List.getElem?_replicate, List.getD_eq_getElem?_getD, List.getElem?_eq_none (by omega)]
    split <;> rfl

@[simp] theorem packBits_length (bits : List Bit) : (packBits bits).length = wordsFor bits.length := by simp [packBits]

/-- Bit i of packed bits is bit i of the sequence (R68). -/
theorem packedBit_packBits (bits : List Bit) (i : Nat) (h : i < bits.length) :
    packedBit (packBits bits) i = bits.getD i false := by
  have hk : i / 32 < wordsFor bits.length := by unfold wordsFor; omega
  rw [packedBit, packBits, List.getD_eq_getElem?_getD, List.getElem?_map, List.getElem?_range hk]
  simp only [Option.map_some, Option.getD_some]
  rw [packWord_getLsbD _ _ (Nat.mod_lt _ (by decide)), List.getD_eq_getElem?_getD, List.getD_eq_getElem?_getD,
    List.getElem?_drop, Nat.div_add_mod]

/-- Unpacking what was packed, with more words behind it, gives the sequence back (R68). -/
theorem unpackBits_packBits (bits : List Bit) (ws : List Word) :
    unpackBits bits.length (packBits bits ++ ws) = some bits := by
  rw [unpackBits, if_neg (by simp)]
  congr 1
  apply List.ext_getElem
  · simp
  · intro i h1 h2
    simp only [List.getElem_map, List.getElem_range]
    have hk : i / 32 < (packBits bits).length := by rw [packBits_length, wordsFor]; omega
    have : packedBit (packBits bits ++ ws) i = packedBit (packBits bits) i := by
      rw [packedBit, packedBit, List.getD_eq_getElem?_getD, List.getD_eq_getElem?_getD, List.getElem?_append_left hk]
    rw [this, packedBit_packBits bits i h2, List.getD_eq_getElem?_getD, List.getElem?_eq_getElem h2, Option.getD_some]

theorem unpackBits_length {n : Nat} {ws : List Word} {bits : List Bit} (h : unpackBits n ws = some bits) :
    bits.length = n := by
  unfold unpackBits at h
  split at h
  · cases h
  · cases h; simp

theorem ofNat_toNat_of_fits {n : Nat} (h : fitsWord n) : (BitVec.ofNat 32 n).toNat = n := by
  rw [BitVec.toNat_ofNat]; exact Nat.mod_eq_of_lt h

/-- The operand words of a counted bit sequence decode to it. -/
theorem bitsOperand_bitsPayload {bits : List Bit} (h : fitsWord bits.length) (k : List Bit → Instr) :
    bitsOperand (bitsPayload bits) k = .ok (k bits) := by
  have := unpackBits_packBits bits []
  rw [List.append_nil] at this
  simp only [bitsOperand, bitsPayload, ofNat_toNat_of_fits h, this]

theorem bitOperand_bitWord (v : Bit) (k : Bit → Instr) : bitOperand [bitWord v] k = .ok (k v) := by
  cases v <;> simp [bitOperand, bitWord]

/-- The operand words of BYTES_TO_BITS decode to its bytes. -/
theorem bytesOperand_payload {bytes : List Byte} (h : fitsWord bytes.length) (k : List Byte → Instr) :
    bytesOperand (BitVec.ofNat 32 bytes.length :: bytes.map fun b => b.zeroExtend 32) k = .ok (k bytes) := by
  simp only [bytesOperand, ofNat_toNat_of_fits h, List.length_map, Nat.lt_irrefl, if_false]
  congr 2
  rw [List.take_of_length_le (by simp), List.map_map]
  conv_rhs => rw [← List.map_id bytes]
  apply List.map_congr_left
  intro b _
  apply BitVec.eq_of_getLsbD_eq
  intro i hi
  have h32 : i < 32 := by omega
  simp [hi, h32]

/-! ### Formats -/

theorem formatH0_zero {cw : CmdWord} (h : lowOf cw = 0) (k : SlotIx → Except RefuseReason Instr) :
    formatH0 cw k = k (daOf cw) := by simp only [formatH0, if_pos h]

theorem formatQ_qsField {cw : CmdWord} {qs : QSel} (h : lowOf cw = qsField qs)
    (k : SlotIx → QSel → Except RefuseReason Instr) : formatQ cw k = k (daOf cw) qs := by
  cases qs <;> simp [formatQ, h, qsField]

theorem formatH0_ok {cw : CmdWord} {k : SlotIx → Except RefuseReason Instr} {i : Instr} (h : formatH0 cw k = .ok i) :
    lowOf cw = 0 ∧ k (daOf cw) = .ok i := by
  unfold formatH0 at h
  split at h
  · exact ⟨‹_›, h⟩
  · cases h

theorem formatQ_ok {cw : CmdWord} {k : SlotIx → QSel → Except RefuseReason Instr} {i : Instr} (h : formatQ cw k = .ok i) :
    ∃ qs, lowOf cw = qsField qs ∧ k (daOf cw) qs = .ok i := by
  unfold formatQ at h
  split at h
  · exact ⟨.tx, ‹_›, h⟩
  · split at h
    · exact ⟨.rx, ‹_›, h⟩
    · cases h

theorem formatF_ok {cw : CmdWord} {k : Except RefuseReason Instr} {i : Instr} (h : formatF cw k = .ok i) :
    daOf cw = 0 ∧ lowOf cw = 0 ∧ k = .ok i := by
  unfold formatF at h
  split at h
  · next hz => exact ⟨hz.1, hz.2, h⟩
  · cases h

theorem bitOperand_ok {ws : List Word} {k : Bit → Instr} {i : Instr} (h : bitOperand ws k = .ok i) : ∃ v, i = k v := by
  cases ws with
  | nil => cases h
  | cons p ws => cases h; exact ⟨_, rfl⟩

theorem bitsOperand_ok {ws : List Word} {k : List Bit → Instr} {i : Instr} (h : bitsOperand ws k = .ok i) :
    ∃ bits, i = k bits ∧ fitsWord bits.length := by
  cases ws with
  | nil => cases h
  | cons p ws =>
    simp only [bitsOperand] at h
    split at h
    · next bits hb => cases h; exact ⟨bits, rfl, by rw [unpackBits_length hb]; exact p.isLt⟩
    · cases h

theorem bytesOperand_ok {ws : List Word} {k : List Byte → Instr} {i : Instr} (h : bytesOperand ws k = .ok i) :
    ∃ bytes, i = k bytes ∧ fitsWord bytes.length := by
  cases ws with
  | nil => cases h
  | cons p ws =>
    simp only [bytesOperand] at h
    split at h
    · cases h
    · cases h
      refine ⟨_, rfl, ?_⟩
      have := p.isLt
      simp only [fitsWord, List.length_map, List.length_take]; omega

/-! ### The decoder, one OPC at a time (R75) -/

section decode
variable {c : Command}

theorem decode_createDevice (h : opcOf c.cw = 0x01) : decode c =
    formatH0 c.cw fun da =>
      match c.payload with
      | p0 :: p1 :: p2 :: p3 :: _ => .ok (.createDevice da p0 p1 p2 p3)
      | _ => .error .shortPayload := by
  rw [decode, h]; rfl

theorem decode_connect (h : opcOf c.cw = 0x02) : decode c =
    .ok (.connect (daOf c.cw) (lowOf c.cw)) := by
  rw [decode, h]; rfl

theorem decode_enqueueTransmit (h : opcOf c.cw = 0x03) : decode c =
    formatH0 c.cw fun da => bitsOperand c.payload (.enqueueTransmit da) := by
  rw [decode, h]; rfl

theorem decode_tick (h : opcOf c.cw = 0x04) : decode c =
    formatH0 c.cw fun da =>
      match c.payload with
      | p0 :: p1 :: _ => .ok (.tick da p0 p1)
      | _ => .error .shortPayload := by
  rw [decode, h]; rfl

theorem decode_step (h : opcOf c.cw = 0x05) : decode c =
    formatH0 c.cw fun da => .ok (.step da) := by
  rw [decode, h]; rfl

theorem decode_drainReceived (h : opcOf c.cw = 0x06) : decode c =
    formatH0 c.cw fun da => .ok (.drainReceived da) := by
  rw [decode, h]; rfl

theorem decode_isReady (h : opcOf c.cw = 0x40) : decode c =
    formatH0 c.cw fun da => .ok (.isReady da) := by
  rw [decode, h]; rfl

theorem decode_resetClock (h : opcOf c.cw = 0x41) : decode c =
    formatH0 c.cw fun da => .ok (.resetClock da) := by
  rw [decode, h]; rfl

theorem decode_updateState (h : opcOf c.cw = 0x42) : decode c =
    formatH0 c.cw fun da => .ok (.updateState da) := by
  rw [decode, h]; rfl

theorem decode_handleTransmit (h : opcOf c.cw = 0x43) : decode c =
    formatH0 c.cw fun da => .ok (.handleTransmit da) := by
  rw [decode, h]; rfl

theorem decode_handleReceive (h : opcOf c.cw = 0x44) : decode c =
    formatH0 c.cw fun da => .ok (.handleReceive da) := by
  rw [decode, h]; rfl

theorem decode_peerPush (h : opcOf c.cw = 0x45) : decode c =
    formatH0 c.cw fun da => bitOperand c.payload (.peerPush da) := by
  rw [decode, h]; rfl

theorem decode_qInit (h : opcOf c.cw = 0x80) : decode c =
    formatQ c.cw fun da qs => .ok (.qInit da qs) := by
  rw [decode, h]; rfl

theorem decode_qPush (h : opcOf c.cw = 0x81) : decode c =
    formatQ c.cw fun da qs => bitOperand c.payload (.qPush da qs) := by
  rw [decode, h]; rfl

theorem decode_qPop (h : opcOf c.cw = 0x82) : decode c =
    formatQ c.cw fun da qs => .ok (.qPop da qs) := by
  rw [decode, h]; rfl

theorem decode_qPeek (h : opcOf c.cw = 0x83) : decode c =
    formatQ c.cw fun da qs => .ok (.qPeek da qs) := by
  rw [decode, h]; rfl

theorem decode_qReset (h : opcOf c.cw = 0x84) : decode c =
    formatQ c.cw fun da qs => .ok (.qReset da qs) := by
  rw [decode, h]; rfl

theorem decode_qIsEmpty (h : opcOf c.cw = 0x85) : decode c =
    formatQ c.cw fun da qs => .ok (.qIsEmpty da qs) := by
  rw [decode, h]; rfl

theorem decode_qIsFull (h : opcOf c.cw = 0x86) : decode c =
    formatQ c.cw fun da qs => .ok (.qIsFull da qs) := by
  rw [decode, h]; rfl

theorem decode_bytesToBits (h : opcOf c.cw = 0xC0) : decode c =
    formatF c.cw (bytesOperand c.payload .bytesToBits) := by
  rw [decode, h]; rfl

theorem decode_bitsToByte (h : opcOf c.cw = 0xC1) : decode c =
    formatF c.cw (bitsOperand c.payload .bitsToByte) := by
  rw [decode, h]; rfl

/-- The OPC values of the opcode map (R75). -/
theorem decode_unknown (h : ∀ i : Instr, opcOf c.cw ≠ i.opc.toNat) : decode c = .error .illegalOpcode := by
  unfold decode
  split
  · next ho => exact absurd ho (h (.createDevice 0 0 0 0 0))
  · next ho => exact absurd ho (h (.connect 0 0))
  · next ho => exact absurd ho (h (.enqueueTransmit 0 []))
  · next ho => exact absurd ho (h (.tick 0 0 0))
  · next ho => exact absurd ho (h (.step 0))
  · next ho => exact absurd ho (h (.drainReceived 0))
  · next ho => exact absurd ho (h (.isReady 0))
  · next ho => exact absurd ho (h (.resetClock 0))
  · next ho => exact absurd ho (h (.updateState 0))
  · next ho => exact absurd ho (h (.handleTransmit 0))
  · next ho => exact absurd ho (h (.handleReceive 0))
  · next ho => exact absurd ho (h (.peerPush 0 false))
  · next ho => exact absurd ho (h (.qInit 0 .tx))
  · next ho => exact absurd ho (h (.qPush 0 .tx false))
  · next ho => exact absurd ho (h (.qPop 0 .tx))
  · next ho => exact absurd ho (h (.qPeek 0 .tx))
  · next ho => exact absurd ho (h (.qReset 0 .tx))
  · next ho => exact absurd ho (h (.qIsEmpty 0 .tx))
  · next ho => exact absurd ho (h (.qIsFull 0 .tx))
  · next ho => exact absurd ho (h (.bytesToBits []))
  · next ho => exact absurd ho (h (.bitsToByte []))
  · rfl

end decode

/-- An instruction with the OPC and the fields of a command word is encoded with that command word (R61). -/
theorem encode_cw_eq {i : Instr} {cw : CmdWord} (ho : opcOf cw = i.opc.toNat) (hd : daOf cw = i.operands.1)
    (hl : lowOf cw = i.operands.2.1) : (encode i).cw = cw := by
  rw [encode, ← hd, ← hl]; exact mkCw_fields ho

/-! ### The byte transport -/

/-- A word's four bytes, most significant first, make the word. -/
theorem word_of_bytes (w : Word) :
    w.extractLsb' 24 8 ++ w.extractLsb' 16 8 ++ w.extractLsb' 8 8 ++ w.extractLsb' 0 8 = w := by
  apply BitVec.eq_of_getLsbD_eq
  intro i hi
  simp only [BitVec.getLsbD_append, BitVec.getLsbD_extractLsb']
  repeat' split
  all_goals
    rw [decide_eq_true (by omega), Bool.true_and]
    congr 1; omega

theorem cw_of_bytes (cw : CmdWord) : cw.extractLsb' 8 8 ++ cw.extractLsb' 0 8 = cw := by
  apply BitVec.eq_of_getLsbD_eq
  intro i hi
  simp only [BitVec.getLsbD_append, BitVec.getLsbD_extractLsb']
  repeat' split
  all_goals
    rw [decide_eq_true (by omega), Bool.true_and]
    congr 1; omega

/-- Words read back from their bytes. -/
theorem takeWords_wordBytes (ws : List Word) (rest : List Byte) :
    takeWords ws.length (ws.flatMap wordBytes ++ rest) = (ws, rest) := by
  induction ws with
  | nil => rfl
  | cons w ws ih =>
    simp only [List.flatMap_cons, wordBytes, List.length_cons, List.cons_append, List.nil_append, takeWords, ih,
      word_of_bytes]

end Sys2Proof
end

