-- ==== Sys2Proof/Laws/Bitconv.lean ====
section
/-! SUPPORT. The bits of one byte (`45_bitconv.md` R149, R151). -/

namespace Sys2Proof.Machine

@[simp] theorem byteBits_length (x : Byte) : (byteBits x).length = 8 := rfl

/-- The bits of a byte write the byte. -/
theorem byteBits_value (x : Byte) : bitsValue (byteBits x) = x.toNat := by revert x; decide

/-- The byte that eight bits write has those bits. -/
theorem byteBits_ofBits (a b c d e f g h : Bit) :
    byteBits (BitVec.ofNat 8 (bitsValue [a, b, c, d, e, f, g, h])) = [a, b, c, d, e, f, g, h] := by
  revert a b c d e f g h; decide

theorem bytesToBits_cons (x : Byte) (xs : List Byte) : bytesToBits (x :: xs) = byteBits x ++ bytesToBits xs := by
  simp only [bytesToBits, List.flatMap_cons]

theorem bytesToBits_length (xs : List Byte) : (bytesToBits xs).length = 8 * xs.length := by
  induction xs with
  | nil => rfl
  | cons x xs ih => rw [bytesToBits_cons, List.length_append, ih, byteBits_length, List.length_cons]; omega

end Sys2Proof.Machine
end

