-- ==== Sys2Proof/Laws/Boot.lean ====
section
/-! SUPPORT. Which peer a list of links leaves a slot with (`linkedTo`, for `CleanStart`, `70_reset_and_hazards.md`
R180): the last link that names the slot decides. -/

namespace Sys2Proof.Machine

variable {links : List (SlotIx × SlotIx)} {l : SlotIx × SlotIx} {d : SlotIx}

theorem slotIndex_ne {a b : SlotIx} (h : a ≠ b) : slotIndex a ≠ slotIndex b := fun e => h (BitVec.eq_of_toNat_eq e)

/-- One more link at the end writes the two slots it names, as CONNECT does, and no other (R140, R142). -/
theorem linkedTo_append (links : List (SlotIx × SlotIx)) (l : SlotIx × SlotIx) (d : Nat) :
    linkedTo (links ++ [l]) d =
      if slotIndex l.1 = d then some (slotIndex l.2)
      else if slotIndex l.2 = d then some (slotIndex l.1)
      else linkedTo links d := by
  induction links with
  | nil => simp [linkedTo]
  | cons m links ih =>
    simp only [List.cons_append, linkedTo, ih]
    by_cases h1 : slotIndex l.1 = d
    · simp [h1]
    · by_cases h2 : slotIndex l.2 = d <;> simp [h1, h2]

/-- A slot that no link names has no peer. -/
theorem linkedTo_unnamed (h : ∀ l ∈ links, ¬ linkNames l d) : linkedTo links (slotIndex d) = none := by
  induction links with
  | nil => rfl
  | cons l links ih =>
    have hl := not_or.1 (h l (List.mem_cons_self ..))
    simp [linkedTo, ih fun m hm => h m (List.mem_cons_of_mem _ hm), slotIndex_ne hl.1, slotIndex_ne hl.2]

/-- A link that shares no slot with another one makes each of its slots the other's peer. -/
theorem linkedTo_apart (hl : l ∈ links) (hne : l.1 ≠ l.2)
    (h : ∀ m ∈ links, m ≠ l → ¬ linkNames m l.1 ∧ ¬ linkNames m l.2) :
    linkedTo links (slotIndex l.1) = some (slotIndex l.2) ∧ linkedTo links (slotIndex l.2) = some (slotIndex l.1) := by
  induction links with
  | nil => cases hl
  | cons m links ih =>
    by_cases hin : l ∈ links
    · obtain ⟨i1, i2⟩ := ih hin fun k hk => h k (List.mem_cons_of_mem _ hk)
      simp [linkedTo, i1, i2]
    · obtain rfl : l = m := (List.mem_cons.1 hl).resolve_right hin
      have later : ∀ k ∈ links, ¬ linkNames k l.1 ∧ ¬ linkNames k l.2 := fun k hk =>
        h k (List.mem_cons_of_mem _ hk) fun e => hin (e ▸ hk)
      simp [linkedTo, linkedTo_unnamed fun k hk => (later k hk).1, linkedTo_unnamed fun k hk => (later k hk).2,
        slotIndex_ne hne]

end Sys2Proof.Machine
end

