-- ==== Sys2Proof/Laws/Table.lean ====
section
/-! SUPPORT. The laws of the sparse tables: read after write, and the canonical form. -/

namespace Sys2Proof.Machine

variable {α : Type}

@[simp] theorem tableGet_nil (i : Nat) : tableGet ([] : List (Nat × α)) i = none := rfl

/-- A read after a write at the same index gives the value written. -/
@[simp] theorem tableGet_put_same (t : List (Nat × α)) (i : Nat) (v : α) : tableGet (tablePut t i v) i = some v := by
  induction t with
  | nil => simp [tablePut, tableGet]
  | cons e t ih =>
    obtain ⟨k, w⟩ := e
    unfold tablePut
    split
    · simp [tableGet]
    · split
      · simp [tableGet]
      · rw [tableGet, if_neg (by omega)]; exact ih

/-- A write leaves every other index alone. -/
theorem tableGet_put_ne (t : List (Nat × α)) (i j : Nat) (v : α) (h : j ≠ i) :
    tableGet (tablePut t i v) j = tableGet t j := by
  induction t with
  | nil => simp [tablePut, tableGet, Ne.symm h]
  | cons e t ih =>
    obtain ⟨k, w⟩ := e
    unfold tablePut
    split
    · simp [tableGet, Ne.symm h]
    · split
      · next hk => subst hk; simp [tableGet, Ne.symm h]
      · simp only [tableGet]; rw [ih]

/-- The entries of a table after a write. -/
theorem mem_tablePut {t : List (Nat × α)} {i : Nat} {v : α} {e : Nat × α} (h : e ∈ tablePut t i v) :
    e = (i, v) ∨ e ∈ t := by
  induction t with
  | nil => simpa [tablePut] using h
  | cons x t ih =>
    obtain ⟨k, w⟩ := x
    unfold tablePut at h
    split at h
    · simpa using h
    · split at h
      · rcases List.mem_cons.1 h with h | h
        · exact .inl h
        · exact .inr (List.mem_cons_of_mem _ h)
      · rcases List.mem_cons.1 h with h | h
        · exact .inr (h ▸ List.mem_cons_self)
        · exact (ih h).imp id (List.mem_cons_of_mem _)

/-- A write keeps the canonical form. -/
theorem tableWf_put {t : List (Nat × α)} (h : tableWf t) (i : Nat) (v : α) : tableWf (tablePut t i v) := by
  induction t with
  | nil => simp [tablePut, tableWf]
  | cons x t ih =>
    obtain ⟨k, w⟩ := x
    simp only [tableWf, List.map_cons, List.pairwise_cons] at h
    unfold tablePut
    split
    · next hk =>
      simp only [tableWf, List.map_cons, List.pairwise_cons]
      refine ⟨?_, h⟩
      intro b hb
      rcases List.mem_cons.1 hb with rfl | hb
      · exact hk
      · exact hk.trans (h.1 b hb)
    · split
      · next hk => subst hk; simpa only [tableWf, List.map_cons, List.pairwise_cons] using h
      · next h1 h2 =>
        simp only [tableWf, List.map_cons, List.pairwise_cons]
        refine ⟨?_, ih h.2⟩
        intro b hb
        obtain ⟨e, he, rfl⟩ := List.mem_map.1 hb
        rcases mem_tablePut he with rfl | he
        · show k < i; omega
        · exact h.1 _ (List.mem_map_of_mem he)

/-- A listed value is an entry. -/
theorem mem_of_tableGet {t : List (Nat × α)} {i : Nat} {v : α} (h : tableGet t i = some v) : (i, v) ∈ t := by
  induction t with
  | nil => simp at h
  | cons x t ih =>
    obtain ⟨k, w⟩ := x
    rw [tableGet] at h
    split at h
    · next hk => subst hk; cases h; exact List.mem_cons_self
    · exact List.mem_cons_of_mem _ (ih h)

/-- An entry of a canonical table is the listed value. -/
theorem tableGet_of_mem {t : List (Nat × α)} (hw : tableWf t) {i : Nat} {v : α} (h : (i, v) ∈ t) :
    tableGet t i = some v := by
  induction t with
  | nil => simp at h
  | cons x t ih =>
    obtain ⟨k, w⟩ := x
    simp only [tableWf, List.map_cons, List.pairwise_cons] at hw
    rw [tableGet]
    rcases List.mem_cons.1 h with h | h
    · cases h; simp
    · have : k < i := hw.1 i (List.mem_map_of_mem h)
      rw [if_neg (by omega)]; exact ih hw.2 h

/-- Writing the value a canonical table lists changes nothing. -/
theorem tablePut_same {t : List (Nat × α)} (hw : tableWf t) {i : Nat} {v : α} (h : tableGet t i = some v) :
    tablePut t i v = t := by
  induction t with
  | nil => simp at h
  | cons x t ih =>
    obtain ⟨k, w⟩ := x
    simp only [tableWf, List.map_cons, List.pairwise_cons] at hw
    rw [tableGet] at h
    unfold tablePut
    split at h
    · next hk => subst hk; cases h; simp
    · next hk =>
      have : k < i := hw.1 i (List.mem_map_of_mem (mem_of_tableGet h))
      rw [if_neg (by omega), if_neg (by omega), ih hw.2 h]

/-- A second write at an index replaces the first. -/
theorem tablePut_put (t : List (Nat × α)) (i : Nat) (v w : α) : tablePut (tablePut t i v) i w = tablePut t i w := by
  induction t with
  | nil => simp [tablePut]
  | cons x t ih =>
    obtain ⟨k, u⟩ := x
    simp only [tablePut]
    split
    · simp [tablePut]
    · split
      · simp [tablePut]
      · next h1 h2 => simp only [tablePut, if_neg h1, if_neg h2, ih]

/-- Writes at two indices commute. -/
theorem tablePut_comm (t : List (Nat × α)) {i j : Nat} (h : i ≠ j) (v w : α) :
    tablePut (tablePut t i v) j w = tablePut (tablePut t j w) i v := by
  induction t with
  | nil =>
    simp only [tablePut]
    rcases Nat.lt_or_gt_of_ne h with h1 | h1
    · rw [if_neg (by omega), if_neg (by omega), if_pos h1]
    · rw [if_pos h1, if_neg (by omega), if_neg (by omega)]
  | cons x t ih =>
    obtain ⟨k, u⟩ := x
    simp only [tablePut]
    split_ifs <;> simp only [tablePut] <;> split_ifs <;> first | rfl | omega | rw [ih]

end Sys2Proof.Machine
end

