-- ==== Sys2Proof/Laws/State.lean ====
section
/-! SUPPORT. What each update of a state leaves in each field. -/

namespace Sys2Proof.Machine

section putDev
variable (s : State) (d : Nat) (D : Device)
@[simp] theorem putDev_params : (putDev s d D).params = s.params := rfl
@[simp] theorem putDev_dev : (putDev s d D).dev = tablePut s.dev d D := rfl
@[simp] theorem putDev_refused : (putDev s d D).refused = s.refused := rfl
@[simp] theorem putDev_s0 : (putDev s d D).s0 = s.s0 := rfl
@[simp] theorem putDev_out : (putDev s d D).out = s.out := rfl
@[simp] theorem putDev_free : (putDev s d D).free = s.free := rfl
@[simp] theorem putDev_pending : (putDev s d D).pending = s.pending := rfl
end putDev

section useCount
variable (s : State) (n : Nat)
@[simp] theorem useCount_params : (useCount s n).params = s.params := by unfold useCount; split <;> rfl
@[simp] theorem useCount_dev : (useCount s n).dev = s.dev := by unfold useCount; split <;> rfl
@[simp] theorem useCount_refused : (useCount s n).refused = s.refused := by unfold useCount; split <;> rfl
@[simp] theorem useCount_s0 : (useCount s n).s0 = s.s0 := by unfold useCount; split <;> rfl
@[simp] theorem useCount_pending : (useCount s n).pending = s.pending := by unfold useCount; split <;> rfl
theorem useCount_of_lt (h : n < 2 ^ 32) : useCount s n = s := by simp only [useCount, if_pos h]
theorem countWord_of_lt (h : n < 2 ^ 32) : countWord s n = BitVec.ofNat 32 n := by simp only [countWord, if_pos h]
theorem countWord_toNat (h : n < 2 ^ 32) : (countWord s n).toNat = n := by
  rw [countWord_of_lt s n h, BitVec.toNat_ofNat]; exact Nat.mod_eq_of_lt h
end useCount

section updateStateOf
variable (s : State) (d : Nat) (D : Device)
@[simp] theorem updateStateOf_params : (updateStateOf s d D).params = s.params := rfl
@[simp] theorem updateStateOf_dev :
    (updateStateOf s d D).dev = tablePut s.dev d { D with state := computedState D } := rfl
@[simp] theorem updateStateOf_refused : (updateStateOf s d D).refused = s.refused := rfl
@[simp] theorem updateStateOf_s0 : (updateStateOf s d D).s0 = computedState D := rfl
@[simp] theorem updateStateOf_out : (updateStateOf s d D).out = s.out := rfl
@[simp] theorem updateStateOf_free : (updateStateOf s d D).free = s.free := rfl
@[simp] theorem updateStateOf_pending : (updateStateOf s d D).pending = s.pending := rfl
end updateStateOf

/-- A state is read through `devAt` by its parameters and its table alone. -/
theorem devAt_congr {s t : State} (hp : t.params = s.params) (hd : t.dev = s.dev) (d : Nat) : devAt t d = devAt s d := by
  simp only [devAt, hp, hd]

@[simp] theorem devAt_out (s : State) (o : Output) (d : Nat) : devAt { s with out := o } d = devAt s d := rfl
@[simp] theorem devAt_pending (s : State) (p : List Issue) (d : Nat) : devAt { s with pending := p } d = devAt s d := rfl
@[simp] theorem devAt_refused (s : State) (r : Option RefuseReason) (d : Nat) :
    devAt { s with refused := r } d = devAt s d := rfl
@[simp] theorem devAt_s0 (s : State) (x : DeviceState) (d : Nat) : devAt { s with s0 := x } d = devAt s d := rfl
@[simp] theorem devAt_useCount (s : State) (n d : Nat) : devAt (useCount s n) d = devAt s d :=
  devAt_congr (useCount_params s n) (useCount_dev s n) d

/-- A device slot read after it is written, inside NDEV. -/
theorem devAt_putDev_same {s : State} {d : Nat} (h : d < s.params.ndev) (D : Device) :
    devAt (putDev s d D) d = some D := by
  simp [devAt, h]

/-- Writing a device slot leaves the others alone. -/
theorem devAt_putDev_ne (s : State) {d e : Nat} (h : e ≠ d) (D : Device) : devAt (putDev s d D) e = devAt s e := by
  simp [devAt, tableGet_put_ne _ _ _ _ h]

theorem devAt_lt {s : State} {d : Nat} {D : Device} (h : devAt s d = some D) : d < s.params.ndev := by
  unfold devAt at h; split at h
  · assumption
  · cases h

theorem tableGet_of_devAt {s : State} {d : Nat} {D : Device} (h : devAt s d = some D) : tableGet s.dev d = some D := by
  unfold devAt at h; split at h
  · assumption
  · cases h

theorem devAt_of_tableGet {s : State} {d : Nat} {D : Device} (hd : d < s.params.ndev) (h : tableGet s.dev d = some D) :
    devAt s d = some D := by
  rw [devAt, if_pos hd, h]

/-- UPDATE_STATE on a slot, read back. -/
theorem devAt_updateStateOf_same {s : State} {d : Nat} (h : d < s.params.ndev) (D : Device) :
    devAt (updateStateOf s d D) d = some { D with state := computedState D } := by
  simp [devAt, h]

theorem devAt_updateStateOf_ne (s : State) {d e : Nat} (h : e ≠ d) (D : Device) :
    devAt (updateStateOf s d D) e = devAt s e := by
  simp [devAt, tableGet_put_ne _ _ _ _ h]

/-- What `onDevice` answers where DA names a device. -/
theorem onDevice_some {s : State} {da : SlotIx} {D : Device} (h : devAt s (slotIndex da) = some D)
    (k : Device → Host.Outcome State Fault Refusal) : onDevice s da k = k D := by
  simp only [onDevice, deviceOperand, h]

/-- What `onDevice` answers where DA names no device: a BadSlot refusal (R20, R64). -/
theorem onDevice_none {s : State} {da : SlotIx} (h : devAt s (slotIndex da) = none)
    (k : Device → Host.Outcome State Fault Refusal) : onDevice s da k = refuse s .badSlot := by
  simp only [onDevice, deviceOperand, h]

end Sys2Proof.Machine
end

