-- ==== Sys2Proof/Laws/Queue.lean ====
section
/-! SUPPORT. The laws of the queue primitives, stated on the sequence a queue holds (`41_queue.md`): one lemma for each
primitive says what it answers and that it keeps a queue well formed. -/

namespace Sys2Proof.Machine

variable {N : Nat} {q q' : Queue} {v b : Bit}

/-- Two places of an occupied window, or its end, are different slots. -/
theorem window_ne {N r k c : Nat} (hk : k < c) (hc : c < N) : (r + k) % N ≠ (r + c) % N := by
  intro h
  have : k % N = c % N := Nat.ModEq.add_left_cancel' r h
  rw [Nat.mod_eq_of_lt (by omega), Nat.mod_eq_of_lt hc] at this
  omega

theorem contents_length (N : Nat) (q : Queue) : (contents N q).length = q.count := by simp [contents]

theorem contents_eq_nil : contents N q = [] ↔ q.count = 0 := by
  rw [← List.length_eq_zero_iff, contents_length]

/-- Element k of the sequence is the bit of slot (rpos + k) mod N (R85). -/
theorem contents_getElem (N : Nat) (q : Queue) {k : Nat} (h : k < (contents N q).length) :
    (contents N q)[k] = slotRead q ((q.rpos + k) % N) := by simp [contents]

/-- A constructed queue is well formed. -/
theorem qInit_wf (h : 0 < N) : queueWf N qInit := by
  simp [queueWf, tableWf, qInit, h]

@[simp] theorem contents_qInit (N : Nat) : contents N qInit = [] := rfl

/-- A push fails exactly on a full queue (R88). -/
theorem qPush_eq_none : qPush N q v = none ↔ q.count = N := by
  unfold qPush; split <;> simp_all

/-- What a successful push gives (R88). -/
theorem qPush_eq_some (h : qPush N q v = some q') :
    q.count ≠ N ∧ q' = { slots := tablePut q.slots q.wpos v, rpos := q.rpos, wpos := nextPos N q.wpos, count := q.count + 1 } := by
  unfold qPush at h; split at h
  · cases h
  · cases h; exact ⟨‹_›, rfl⟩

theorem slotRead_put_same (q : Queue) (i : Nat) (v : Bit) (r w c : Nat) :
    slotRead { slots := tablePut q.slots i v, rpos := r, wpos := w, count := c } i = v := by simp [slotRead]

theorem slotRead_put_ne (q : Queue) {i j : Nat} (h : j ≠ i) (v : Bit) (r w c : Nat) :
    slotRead { slots := tablePut q.slots i v, rpos := r, wpos := w, count := c } j = slotRead q j := by
  simp [slotRead, tableGet_put_ne _ _ _ _ h]

/-- A successful push into a well-formed queue: the bit joins the end, and the queue stays well formed (R88). -/
theorem qPush_spec (hw : queueWf N q) (h : qPush N q v = some q') :
    queueWf N q' ∧ contents N q' = contents N q ++ [v] := by
  obtain ⟨hne, rfl⟩ := qPush_eq_some h
  obtain ⟨hs, hin, hc, hr, hwp, hocc⟩ := hw
  have hlt : q.count < N := by omega
  have hN : 0 < N := by omega
  have hread : ∀ k < q.count, (q.rpos + k) % N ≠ q.wpos := by
    intro k hk; rw [hwp]; exact window_ne hk hlt
  constructor
  · refine ⟨tableWf_put hs _ _, ?_, hlt, hr, ?_, ?_⟩
    · intro e he
      rcases mem_tablePut he with rfl | he
      · show q.wpos < N; rw [hwp]; exact Nat.mod_lt _ hN
      · exact hin e he
    · show nextPos N q.wpos = _
      rw [nextPos, hwp, Nat.mod_add_mod, Nat.add_assoc]
    · intro k hk
      show (tableGet (tablePut q.slots q.wpos v) ((q.rpos + k) % N)).isSome
      rcases Nat.lt_succ_iff_lt_or_eq.1 hk with hk | rfl
      · rw [tableGet_put_ne _ _ _ _ (hread k hk)]; exact hocc k hk
      · rw [← hwp]; simp
  · simp only [contents, List.range_succ, List.map_append, List.map_cons, List.map_nil]
    congr 1
    · apply List.map_congr_left
      intro k hk
      exact slotRead_put_ne q (hread k (List.mem_range.1 hk)) v _ _ _
    · rw [← hwp, slotRead_put_same]

/-- A push into a well-formed queue that is not full succeeds (R88). -/
theorem qPush_isSome (h : (contents N q).length < N) : ∃ q', qPush N q v = some q' := by
  rw [contents_length] at h
  cases hq : qPush N q v with
  | none => exact absurd (qPush_eq_none.1 hq) (by omega)
  | some q' => exact ⟨q', rfl⟩

/-- A pop fails exactly on an empty queue (R90). -/
theorem qPop_eq_none : qPop N q = none ↔ q.count = 0 := by
  unfold qPop; split <;> simp_all

theorem qPop_of_nil (h : contents N q = []) : qPop N q = none := qPop_eq_none.2 (contents_eq_nil.1 h)

/-- A pop of a queue whose sequence is b followed by rest: it gives b, rest stays, and the queue stays well formed
(R90). -/
theorem qPop_spec (hw : queueWf N q) {rest : List Bit} (h : contents N q = b :: rest) :
    qPop N q = some (b, { q with rpos := nextPos N q.rpos, count := q.count - 1 }) ∧
      queueWf N { q with rpos := nextPos N q.rpos, count := q.count - 1 } ∧
      contents N { q with rpos := nextPos N q.rpos, count := q.count - 1 } = rest := by
  obtain ⟨hs, hin, hc, hr, hwp, hocc⟩ := hw
  have hlen : q.count = rest.length + 1 := by rw [← contents_length N q, h]; rfl
  have hN : 0 < N := by omega
  have hhead : slotRead q q.rpos = b := by
    have := contents_getElem N q (k := 0) (by rw [h]; simp)
    simp only [h, List.getElem_cons_zero, Nat.add_zero, Nat.mod_eq_of_lt hr] at this
    exact this.symm
  have hshift : ∀ k, (nextPos N q.rpos + k) % N = (q.rpos + (k + 1)) % N := by
    intro k; rw [nextPos, Nat.mod_add_mod]; congr 1; omega
  refine ⟨?_, ⟨hs, hin, ?_, Nat.mod_lt _ hN, ?_, ?_⟩, ?_⟩
  · rw [qPop, if_neg (by omega), hhead]
  · show q.count - 1 ≤ N; omega
  · show q.wpos = (nextPos N q.rpos + (q.count - 1)) % N
    rw [hshift, hwp]; congr 2; omega
  · intro k hk
    have hk' : k < q.count - 1 := hk
    show (tableGet q.slots ((nextPos N q.rpos + k) % N)).isSome
    rw [hshift]; exact hocc _ (by omega)
  · have key : contents N { q with rpos := nextPos N q.rpos, count := q.count - 1 } = (contents N q).tail := by
      apply List.ext_getElem
      · simp [contents_length]
      · intro k h1 h2
        rw [List.getElem_tail, contents_getElem, contents_getElem]
        show slotRead q ((nextPos N q.rpos + k) % N) = _
        rw [hshift]
    rw [key, h]; rfl

/-- The same, with the queue after the pop under a name. -/
theorem qPop_cons (hw : queueWf N q) {rest : List Bit} (h : contents N q = b :: rest) :
    ∃ q', qPop N q = some (b, q') ∧ queueWf N q' ∧ contents N q' = rest :=
  ⟨_, qPop_spec hw h⟩

/-- A peek gives the head of the sequence (R92). -/
theorem qPeek_eq_head (hw : queueWf N q) : qPeek q = (contents N q).head? := by
  obtain ⟨-, -, -, hr, -, -⟩ := hw
  unfold qPeek
  split
  · next h => rw [contents_eq_nil.2 h]; rfl
  · next h =>
    have hl : 0 < (contents N q).length := by rw [contents_length]; omega
    rw [List.head?_eq_getElem?, List.getElem?_eq_getElem hl, contents_getElem, Nat.add_zero, Nat.mod_eq_of_lt hr]

/-- Dropping the head of a queue. -/
theorem qDrop_spec (hw : queueWf N q) {rest : List Bit} (h : contents N q = b :: rest) :
    queueWf N (qDrop N q) ∧ contents N (qDrop N q) = rest := by
  obtain ⟨h1, h2⟩ := qPop_spec hw h
  simp only [qDrop, h1]; exact h2

theorem qReset_wf (hw : queueWf N q) : queueWf N (qReset q) := by
  obtain ⟨hs, hin, -, hr, -, -⟩ := hw
  refine ⟨hs, hin, Nat.zero_le _, ?_, ?_, ?_⟩
  · show 0 < N; omega
  · simp [qReset]
  · intro k hk; exact absurd hk (Nat.not_lt_zero k)

@[simp] theorem contents_qReset (N : Nat) (q : Queue) : contents N (qReset q) = [] := rfl

/-- Pop keeps a queue well formed. -/
theorem qPop_wf (hw : queueWf N q) (h : qPop N q = some (b, q')) : queueWf N q' := by
  cases hc : contents N q with
  | nil => rw [qPop_of_nil hc] at h; cases h
  | cons x rest =>
    obtain ⟨h1, h2, -⟩ := qPop_spec hw hc
    rw [h1] at h; cases h; exact h2

/-- The emptiness test reads the sequence (R96). -/
theorem qIsEmpty_eq (N : Nat) (q : Queue) : qIsEmpty q = (contents N q).isEmpty := by
  rw [Bool.eq_iff_iff, qIsEmpty, decide_eq_true_iff, List.isEmpty_iff, contents_eq_nil]

/-- Pushing a sequence of bits: as many as there is room for join the end, in order (R134, R135). -/
theorem qPushAll_spec (hw : queueWf N q) (bits : List Bit) :
    queueWf N (qPushAll N q bits).1 ∧
      contents N (qPushAll N q bits).1 = contents N q ++ bits.take (room N q) ∧
      (qPushAll N q bits).2 = min bits.length (room N q) := by
  induction bits generalizing q with
  | nil => simpa [qPushAll] using hw
  | cons x xs ih =>
    have hc := hw.2.2.1
    cases hp : qPush N q x with
    | none =>
      have hfull : room N q = 0 := by have := qPush_eq_none.1 hp; unfold room; omega
      obtain ⟨h1, h2, h3⟩ := ih hw
      simp only [qPushAll, hp]
      rw [hfull] at h2 h3 ⊢
      exact ⟨h1, by simpa using h2, by simpa using h3⟩
    | some q1 =>
      obtain ⟨hw1, hc1⟩ := qPush_spec hw hp
      obtain ⟨h1, h2, h3⟩ := ih hw1
      obtain ⟨hne, hq1⟩ := qPush_eq_some hp
      have hroom : room N q = room N q1 + 1 := by simp only [room, hq1]; omega
      simp only [qPushAll, hp]
      refine ⟨h1, ?_, ?_⟩
      · rw [h2, hc1, hroom, List.take_succ_cons, List.append_assoc]; rfl
      · rw [h3, hroom]; simp only [List.length_cons]; omega

end Sys2Proof.Machine
end

