-- ==== Sys2Proof/Laws/Device.lean ====
section
/-! SUPPORT. The invariant of the block read through device slots, and what keeps it. -/

namespace Sys2Proof.Machine

variable {s t : State} {d p : Nat} {D D' P : Device}

theorem nRx_pos (h : paramsOk s.params = true) : 0 < s.params.nRx := by
  simp only [paramsOk, capacitiesOk, capacityOk, Bool.and_eq_true, decide_eq_true_eq] at h; omega

theorem nTx_pos (h : paramsOk s.params = true) : 0 < s.params.nTx := by
  simp only [paramsOk, capacitiesOk, capacityOk, Bool.and_eq_true, decide_eq_true_eq] at h; omega

theorem accW_le (h : paramsOk s.params = true) : 8 ≤ s.params.accW ∧ s.params.accW ≤ 32 := by
  simp only [paramsOk, otherParamsOk, Bool.and_eq_true, decide_eq_true_eq] at h; omega

/-- The device that a slot holds is an entry of the table. -/
theorem mem_of_devAt (h : devAt s d = some D) : (d, D) ∈ s.dev := mem_of_tableGet (tableGet_of_devAt h)

/-- An entry of a canonical table is the device its slot holds. -/
theorem devAt_of_mem (hc : s.Canon) (h : (d, D) ∈ s.dev) : devAt s d = some D :=
  devAt_of_tableGet (hc.2 _ h) (tableGet_of_mem hc.1 h)

/-- The invariant, read through device slots. -/
theorem inv_iff : s.Inv ↔ paramsOk s.params = true ∧ s.Canon ∧ ∀ d D, devAt s d = some D → deviceWf s d D := by
  refine and_congr_right fun _ => and_congr_right fun hc => ?_
  exact ⟨fun h d D hd => h (d, D) (mem_of_devAt hd), fun h e he => h e.1 e.2 (devAt_of_mem hc he)⟩

theorem inv_deviceWf (h : s.Inv) (hd : devAt s d = some D) : deviceWf s d D := (inv_iff.1 h).2.2 d D hd

/-- Writing a slot inside NDEV keeps the table canonical. -/
theorem canon_putDev (hc : s.Canon) (hd : d < s.params.ndev) (D : Device) : (putDev s d D).Canon := by
  refine ⟨tableWf_put hc.1 _ _, fun e he => ?_⟩
  rcases mem_tablePut he with rfl | he
  · exact hd
  · exact hc.2 e he

/-- A created device is well formed (R38, R101). -/
theorem newDevice_wf (hp : paramsOk s.params = true) (d : Nat) {baud data stop start : Word}
    (h : configHasZero baud data stop start = false) : Machine.deviceWf s d (newDevice baud data stop start) := by
  simp only [configHasZero, decide_eq_false_iff_not, not_or] at h
  refine ⟨⟨h.1, h.2.1, h.2.2.1, h.2.2.2, rfl, rfl⟩, ?_, qInit_wf (nTx_pos hp), qInit_wf (nRx_pos hp), ?_⟩
  · intro p hp; cases hp
  · intro x hx; cases hx

/-- What the well-formedness of a device depends on in the state: the parameters and which slots exist. -/
theorem deviceWf_congr (hp : t.params = s.params) (he : ∀ e, (devAt s e).isSome → (devAt t e).isSome)
    (h : Machine.deviceWf s d D) : Machine.deviceWf t d D := by
  obtain ⟨hcfg, hpeer, htx, hrx, hrxb⟩ := h
  exact ⟨hcfg, fun p hp => ⟨(hpeer p hp).1, he p (hpeer p hp).2⟩, by rwa [hp], by rwa [hp], by rwa [hp]⟩

/-- The invariant after slots of a list have been rewritten: the table stays canonical, the other slots stay, and the
rewritten ones hold well-formed devices. -/
theorem inv_of_slots {ds : List Nat} (h : s.Inv) (hp : t.params = s.params) (hc : t.Canon)
    (hsame : SameSlotsBut ds s t) (hds : ∀ e ∈ ds, ∀ E, devAt t e = some E → Machine.deviceWf s e E)
    (hex : ∀ e ∈ ds, (devAt s e).isSome → (devAt t e).isSome) : t.Inv := by
  have hex' : ∀ e, (devAt s e).isSome → (devAt t e).isSome := by
    intro e he
    by_cases hm : e ∈ ds
    · exact hex e hm he
    · rwa [hsame e hm]
  refine inv_iff.2 ⟨hp ▸ h.1, hc, fun e E he => deviceWf_congr hp hex' ?_⟩
  by_cases hm : e ∈ ds
  · exact hds e hm E he
  · rw [hsame e hm] at he; exact inv_deviceWf h he

/-- The invariant speaks of the parameters and the device table only. -/
theorem inv_congr (hp : t.params = s.params) (hd : t.dev = s.dev) (h : s.Inv) : t.Inv := by
  obtain ⟨h1, h2, h3⟩ := inv_iff.1 h
  refine inv_iff.2 ⟨hp ▸ h1, by simpa only [State.Canon, hp, hd] using h2, fun d D hD => ?_⟩
  rw [devAt_congr hp hd] at hD
  exact deviceWf_congr hp (fun e he => by rwa [devAt_congr hp hd]) (h3 d D hD)

/-- Writing a well-formed device into a slot keeps the invariant. -/
theorem inv_putDev (h : s.Inv) (hd : d < s.params.ndev) (hD : Machine.deviceWf s d D) : (putDev s d D).Inv := by
  refine inv_of_slots (ds := [d]) h rfl (canon_putDev h.2.1 hd D) ?_ ?_ ?_
  · intro e he; exact devAt_putDev_ne s (by simpa using he) D
  · intro e he E hE
    rw [List.mem_singleton.1 he, devAt_putDev_same hd] at hE
    cases hE; rw [List.mem_singleton.1 he]; exact hD
  · intro e he _; rw [List.mem_singleton.1 he, devAt_putDev_same hd]; rfl

end Sys2Proof.Machine
end

