-- ==== Sys2Proof/Laws/Link.lean ====
section
/-! SUPPORT. What a peer push and a run of peer pushes do (`44_link.md` R144, `43_framing.md` R119). -/

namespace Sys2Proof.Machine

variable {s t : State} {d p : Nat} {D P : Device} {v : Bit}

/-- Nothing changed but the listed device slots; the table stays canonical where it was. -/
structure Touched (ds : List Nat) (s t : State) : Prop where
  same : SameBlock s t
  out : t.out = s.out
  slots : SameSlotsBut ds s t
  canon : s.Canon → t.Canon

theorem Touched.refl (ds : List Nat) (s : State) : Touched ds s s :=
  ⟨⟨⟨rfl, rfl, rfl⟩, rfl, rfl⟩, rfl, fun _ _ => rfl, id⟩

theorem Touched.params {ds : List Nat} (h : Touched ds s t) : t.params = s.params := h.same.1.1

theorem Touched.trans {ds : List Nat} {u : State} (h1 : Touched ds s t) (h2 : Touched ds t u) : Touched ds s u := by
  obtain ⟨⟨⟨a1, a2, a3⟩, a4, a5⟩, a6, a7, a8⟩ := h1
  obtain ⟨⟨⟨b1, b2, b3⟩, b4, b5⟩, b6, b7, b8⟩ := h2
  exact ⟨⟨⟨b1.trans a1, b2.trans a2, b3.trans a3⟩, b4.trans a4, b5.trans a5⟩, b6.trans a6,
    fun e he => (b7 e he).trans (a7 e he), b8 ∘ a8⟩

theorem Touched.mono {ds es : List Nat} (h : Touched ds s t) (hsub : ds ⊆ es) : Touched es s t :=
  ⟨h.same, h.out, fun e he => h.slots e fun hd => he (hsub hd), h.canon⟩

theorem touched_putDev (hd : d < s.params.ndev) (D : Device) : Touched [d] s (putDev s d D) :=
  ⟨⟨⟨rfl, rfl, rfl⟩, rfl, rfl⟩, rfl, fun _ he => devAt_putDev_ne s (by simpa using he) D, fun hc => canon_putDev hc hd D⟩

/-- A push by a device with no peer fails (R145). -/
theorem peerPush_no_peer (hd : devAt s d = some D) (hp : D.peer = none) (v : Bit) : peerPush s d v = none := by
  simp only [peerPush, hd, Option.bind_some, hp]

/-- A push by a device whose peer slot holds `P` is a push onto `P`'s receive queue (R144). -/
theorem peerPush_peer (hd : devAt s d = some D) (hp : D.peer = some p) (hP : devAt s p = some P) (v : Bit) :
    peerPush s d v = (qPush s.params.nRx P.rx v).map fun q => putDev s p { P with rx := q } := by
  simp only [peerPush, hd, Option.bind_some, hp, hP]
  cases qPush s.params.nRx P.rx v <;> rfl

/-- A run of pushes of a frame. -/
theorem framePush_no_peer (hd : devAt s d = some D) (hp : D.peer = none) (v : Bit) (l : Nat) :
    framePush d v (s, l) = (s, l + 1) := by
  simp only [framePush, peerPush_no_peer hd hp]

/-- One push of a frame to a peer: the bit joins the peer's receive queue where there is room, and is lost
otherwise. -/
theorem framePush_peer (hd : devAt s d = some D) (hp : D.peer = some p) (hne : p ≠ d) (hP : devAt s p = some P)
    (v : Bit) (l : Nat) :
    ∃ t, framePush d v (s, l) = (t, l + (1 - (qPushAll s.params.nRx P.rx [v]).2)) ∧ Touched [p] s t ∧
      devAt t d = some D ∧ devAt t p = some { P with rx := (qPushAll s.params.nRx P.rx [v]).1 } := by
  have hlt := devAt_lt hP
  simp only [framePush, peerPush_peer hd hp hP, qPushAll]
  cases hq : qPush s.params.nRx P.rx v with
  | none => exact ⟨s, rfl, Touched.refl _ _, hd, hP⟩
  | some q =>
    exact ⟨putDev s p { P with rx := q }, rfl, touched_putDev hlt _,
      by rw [devAt_putDev_ne s (Ne.symm hne)]; exact hd, devAt_putDev_same hlt _⟩

theorem qPushAll_append (N : Nat) (q : Queue) (xs ys : List Bit) :
    qPushAll N q (xs ++ ys) =
      ((qPushAll N (qPushAll N q xs).1 ys).1, (qPushAll N q xs).2 + (qPushAll N (qPushAll N q xs).1 ys).2) := by
  induction xs generalizing q with
  | nil => simp [qPushAll]
  | cons x xs ih =>
    simp only [List.cons_append, qPushAll]
    split
    · next q' _ => rw [ih q']; simp only [Prod.mk.injEq, true_and]; omega
    · exact ih q

theorem qPushAll_le (N : Nat) (q : Queue) (xs : List Bit) : (qPushAll N q xs).2 ≤ xs.length := by
  induction xs generalizing q with
  | nil => simp [qPushAll]
  | cons x xs ih =>
    simp only [qPushAll]
    split
    · next q' _ => have := ih q'; simp only [List.length_cons]; omega
    · have := ih q; simp only [List.length_cons]; omega

end Sys2Proof.Machine
end

