-- ==== Sys2Proof/Laws/Framing.lean ====
section
/-! SUPPORT. What the phases of a step do, stated on the sequences the queues hold (`43_framing.md`). -/

namespace Sys2Proof.Machine

variable {s t : State} {d p : Nat} {D P : Device}

/-! ### The transmit framer: a device with a peer -/

/-- What a part of a frame does, for a sender `d` that holds `D` with peer slot `p` that holds `P`: the sender's
transmit queue becomes `tx`, the bits `sent` are pushed onto the peer's receive queue, and each that finds it full is
counted lost. -/
structure Sends (s : State) (d : Nat) (D : Device) (p : Nat) (P : Device) (l : Nat) (tx : Queue) (sent : List Bit)
    (t : State) (l' : Nat) : Prop where
  touched : Touched [d, p] s t
  sender : devAt t d = some { D with tx := tx }
  receiver : devAt t p = some { P with rx := (qPushAll s.params.nRx P.rx sent).1 }
  lost : l' = l + (sent.length - (qPushAll s.params.nRx P.rx sent).2)

theorem Sends.nil (hd : devAt s d = some D) (hP : devAt s p = some P) (l : Nat) :
    Sends s d D p P l D.tx [] s l :=
  ⟨Touched.refl _ _, hd, hP, by simp [qPushAll]⟩

theorem Sends.trans {u : State} {l l1 l2 : Nat} {tx1 tx2 : Queue} {xs ys : List Bit}
    (h1 : Sends s d D p P l tx1 xs t l1)
    (h2 : Sends t d { D with tx := tx1 } p { P with rx := (qPushAll s.params.nRx P.rx xs).1 } l1 tx2 ys u l2) :
    Sends s d D p P l tx2 (xs ++ ys) u l2 := by
  have hn : t.params.nRx = s.params.nRx := by rw [h1.touched.params]
  refine ⟨h1.touched.trans h2.touched, h2.sender, ?_, ?_⟩
  · rw [h2.receiver, hn, qPushAll_append]
  · have a := qPushAll_le s.params.nRx P.rx xs
    have b := qPushAll_le s.params.nRx (qPushAll s.params.nRx P.rx xs).1 ys
    rw [h2.lost, h1.lost, hn, qPushAll_append]
    simp only [List.length_append]; omega

/-- One push of a frame. -/
theorem framePush_sends (hd : devAt s d = some D) (hp : D.peer = some p) (hne : p ≠ d) (hP : devAt s p = some P)
    (v : Bit) (l : Nat) : Sends s d D p P l D.tx [v] (framePush d v (s, l)).1 (framePush d v (s, l)).2 := by
  obtain ⟨t, h1, h2, h3, h4⟩ := framePush_peer hd hp hne hP v l
  rw [h1]
  exact ⟨h2.mono (by simp), h3, h4, by simp⟩

/-- The stop bits. -/
theorem frameStop_sends (n : Nat) (hd : devAt s d = some D) (hp : D.peer = some p) (hne : p ≠ d)
    (hP : devAt s p = some P) (l : Nat) :
    Sends s d D p P l D.tx (List.replicate n Config.stopV) (frameStop d n (s, l)).1 (frameStop d n (s, l)).2 := by
  induction n generalizing s P l with
  | zero => exact Sends.nil hd hP l
  | succ n ih =>
    have h1 := framePush_sends hd hp hne hP Config.stopV l
    have h2 := ih h1.sender h1.receiver (framePush d Config.stopV (s, l)).2
    exact List.replicate_succ ▸ h1.trans h2

/-- Popping a bit of the sender's transmit queue. -/
theorem popTx_sends (hd : devAt s d = some D) (hne : p ≠ d) (hP : devAt s p = some P)
    (hw : queueWf s.params.nTx D.tx) {b : Bit} {rest : List Bit} (hc : contents s.params.nTx D.tx = b :: rest) (l : Nat) :
    ∃ t q, popTx s d = some (b, t) ∧ queueWf s.params.nTx q ∧ contents s.params.nTx q = rest ∧
      Sends s d D p P l q [] t l := by
  obtain ⟨q, h1, h2, h3⟩ := qPop_cons hw hc
  have hlt := devAt_lt hd
  refine ⟨putDev s d { D with tx := q }, q, ?_, h2, h3, (touched_putDev hlt _).mono (by simp), ?_, ?_, ?_⟩
  · simp only [popTx, hd, h1]
  · exact devAt_putDev_same hlt _
  · rw [devAt_putDev_ne s hne]; simpa [qPushAll] using hP
  · simp [qPushAll]

/-- The data bits: as many as there are, up to `n`, are popped and pushed; fewer than `n` is an underrun (R118). -/
theorem frameData_sends (n : Nat) (hd : devAt s d = some D) (hp : D.peer = some p) (hne : p ≠ d)
    (hP : devAt s p = some P) (hw : queueWf s.params.nTx D.tx) (l : Nat) :
    ∃ q, queueWf s.params.nTx q ∧ contents s.params.nTx q = (contents s.params.nTx D.tx).drop n ∧
      (frameData d n (s, l)).1 = decide (n ≤ (contents s.params.nTx D.tx).length) ∧
      Sends s d D p P l q ((contents s.params.nTx D.tx).take n) (frameData d n (s, l)).2.1 (frameData d n (s, l)).2.2 := by
  induction n generalizing s D P l with
  | zero => exact ⟨D.tx, hw, by simp, by simp [frameData], by simpa [frameData] using Sends.nil hd hP l⟩
  | succ n ih =>
    cases hc : contents s.params.nTx D.tx with
    | nil =>
      have hpop : popTx s d = none := by simp only [popTx, hd, qPop_of_nil hc]
      simp only [frameData, hpop]
      exact ⟨D.tx, hw, by simp [hc], by simp, by simpa using Sends.nil hd hP l⟩
    | cons b rest =>
      obtain ⟨t, q, h1, h2, h3, h4⟩ := popTx_sends hd hne hP hw hc l
      have hpar := h4.touched.params
      have h5 := framePush_sends h4.sender hp hne h4.receiver b l
      have hw5 : queueWf (framePush d b (t, l)).1.params.nTx q := by
        rw [h5.touched.params, hpar]; exact h2
      obtain ⟨q', g1, g2, g3, g4⟩ := ih h5.sender hp h5.receiver hw5 (framePush d b (t, l)).2
      rw [h5.touched.params, hpar] at g1 g2 g3 g4
      simp only [frameData, h1]
      refine ⟨q', g1, ?_, ?_, ?_⟩
      · rw [g2, List.drop_succ_cons, h3]
      · simp only [g3, h3, List.length_cons, Nat.add_le_add_iff_right]
      · have := (h4.trans h5).trans g4
        simpa [h3] using this

/-! ### The transmit framer: a device with no peer -/

/-- What a part of a frame does for a sender with no peer: the transmit queue moves on and every push is lost. -/
structure Loses (s : State) (d : Nat) (D : Device) (l : Nat) (tx : Queue) (n : Nat) (t : State) (l' : Nat) : Prop where
  touched : Touched [d] s t
  sender : devAt t d = some { D with tx := tx }
  lost : l' = l + n

theorem frameStop_loses (n : Nat) (hd : devAt s d = some D) (hp : D.peer = none) (l : Nat) :
    frameStop d n (s, l) = (s, l + n) := by
  induction n generalizing l with
  | zero => rfl
  | succ n ih => simp only [frameStop, framePush_no_peer hd hp, ih]; congr 1; omega

theorem frameData_loses (n : Nat) (hd : devAt s d = some D) (hp : D.peer = none)
    (hw : queueWf s.params.nTx D.tx) (l : Nat) :
    ∃ q, queueWf s.params.nTx q ∧ contents s.params.nTx q = (contents s.params.nTx D.tx).drop n ∧
      (frameData d n (s, l)).1 = decide (n ≤ (contents s.params.nTx D.tx).length) ∧
      Loses s d D l q ((contents s.params.nTx D.tx).take n).length (frameData d n (s, l)).2.1 (frameData d n (s, l)).2.2 := by
  induction n generalizing s D l with
  | zero => exact ⟨D.tx, hw, by simp, by simp [frameData], Touched.refl _ _, by simpa [frameData] using hd, by simp [frameData]⟩
  | succ n ih =>
    cases hc : contents s.params.nTx D.tx with
    | nil =>
      have hpop : popTx s d = none := by simp only [popTx, hd, qPop_of_nil hc]
      simp only [frameData, hpop]
      exact ⟨D.tx, hw, by simp [hc], by simp, Touched.refl _ _, hd, by simp⟩
    | cons b rest =>
      obtain ⟨q, h1, h2, h3⟩ := qPop_cons hw hc
      have hlt := devAt_lt hd
      have hpop : popTx s d = some (b, putDev s d { D with tx := q }) := by simp only [popTx, hd, h1]
      have hd' := devAt_putDev_same hlt { D with tx := q }
      obtain ⟨q', g1, g2, g3, g4⟩ := ih hd' hp h2 (l + 1)
      simp only [putDev_params, h3] at g1 g2 g3 g4
      simp only [frameData, hpop, framePush_no_peer hd' hp]
      refine ⟨q', g1, ?_, ?_, (touched_putDev hlt _).trans g4.touched, g4.sender, ?_⟩
      · rw [g2, List.drop_succ_cons]
      · simp only [g3, List.length_cons, Nat.add_le_add_iff_right]
      · rw [g4.lost, List.take_succ_cons, List.length_cons]; omega

/-! ### The whole transmit phase -/

theorem setIdle_touched (hd : devAt s d = some D) :
    Touched [d] s (setIdle s d) ∧ devAt (setIdle s d) d = some { D with state := .idle } ∧
      ∀ e, e ≠ d → devAt (setIdle s d) e = devAt s e := by
  have hlt := devAt_lt hd
  simp only [setIdle, hd]
  exact ⟨touched_putDev hlt _, devAt_putDev_same hlt _, fun e he => devAt_putDev_ne s he _⟩

/-- The bits a transmit phase pushes, in order: the whole frame, or, on an underrun, the start bit and the data bits
there were (R115, R118). -/
def phaseBits (D : Device) (queued : List Bit) : List Bit :=
  if D.dataBits.toNat ≤ queued.length then wireFrame (queued.take D.dataBits.toNat) D.stopBits.toNat
  else Config.startV :: queued

/-- The transmit result of a phase that runs. -/
def phaseTxr (D : Device) (queued : List Bit) : TxResult :=
  if D.dataBits.toNat ≤ queued.length then .sent else .underrun

/-- The transmit phase of a device with a peer (R115 to R119). -/
theorem handleTransmit_peer (hd : devAt s d = some D) (hp : D.peer = some p) (hne : p ≠ d)
    (hP : devAt s p = some P) (hw : queueWf s.params.nTx D.tx) {s0 : DeviceState} (hs0 : transmits s0 = true) :
    ∃ q, queueWf s.params.nTx q ∧
      contents s.params.nTx q = (contents s.params.nTx D.tx).drop D.dataBits.toNat ∧
      (handleTransmit s d D s0).txr = phaseTxr D (contents s.params.nTx D.tx) ∧
      (handleTransmit s d D s0).nopeer = false ∧
      (handleTransmit s d D s0).lost = (phaseBits D (contents s.params.nTx D.tx)).length -
        (qPushAll s.params.nRx P.rx (phaseBits D (contents s.params.nTx D.tx))).2 ∧
      Touched [d, p] s (handleTransmit s d D s0).state ∧
      devAt (handleTransmit s d D s0).state d = some { D with tx := q, state := .idle } ∧
      devAt (handleTransmit s d D s0).state p =
        some { P with rx := (qPushAll s.params.nRx P.rx (phaseBits D (contents s.params.nTx D.tx))).1 } := by
  have h1 := framePush_sends hd hp hne hP Config.startV 0
  generalize hA : framePush d Config.startV (s, 0) = A at h1
  obtain ⟨s1, l1⟩ := A
  have hpar1 : s1.params = s.params := h1.touched.params
  have hd1 : devAt s1 d = some D := h1.sender
  obtain ⟨q, g1, g2, g3, g4⟩ := frameData_sends D.dataBits.toNat hd1 hp hne h1.receiver (hpar1 ▸ hw) l1
  rw [hpar1] at g1 g2 g3 g4
  have h2 := h1.trans g4
  generalize hF : frameData d D.dataBits.toNat (s1, l1) = F at g3 h2
  obtain ⟨flag, u, l⟩ := F
  have hparu : u.params = s.params := h2.touched.params
  have hpeer : D.peer.isNone = false := by rw [hp]; rfl
  by_cases hlen : D.dataBits.toNat ≤ (contents s.params.nTx D.tx).length
  · have hflag : flag = true := by simpa [hlen] using g3
    subst hflag
    have h3 := frameStop_sends D.stopBits.toNat h2.sender hp hne h2.receiver l
    have h4 := h2.trans h3
    obtain ⟨i1, i2, i3⟩ := setIdle_touched h4.sender
    have hbits : phaseBits D (contents s.params.nTx D.tx) =
        [Config.startV] ++ (contents s.params.nTx D.tx).take D.dataBits.toNat ++ List.replicate D.stopBits.toNat Config.stopV := by
      simp [phaseBits, hlen, wireFrame]
    refine ⟨q, g1, g2, ?_⟩
    simp only [handleTransmit, hs0, if_true, hA, hF, phaseTxr, hlen, hbits, hpeer, true_and]
    refine ⟨?_, h4.touched.trans (i1.mono (by simp)), i2, ?_⟩
    · have := h4.lost; simp only [Nat.zero_add] at this; exact this
    · rw [i3 p hne]; exact h4.receiver
  · have hflag : flag = false := by simpa [hlen] using g3
    subst hflag
    obtain ⟨i1, i2, i3⟩ := setIdle_touched h2.sender
    have hbits : phaseBits D (contents s.params.nTx D.tx) =
        [Config.startV] ++ (contents s.params.nTx D.tx).take D.dataBits.toNat := by
      rw [List.take_of_length_le (by omega)]; simp [phaseBits, hlen]
    refine ⟨q, g1, g2, ?_⟩
    simp only [handleTransmit, hs0, if_true, hA, hF, phaseTxr, hlen, if_false, hbits, hpeer, true_and]
    refine ⟨?_, h2.touched.trans (i1.mono (by simp)), i2, ?_⟩
    · have := h2.lost; simp only [Nat.zero_add] at this; exact this
    · rw [i3 p hne]; exact h2.receiver

/-- The transmit phase of a device with no peer: the data bits are consumed and every push is lost (R119, R145). -/
theorem handleTransmit_no_peer (hd : devAt s d = some D) (hp : D.peer = none) (hw : queueWf s.params.nTx D.tx)
    {s0 : DeviceState} (hs0 : transmits s0 = true) :
    ∃ q, queueWf s.params.nTx q ∧
      contents s.params.nTx q = (contents s.params.nTx D.tx).drop D.dataBits.toNat ∧
      (handleTransmit s d D s0).txr = phaseTxr D (contents s.params.nTx D.tx) ∧
      (handleTransmit s d D s0).nopeer = true ∧
      (handleTransmit s d D s0).lost = (phaseBits D (contents s.params.nTx D.tx)).length ∧
      Touched [d] s (handleTransmit s d D s0).state ∧
      devAt (handleTransmit s d D s0).state d = some { D with tx := q, state := .idle } := by
  obtain ⟨q, g1, g2, g3, g4⟩ := frameData_loses D.dataBits.toNat hd hp hw 1
  have hstart : framePush d Config.startV (s, 0) = (s, 1) := framePush_no_peer hd hp _ _
  generalize hF : frameData d D.dataBits.toNat (s, 1) = F at g3 g4
  obtain ⟨flag, u, l⟩ := F
  have hpar : D.peer.isNone = true := by rw [hp]; rfl
  by_cases hlen : D.dataBits.toNat ≤ (contents s.params.nTx D.tx).length
  · have hflag : flag = true := by simpa [hlen] using g3
    subst hflag
    obtain ⟨i1, i2, -⟩ := setIdle_touched g4.sender
    refine ⟨q, g1, g2, ?_⟩
    simp only [handleTransmit, hs0, if_true, hstart, hF, frameStop_loses D.stopBits.toNat g4.sender hp, phaseTxr, hlen,
      hpar, true_and]
    refine ⟨?_, g4.touched.trans i1, i2⟩
    have := g4.lost
    simp only at this
    rw [this]; simp [phaseBits, hlen, wireFrame]; omega
  · have hflag : flag = false := by simpa [hlen] using g3
    subst hflag
    obtain ⟨i1, i2, -⟩ := setIdle_touched g4.sender
    refine ⟨q, g1, g2, ?_⟩
    simp only [handleTransmit, hs0, if_true, hstart, hF, phaseTxr, hlen, if_false, hpar, true_and]
    refine ⟨?_, g4.touched.trans i1, i2⟩
    have := g4.lost
    simp only at this
    rw [this]; simp [phaseBits, hlen]; omega

/-- The transmit phase does not run on another S0 (R116). -/
theorem handleTransmit_idle {s0 : DeviceState} (hs0 : transmits s0 = false) :
    handleTransmit s d D s0 = { state := s, txr := .none, nopeer := false, lost := 0 } := by
  simp [handleTransmit, hs0]

/-- A transmit phase does not read or write what the last operation returned. -/
theorem handleTransmit_out (s : State) (d : Nat) (D : Device) (s0 : DeviceState) (o : Output) :
    handleTransmit { s with out := o } d D s0 =
      { handleTransmit s d D s0 with state := { (handleTransmit s d D s0).state with out := o } } := by
  have hpush : ∀ v (s : State) l, framePush d v ({ s with out := o }, l) =
      ({ (framePush d v (s, l)).1 with out := o }, (framePush d v (s, l)).2) := by
    intro v s l
    simp only [framePush, peerPush, devAt_out]
    cases (devAt s d).bind Device.peer with
    | none => rfl
    | some p =>
      simp only
      cases devAt s p with
      | none => rfl
      | some P => simp only; cases qPush s.params.nRx P.rx v <;> rfl
  have hstop : ∀ n (s : State) l, frameStop d n ({ s with out := o }, l) =
      ({ (frameStop d n (s, l)).1 with out := o }, (frameStop d n (s, l)).2) := by
    intro n
    induction n with
    | zero => intro s l; rfl
    | succ n ih => intro s l; simp only [frameStop, hpush, ih]
  have hpop : ∀ s : State, popTx { s with out := o } d = (popTx s d).map fun r => (r.1, { r.2 with out := o }) := by
    intro s
    simp only [popTx, devAt_out]
    cases devAt s d with
    | none => rfl
    | some D => simp only; cases qPop s.params.nTx D.tx <;> rfl
  have hdata : ∀ n (s : State) l, frameData d n ({ s with out := o }, l) =
      ((frameData d n (s, l)).1, { (frameData d n (s, l)).2.1 with out := o }, (frameData d n (s, l)).2.2) := by
    intro n
    induction n with
    | zero => intro s l; rfl
    | succ n ih =>
      intro s l
      simp only [frameData, hpop]
      cases popTx s d with
      | none => rfl
      | some r => simp only [Option.map_some, hpush, ih]
  have hidle : ∀ s : State, setIdle { s with out := o } d = { setIdle s d with out := o } := by
    intro s
    simp only [setIdle, devAt_out]
    cases devAt s d <;> rfl
  simp only [handleTransmit]
  split
  · rw [hpush, hdata]
    rcases frameData d D.dataBits.toNat (framePush d Config.startV (s, 0)) with ⟨f, a, l⟩
    cases f
    · simp [hidle]
    · simp [hidle, hstop]
  · rfl

end Sys2Proof.Machine
end

