-- ==== Sys2Proof/Laws/Receive.lean ====
section
/-! SUPPORT. What the receive phase does, stated on the sequence the receive queue holds (`43_framing.md` R120). -/

namespace Sys2Proof.Machine

/-- One step of the accumulator is a doubling and an addition, mod 2^ACC_W (R14). -/
theorem accumulate_eq (w acc : Nat) (b : Bit) : accumulate w acc b = (2 * acc + b.toNat) % 2 ^ w := by
  have hb : b.toNat < 2 ^ 1 := by cases b <;> simp
  rw [accumulate, Nat.shiftLeft_eq, Nat.pow_one, Nat.mul_comm, ← Nat.two_pow_add_eq_or_of_lt hb acc]

/-- The accumulator over a run of bits (R124). -/
theorem accumulate_foldl (w : Nat) (bs : List Bit) (acc : Nat) (h : acc < 2 ^ w) :
    bs.foldl (accumulate w) acc = (acc * 2 ^ bs.length + bitsValue bs) % 2 ^ w := by
  induction bs generalizing acc with
  | nil => simpa [bitsValue] using (Nat.mod_eq_of_lt h).symm
  | cons b bs ih =>
    rw [List.foldl_cons, ih _ (by rw [accumulate_eq]; exact Nat.mod_lt _ (Nat.two_pow_pos w)), accumulate_eq]
    simp only [bitsValue, List.length_cons]
    rw [Nat.add_mod, Nat.mul_mod, Nat.mod_mod, ← Nat.mul_mod, ← Nat.add_mod]
    congr 1; ring

theorem accumulate_zero (w : Nat) (bs : List Bit) : bs.foldl (accumulate w) 0 = bitsValue bs % 2 ^ w := by
  simpa using accumulate_foldl w bs 0 (Nat.two_pow_pos w)

/-- The data bits of the deframer: taken from the head and accumulated, or an underrun (R120, R123). -/
theorem deframeData_spec {N w : Nat} (n : Nat) {q : Queue} (hw : queueWf N q) (acc : Nat) :
    (n ≤ (contents N q).length → ∃ q', queueWf N q' ∧ contents N q' = (contents N q).drop n ∧
      deframeData N w n q acc = some (((contents N q).take n).foldl (accumulate w) acc, q')) ∧
    ((contents N q).length < n → deframeData N w n q acc = none) := by
  induction n generalizing q acc with
  | zero => exact ⟨fun _ => ⟨q, hw, by simp, by simp [deframeData]⟩, fun h => absurd h (Nat.not_lt_zero _)⟩
  | succ n ih =>
    cases hc : contents N q with
    | nil => exact ⟨fun h => absurd h (by simp), fun _ => by simp only [deframeData, qPop_of_nil hc]⟩
    | cons b rest =>
      obtain ⟨q1, h1, h2, h3⟩ := qPop_cons hw hc
      obtain ⟨ih1, ih2⟩ := ih h2 (accumulate w acc b)
      rw [h3] at ih1 ih2
      simp only [deframeData, h1, List.length_cons, Nat.add_le_add_iff_right, Nat.add_lt_add_iff_right,
        List.drop_succ_cons, List.take_succ_cons, List.foldl_cons]
      exact ⟨ih1, ih2⟩

/-- The receive phase past its guard, on the sequence its queue holds (R120 to R126).  A frame failure leaves the queue
reset. -/
theorem deframe_spec {p : Params} {D : Device} (hw : queueWf p.nRx D.rx) :
    ∃ q, queueWf p.nRx q ∧
      contents p.nRx q = (readFrame D.dataBits.toNat p.accW (contents p.nRx D.rx)).2.2 ∧
      ((readFrame D.dataBits.toNat p.accW (contents p.nRx D.rx)).1 ≠ .byte →
        (readFrame D.dataBits.toNat p.accW (contents p.nRx D.rx)).1 ≠ .empty → q = qReset D.rx) ∧
      deframe p D =
        (received D q (readFrame D.dataBits.toNat p.accW (contents p.nRx D.rx)).1
            (readFrame D.dataBits.toNat p.accW (contents p.nRx D.rx)).2.1,
          (readFrame D.dataBits.toNat p.accW (contents p.nRx D.rx)).1,
          (readFrame D.dataBits.toNat p.accW (contents p.nRx D.rx)).2.1) := by
  have hpeek := qPeek_eq_head hw
  cases hc : contents p.nRx D.rx with
  | nil =>
    rw [hc] at hpeek
    refine ⟨D.rx, hw, by simpa [readFrame] using hc, by simp [readFrame], ?_⟩
    simp only [deframe, hpeek, List.head?_nil, readFrame, received, if_true]
    rfl
  | cons h rest =>
    rw [hc] at hpeek
    obtain ⟨hdw, hdc⟩ := qDrop_spec hw hc
    simp only [deframe, hpeek, List.head?_cons, readFrame]
    by_cases hh : h = Config.startV
    · obtain ⟨ok, short⟩ := deframeData_spec (w := p.accW) D.dataBits.toNat hdw 0
      rw [hdc] at ok short
      simp only [hh, ne_eq, not_true_eq_false, if_false]
      by_cases hlen : rest.length < D.dataBits.toNat
      · simp only [short hlen, hlen, if_true]
        exact ⟨qReset D.rx, qReset_wf hw, rfl, fun _ _ => rfl, by simp [frameFailure, received]⟩
      · obtain ⟨q, hqw, hqc, hq⟩ := ok (by omega)
        have hqp := qPeek_eq_head hqw
        simp only [hq, hlen, if_false, hqp, hqc]
        by_cases hstop : (rest.drop D.dataBits.toNat).head? = some Config.stopV
        · obtain ⟨x, xs, hx⟩ : ∃ x xs, rest.drop D.dataBits.toNat = x :: xs := by
            cases hr : rest.drop D.dataBits.toNat with
            | nil => rw [hr] at hstop; cases hstop
            | cons x xs => exact ⟨x, xs, rfl⟩
          obtain ⟨hd1, hd2⟩ := qDrop_spec hqw (hqc.trans hx)
          simp only [hstop, if_true]
          refine ⟨qDrop p.nRx q, hd1, ?_, fun h _ => absurd trivial h, ?_⟩
          · rw [hd2, ← List.drop_drop, hx]; rfl
          · simp [received, accumulate_zero]
        · simp only [hstop, if_false]
          exact ⟨qReset D.rx, qReset_wf hw, rfl, fun _ _ => rfl, by simp [frameFailure, received]⟩
    · simp only [ne_eq, hh, not_false_eq_true, if_true]
      exact ⟨qReset D.rx, qReset_wf hw, rfl, fun _ _ => rfl, by simp [frameFailure, received]⟩

/-- A byte that is read fits the byte width. -/
theorem readFrame_byte_lt (n w : Nat) (c : List Bit) : (readFrame n w c).2.1 < 2 ^ w := by
  have := Nat.two_pow_pos w
  unfold readFrame
  repeat' split
  all_goals first | exact this | exact Nat.mod_lt _ this

/-- The result of a receive phase on a queue that is not empty. -/
theorem readFrame_ne_empty (n w : Nat) {c : List Bit} (h : c ≠ []) : (readFrame n w c).1 ≠ .empty := by
  cases c with
  | nil => exact absurd rfl h
  | cons x xs => simp only [readFrame]; repeat' split
                 all_goals simp

end Sys2Proof.Machine
end

