-- ==== Sys2Proof/Laws/Exec.lean ====
section
/-! SUPPORT. What each operation may write: one inversion lemma for `exec`, from which the frames and the invariants
over all operations follow. -/

namespace Sys2Proof.Machine

variable {s t u : State} {d : Nat} {D D' E : Device}

/-! ### Chains of device writes -/

/-- State `t` comes from `s` by writes of device slots, each of which relates the device it replaces to the new one by
`R`.  What is not in the device table is free to change, but for the parameters. -/
inductive Writes (R : Nat → Device → Device → Prop) (s : State) : State → Prop where
  | start {t : State} (hp : t.params = s.params) (hd : t.dev = s.dev) : Writes R s t
  | put {t u : State} {d : Nat} {D D' : Device} (h : Writes R s t) (hd : devAt t d = some D) (hR : R d D D')
      (hp : u.params = t.params) (hu : u.dev = tablePut t.dev d D') : Writes R s u

variable {R S : Nat → Device → Device → Prop}

theorem Writes.refl : Writes R s s := .start rfl rfl

theorem Writes.congr (h : Writes R s t) (hp : u.params = t.params) (hd : u.dev = t.dev) : Writes R s u := by
  cases h with
  | start hp' hd' => exact .start (hp.trans hp') (hd.trans hd')
  | put h hD hR hp' hd' => exact .put h hD hR (hp.trans hp') (hd.trans hd')

theorem Writes.putDev (h : Writes R s t) (hD : devAt t d = some D) (hR : R d D D') : Writes R s (putDev t d D') :=
  .put h hD hR rfl rfl

theorem Writes.trans (h1 : Writes R s t) (h2 : Writes R t u) : Writes R s u := by
  induction h2 with
  | start hp hd => exact h1.congr hp hd
  | put _ hD hR hp hu ih => exact .put ih hD hR hp hu

theorem Writes.mono (h : Writes R s t) (hRS : ∀ d D D', R d D D' → S d D D') : Writes S s t := by
  induction h with
  | start hp hd => exact .start hp hd
  | put _ hD hR hp hu ih => exact .put ih hD (hRS _ _ _ hR) hp hu

theorem Writes.params (h : Writes R s t) : t.params = s.params := by
  induction h with
  | start hp _ => exact hp
  | put _ _ _ hp _ ih => exact hp.trans ih

/-- A device after a chain of writes: related to the device before it by anything that holds the writes. -/
theorem Writes.device (h : Writes R s t) (hrefl : ∀ d D, S d D D)
    (htrans : ∀ d A B C, S d A B → R d B C → S d A C) (hD : devAt s d = some D) :
    ∃ E, devAt t d = some E ∧ S d D E := by
  induction h with
  | start hp hd => exact ⟨D, by rwa [devAt_congr hp hd], hrefl d D⟩
  | @put t u e A A' _ hA hR hp hu ih =>
    obtain ⟨E, hE, hS⟩ := ih
    have hu' : ∀ f, devAt u f = devAt (Machine.putDev t e A') f := devAt_congr hp hu
    by_cases hde : d = e
    · subst hde
      rw [hE] at hA; cases hA
      exact ⟨A', by rw [hu']; exact devAt_putDev_same (devAt_lt hE) A', htrans _ _ _ _ hS hR⟩
    · exact ⟨E, by rw [hu', devAt_putDev_ne t hde]; exact hE, hS⟩

/-- A chain of writes creates no slot. -/
theorem Writes.slot (h : Writes R s t) (hE : devAt t d = some E) : ∃ D, devAt s d = some D := by
  induction h generalizing E with
  | start hp hd => exact ⟨E, by rwa [← devAt_congr hp hd]⟩
  | @put t u e A A' _ hA _ hp hu ih =>
    rw [devAt_congr (s := Machine.putDev t e A') hp hu] at hE
    by_cases hde : d = e
    · subst hde; exact ih hA
    · rw [devAt_putDev_ne _ hde] at hE; exact ih hE

/-- The device table stays canonical over a chain of writes. -/
theorem Writes.canon (h : Writes R s t) (hc : s.Canon) : t.Canon := by
  induction h with
  | start hp hd => simpa only [State.Canon, hp, hd] using hc
  | put _ hD _ hp hu ih =>
    have hput := canon_putDev ih (devAt_lt hD)
    rw [State.Canon, hp, hu]; exact hput _

/-- The canonical form of the storage over a chain of writes. -/
theorem Writes.memory_wf (h : Writes R s t)
    (hR : ∀ d D D', R d D D' → tableWf D.tx.slots ∧ tableWf D.rx.slots → tableWf D'.tx.slots ∧ tableWf D'.rx.slots)
    (hs : Memory.wf s) : Memory.wf t := by
  induction h with
  | start _ hd => simpa only [Memory.wf, hd] using hs
  | put _ hD hRD _ hu ih =>
    simp only [Memory.wf, hu]
    refine ⟨tableWf_put ih.1 _ _, fun e he => ?_⟩
    rcases mem_tablePut he with rfl | he
    · exact hR _ _ _ hRD (ih.2 _ (mem_of_devAt hD))
    · exact ih.2 e he

/-! ### What an operation may write -/

/-- A queue of capacity `N` that is canonical, and well formed, where the one it replaces is. -/
abbrev QueueKept (N : Nat) (q q' : Queue) : Prop :=
  (tableWf q.slots → tableWf q'.slots) ∧ (queueWf N q → queueWf N q')

/-- Received bytes that fit the byte width where those they replace do. -/
abbrev BytesKept (w : Nat) (xs ys : List Nat) : Prop := (∀ x ∈ xs, x < 2 ^ w) → ∀ y ∈ ys, y < 2 ^ w

/-- A device with another receive queue. -/
abbrev WritesRx (p : Params) (D D' : Device) : Prop := ∃ q, QueueKept p.nRx D.rx q ∧ D' = { D with rx := q }

/-- The peer of the device in slot `d`. -/
abbrev peerOf (s : State) (d : Nat) : Option Nat := (devAt s d).bind Device.peer

/-- The fields of the device in slot `e` that an operation on state `s` may write. -/
def Effect (s : State) (i : Instr) (e : Nat) (D D' : Device) : Prop :=
  match i with
  | .createDevice _ _ _ _ _ => False
  | .connect da db =>
      (e = slotIndex da ∧ D' = { D with peer := some (slotIndex db) }) ∨
      (e = slotIndex db ∧ D' = { D with peer := some (slotIndex da) })
  | .enqueueTransmit da _ => e = slotIndex da ∧ ∃ q, QueueKept s.params.nTx D.tx q ∧ D' = { D with tx := q }
  | .tick da _ _ => e = slotIndex da ∧ ∃ c, D' = { D with clock := c }
  | .step da =>
      (e = slotIndex da ∧ ∃ c st tx rx rxb, QueueKept s.params.nTx D.tx tx ∧ QueueKept s.params.nRx D.rx rx ∧
        BytesKept s.params.accW D.rxb rxb ∧
        D' = { D with clock := c, state := st, tx := tx, rx := rx, rxb := rxb }) ∨
      (peerOf s (slotIndex da) = some e ∧ WritesRx s.params D D')
  | .drainReceived da => e = slotIndex da ∧ D' = { D with rxb := [] }
  | .isReady _ => False
  | .resetClock da => e = slotIndex da ∧ ∃ c, D' = { D with clock := c }
  | .updateState da => e = slotIndex da ∧ ∃ st, D' = { D with state := st }
  | .handleTransmit da =>
      (e = slotIndex da ∧ ∃ st tx, QueueKept s.params.nTx D.tx tx ∧ D' = { D with state := st, tx := tx }) ∨
      (peerOf s (slotIndex da) = some e ∧ WritesRx s.params D D')
  | .handleReceive da =>
      e = slotIndex da ∧ ∃ st rx rxb, QueueKept s.params.nRx D.rx rx ∧ BytesKept s.params.accW D.rxb rxb ∧
        D' = { D with state := st, rx := rx, rxb := rxb }
  | .peerPush da _ => peerOf s (slotIndex da) = some e ∧ WritesRx s.params D D'
  | .qInit da qs => e = slotIndex da ∧ ∃ q, QueueKept (capacityOf s.params qs) (queueOf D qs) q ∧ D' = withQueue D q qs
  | .qPush da qs _ => e = slotIndex da ∧ ∃ q, QueueKept (capacityOf s.params qs) (queueOf D qs) q ∧ D' = withQueue D q qs
  | .qPop da qs => e = slotIndex da ∧ ∃ q, QueueKept (capacityOf s.params qs) (queueOf D qs) q ∧ D' = withQueue D q qs
  | .qPeek _ _ => False
  | .qReset da qs => e = slotIndex da ∧ ∃ q, QueueKept (capacityOf s.params qs) (queueOf D qs) q ∧ D' = withQueue D q qs
  | .qIsEmpty _ _ => False
  | .qIsFull _ _ => False
  | .bytesToBits _ => False
  | .bitsToByte _ => False

/-! ### The queue primitives keep a queue -/

theorem QueueKept.refl (N : Nat) (q : Queue) : QueueKept N q q := ⟨id, id⟩

theorem qInit_kept (N : Nat) (q : Queue) : QueueKept N q qInit :=
  ⟨fun _ => List.Pairwise.nil, fun hw => qInit_wf (by have := hw.2.2.2.1; omega)⟩

theorem qReset_kept (N : Nat) (q : Queue) : QueueKept N q (qReset q) := ⟨id, qReset_wf⟩

theorem qPush_kept {N : Nat} {q q' : Queue} {v : Bit} (h : qPush N q v = some q') : QueueKept N q q' := by
  refine ⟨?_, fun hw => (qPush_spec hw h).1⟩
  obtain ⟨-, rfl⟩ := qPush_eq_some h
  exact fun hw => tableWf_put hw _ _

theorem qPop_kept {N : Nat} {q q' : Queue} {b : Bit} (h : qPop N q = some (b, q')) : QueueKept N q q' := by
  refine ⟨?_, fun hw => qPop_wf hw h⟩
  unfold qPop at h; split at h
  · cases h
  · cases h; exact id

theorem QueueKept.trans {N : Nat} {q r u : Queue} (h1 : QueueKept N q r) (h2 : QueueKept N r u) : QueueKept N q u :=
  ⟨h2.1 ∘ h1.1, h2.2 ∘ h1.2⟩

theorem qPushAll_kept (N : Nat) (q : Queue) (bits : List Bit) : QueueKept N q (qPushAll N q bits).1 := by
  induction bits generalizing q with
  | nil => exact .refl N q
  | cons b bs ih =>
    simp only [qPushAll]
    split
    · next q' h => exact (qPush_kept h).trans (ih q')
    · exact ih q

theorem qDrop_kept (N : Nat) (q : Queue) : QueueKept N q (qDrop N q) := by
  unfold qDrop
  split
  · exact .refl N q
  · next r h => exact qPop_kept (b := r.1) (q' := r.2) h

theorem deframeData_kept {N w n : Nat} {q q' : Queue} {acc acc' : Nat}
    (h : deframeData N w n q acc = some (acc', q')) : QueueKept N q q' ∧ (acc < 2 ^ w → acc' < 2 ^ w) := by
  induction n generalizing q acc with
  | zero => cases h; exact ⟨.refl _ _, id⟩
  | succ n ih =>
    simp only [deframeData] at h
    split at h
    · cases h
    · next hq =>
      obtain ⟨h1, h2⟩ := ih h
      exact ⟨(qPop_kept hq).trans h1, fun _ => h2 (by rw [accumulate_eq]; exact Nat.mod_lt _ (Nat.two_pow_pos w))⟩

/-- The fields that a receive phase writes. -/
theorem receiveDevice_fields (p : Params) (D : Device) (s0 : DeviceState) :
    ∃ st rx rxb, QueueKept p.nRx D.rx rx ∧ BytesKept p.accW D.rxb rxb ∧
      (receiveDevice p D s0).1 = { D with state := st, rx := rx, rxb := rxb } := by
  have failed : ∃ st rx rxb, QueueKept p.nRx D.rx rx ∧ BytesKept p.accW D.rxb rxb ∧
      { D with rx := qReset D.rx, state := .idle } = { D with state := st, rx := rx, rxb := rxb } :=
    ⟨.idle, qReset D.rx, D.rxb, qReset_kept _ _, id, rfl⟩
  unfold receiveDevice
  split
  · unfold deframe
    split
    · exact ⟨D.state, D.rx, D.rxb, .refl _ _, id, rfl⟩
    · split
      · exact failed
      · split
        · exact failed
        · next acc q hq =>
          split
          · obtain ⟨h1, h2⟩ := deframeData_kept hq
            refine ⟨.idle, qDrop p.nRx q, _, ((qDrop_kept _ _).trans h1).trans (qDrop_kept _ _), ?_, rfl⟩
            intro hx y hy
            rcases List.mem_append.1 hy with hy | hy
            · exact hx y hy
            · rw [List.mem_singleton.1 hy]; exact h2 (Nat.two_pow_pos _)
          · exact failed
  · exact ⟨D.state, D.rx, D.rxb, .refl _ _, id, rfl⟩

/-- The writes of a transmit phase of slot `d`, whose device has peer `pe`. -/
def TxEffect (p : Params) (pe : Option Nat) (d e : Nat) (D D' : Device) : Prop :=
  (e = d ∧ ∃ st tx, QueueKept p.nTx D.tx tx ∧ D' = { D with state := st, tx := tx }) ∨ (pe = some e ∧ WritesRx p D D')

theorem txEffect_peer {p : Params} {pe : Option Nat} {e : Nat} (h : TxEffect p pe d e D D') : D'.peer = D.peer := by
  rcases h with ⟨-, st, q, -, rfl⟩ | ⟨-, q, -, rfl⟩ <;> rfl

/-- Nothing outside the device table has changed. -/
theorem sameBlock_putDev (s : State) (d : Nat) (D : Device) : SameBlock s (putDev s d D) := ⟨⟨rfl, rfl, rfl⟩, rfl, rfl⟩

theorem SameBlock.trans (h1 : SameBlock s t) (h2 : SameBlock t u) : SameBlock s u := by
  obtain ⟨⟨a1, a2, a3⟩, a4, a5⟩ := h1
  obtain ⟨⟨b1, b2, b3⟩, b4, b5⟩ := h2
  exact ⟨⟨b1.trans a1, b2.trans a2, b3.trans a3⟩, b4.trans a4, b5.trans a5⟩

theorem SameBlock.refl (s : State) : SameBlock s s := ⟨⟨rfl, rfl, rfl⟩, rfl, rfl⟩

/-- Slot `d` holds a device with peer `pe`. -/
abbrev HasPeer (s : State) (d : Nat) (pe : Option Nat) : Prop := ∃ D, devAt s d = some D ∧ D.peer = pe

/-- A transmit phase's chain of writes, from a state whose slot `d` holds a device with peer `pe`. -/
abbrev TxWrites (pe : Option Nat) (d : Nat) (s t : State) : Prop :=
  HasPeer s d pe → Writes (TxEffect s.params pe d) s t ∧ SameBlock s t

theorem TxWrites.hasPeer {pe : Option Nat} (h : TxWrites pe d s t) (hp : HasPeer s d pe) : HasPeer t d pe := by
  obtain ⟨D, hD, rfl⟩ := hp
  exact (h ⟨D, hD, rfl⟩).1.device (S := fun _ A B => B.peer = A.peer) (fun _ _ => rfl)
    (fun _ _ _ _ hS hR => (txEffect_peer hR).trans hS) hD

theorem TxWrites.refl {pe : Option Nat} : TxWrites pe d s s := fun _ => ⟨.refl, SameBlock.refl _⟩

theorem TxWrites.trans {pe : Option Nat} (h1 : TxWrites pe d s t) (h2 : TxWrites pe d t u) : TxWrites pe d s u := by
  intro hp
  obtain ⟨a1, a2⟩ := h1 hp
  obtain ⟨b1, b2⟩ := h2 (h1.hasPeer hp)
  exact ⟨a1.trans (a2.1.1 ▸ b1), SameBlock.trans a2 b2⟩

theorem peerPush_writes {v : Bit} (h : peerPush s d v = some t) :
    ∃ e D q, peerOf s d = some e ∧ devAt s e = some D ∧ QueueKept s.params.nRx D.rx q ∧
      t = putDev s e { D with rx := q } := by
  unfold peerPush at h
  split at h
  · cases h
  · next e he =>
    split at h
    · cases h
    · next P hP =>
      split at h
      · cases h
      · next q hq => cases h; exact ⟨e, P, q, he, hP, qPush_kept hq, rfl⟩

theorem framePush_writes (pe : Option Nat) (d : Nat) (v : Bit) (a : State × Nat) :
    TxWrites pe d a.1 (framePush d v a).1 := by
  unfold framePush
  split
  · next t h =>
    obtain ⟨e, D, q, h1, h2, h3, rfl⟩ := peerPush_writes h
    rintro ⟨A, hA, rfl⟩
    rw [peerOf, hA, Option.bind_some] at h1
    exact ⟨Writes.refl.putDev h2 (.inr ⟨h1, q, h3, rfl⟩), sameBlock_putDev _ _ _⟩
  · exact .refl

theorem popTx_writes {pe : Option Nat} {b : Bit} (h : popTx s d = some (b, t)) : TxWrites pe d s t := by
  unfold popTx at h
  split at h
  · cases h
  · next D hD =>
    split at h
    · cases h
    · next q hq =>
      cases h
      exact fun _ => ⟨Writes.refl.putDev hD (.inl ⟨rfl, D.state, q, qPop_kept hq, rfl⟩), sameBlock_putDev _ _ _⟩

theorem frameData_writes (pe : Option Nat) (d n : Nat) (a : State × Nat) : TxWrites pe d a.1 (frameData d n a).2.1 := by
  induction n generalizing a with
  | zero => exact .refl
  | succ n ih =>
    simp only [frameData]
    split
    · exact .refl
    · next b s' h => exact ((popTx_writes h).trans (framePush_writes pe d b (s', a.2))).trans (ih _)

theorem frameStop_writes (pe : Option Nat) (d n : Nat) (a : State × Nat) : TxWrites pe d a.1 (frameStop d n a).1 := by
  induction n generalizing a with
  | zero => exact .refl
  | succ n ih => exact (framePush_writes pe d Config.stopV a).trans (ih _)

theorem setIdle_writes (pe : Option Nat) (s : State) (d : Nat) : TxWrites pe d s (setIdle s d) := by
  unfold setIdle
  split
  · exact .refl
  · next D hD =>
    exact fun _ => ⟨Writes.refl.putDev hD (.inl ⟨rfl, .idle, D.tx, .refl _ _, rfl⟩), sameBlock_putDev _ _ _⟩

/-- The transmit phase. -/
theorem handleTransmit_writes (pe : Option Nat) (s : State) (d : Nat) (D : Device) (s0 : DeviceState) :
    TxWrites pe d s (handleTransmit s d D s0).state := by
  unfold handleTransmit
  split
  · have h1 := framePush_writes pe d Config.startV (s, 0)
    have h2 := frameData_writes pe d D.dataBits.toNat (framePush d Config.startV (s, 0))
    dsimp only
    split
    · next a h => rw [h] at h2; exact (h1.trans h2).trans (setIdle_writes pe _ _)
    · next a h =>
      rw [h] at h2
      exact ((h1.trans h2).trans (frameStop_writes pe d _ a)).trans (setIdle_writes pe _ _)
  · exact .refl

/-- The same configuration fields and derived values (R25, R26). -/
abbrev SameConfig (D D' : Device) : Prop :=
  D'.baudRate = D.baudRate ∧ D'.dataBits = D.dataBits ∧ D'.stopBits = D.stopBits ∧ D'.startBits = D.startBits ∧
    D'.bitsPerFrame = D.bitsPerFrame ∧ D'.timePerByte = D.timePerByte

/-- No operation changes a configuration field. -/
theorem effect_config {i : Instr} {e : Nat} (h : Effect s i e D D') : SameConfig D D' := by
  have hq : ∀ q qs, SameConfig D (withQueue D q qs) := by
    intro q qs; cases qs <;> exact ⟨rfl, rfl, rfl, rfl, rfl, rfl⟩
  cases i <;> simp only [Effect] at h
  case connect => rcases h with ⟨-, rfl⟩ | ⟨-, rfl⟩ <;> exact ⟨rfl, rfl, rfl, rfl, rfl, rfl⟩
  case enqueueTransmit => obtain ⟨-, q, -, rfl⟩ := h; exact ⟨rfl, rfl, rfl, rfl, rfl, rfl⟩
  case tick => obtain ⟨-, q, rfl⟩ := h; exact ⟨rfl, rfl, rfl, rfl, rfl, rfl⟩
  case step => rcases h with ⟨-, c, st, tx, rx, rxb, -, -, -, rfl⟩ | ⟨-, q, -, rfl⟩ <;> exact ⟨rfl, rfl, rfl, rfl, rfl, rfl⟩
  case drainReceived => obtain ⟨-, rfl⟩ := h; exact ⟨rfl, rfl, rfl, rfl, rfl, rfl⟩
  case resetClock => obtain ⟨-, q, rfl⟩ := h; exact ⟨rfl, rfl, rfl, rfl, rfl, rfl⟩
  case updateState => obtain ⟨-, q, rfl⟩ := h; exact ⟨rfl, rfl, rfl, rfl, rfl, rfl⟩
  case handleTransmit => rcases h with ⟨-, c, st, -, rfl⟩ | ⟨-, q, -, rfl⟩ <;> exact ⟨rfl, rfl, rfl, rfl, rfl, rfl⟩
  case handleReceive => obtain ⟨-, q, u, v, -, -, rfl⟩ := h; exact ⟨rfl, rfl, rfl, rfl, rfl, rfl⟩
  case peerPush => obtain ⟨-, q, -, rfl⟩ := h; exact ⟨rfl, rfl, rfl, rfl, rfl, rfl⟩
  all_goals (obtain ⟨-, q, -, rfl⟩ := h; exact hq _ _)

/-! ### The inversion lemma -/

/-- What an operation that answers a next state has done: it was refused, and changed the mark alone; or it created a
device in a free slot; or it wrote the fields that `Effect` names, and left the mark and the command stream. -/
theorem exec_cases {i : Instr} (h : exec i s = .next t) :
    (∃ r, t = { s with refused := some r }) ∨
    (∃ da baud data stop start, i = .createDevice da baud data stop start ∧ slotIndex da < s.params.ndev ∧
      devAt s (slotIndex da) = none ∧ configHasZero baud data stop start = false ∧
      t = { putDev s (slotIndex da) (newDevice baud data stop start) with out := .response [] }) ∨
    (SameHost s t ∧ Writes (Effect s i) s t) := by
  have missing : ∀ da (k : Device → Host.Outcome State Fault Refusal), onDevice s da k = .next t →
      (∃ r, t = { s with refused := some r }) ∨ ∃ D, devAt s (slotIndex da) = some D ∧ k D = .next t := by
    intro da k hk
    cases hd : devAt s (slotIndex da) with
    | none => rw [onDevice_none hd] at hk; cases hk; exact .inl ⟨_, rfl⟩
    | some D => rw [onDevice_some hd] at hk; exact .inr ⟨D, rfl, hk⟩
  have pure : ∀ {R o}, returns s o = .next t → SameHost s t ∧ Writes R s t := by
    intro R o h; cases h; exact ⟨⟨rfl, rfl, rfl⟩, .start rfl rfl⟩
  have one : ∀ {R d D D' o}, devAt s d = some D → R d D D' → returns (putDev s d D') o = .next t →
      SameHost s t ∧ Writes R s t := by
    intro R d D D' o hd hR h; cases h
    exact ⟨⟨rfl, rfl, rfl⟩, (Writes.refl.putDev hd hR).congr rfl rfl⟩
  have counted : ∀ {R d D D' n o}, devAt s d = some D → R d D D' → returns (useCount (putDev s d D') n) o = .next t →
      SameHost s t ∧ Writes R s t := by
    intro R d D D' n o hd hR h
    rw [returns, Host.Outcome.next.injEq] at h
    subst h
    exact ⟨⟨useCount_params _ _, useCount_refused _ _, useCount_pending _ _⟩,
      (Writes.refl.putDev hd hR).congr (useCount_params _ _) (useCount_dev _ _)⟩
  cases i with
  | createDevice da baud data stop start =>
    simp only [exec, execCreateDevice] at h
    split at h
    · cases h; exact .inl ⟨_, rfl⟩
    · next h1 =>
      simp only [deviceOperand, not_or, Nat.not_le, Bool.not_eq_true, Option.isSome_eq_false_iff, Option.isNone_iff_eq_none] at h1
      split at h
      · cases h; exact .inl ⟨_, rfl⟩
      · next h2 =>
        cases h
        exact .inr (.inl ⟨da, baud, data, stop, start, rfl, h1.1, h1.2, by simpa using h2, rfl⟩)
  | connect da db =>
    simp only [exec, execConnect, deviceOperand] at h
    split at h
    · next A B hA hB =>
      split at h
      · cases h; exact .inl ⟨_, rfl⟩
      · next hne =>
        cases h
        have hne' : slotIndex db ≠ slotIndex da := fun h => hne (BitVec.eq_of_toNat_eq h.symm)
        refine .inr (.inr ⟨⟨rfl, rfl, rfl⟩, ?_⟩)
        exact ((Writes.refl.putDev hA (.inl ⟨rfl, rfl⟩)).putDev ((devAt_putDev_ne s hne' _).trans hB)
          (.inr ⟨rfl, rfl⟩)).congr rfl rfl
    · cases h; exact .inl ⟨_, rfl⟩
  | enqueueTransmit da bits =>
    exact (missing da _ h).imp id fun ⟨D, hD, hk⟩ => .inr (counted hD ⟨rfl, _, qPushAll_kept _ _ _, rfl⟩ hk)
  | tick da num den =>
    rcases missing da _ h with h | ⟨D, hD, hk⟩
    · exact .inl h
    · split at hk
      · cases hk; exact .inl ⟨_, rfl⟩
      · exact .inr (.inr (one hD ⟨rfl, _, rfl⟩ hk))
  | step da =>
    refine (missing da _ h).imp id fun ⟨D, hD, hk⟩ => .inr ?_
    split at hk
    · simp only [readyStep] at hk
      have hlt := devAt_lt hD
      have h1 : Writes (Effect s (.step da)) s (updateStateOf s (slotIndex da) (resetClock D)) :=
        .put (D' := stepStarted D) .refl hD
          (.inl ⟨rfl, D.timePerByte, computedState D, D.tx, D.rx, D.rxb, .refl _ _, .refl _ _, id, rfl⟩) rfl rfl
      have hd1 : devAt (updateStateOf s (slotIndex da) (resetClock D)) (slotIndex da) = some (stepStarted D) :=
        devAt_updateStateOf_same hlt _
      have htx := handleTransmit_writes D.peer (updateStateOf s (slotIndex da) (resetClock D)) (slotIndex da)
        (stepStarted D) (computedState D) ⟨_, hd1, rfl⟩
      generalize handleTransmit (updateStateOf s (slotIndex da) (resetClock D)) (slotIndex da) (stepStarted D)
        (computedState D) = tx at hk htx
      have h2 : Writes (Effect s (.step da)) s tx.state := by
        refine h1.trans (htx.1.mono ?_)
        rintro e A A' (⟨he, st, q, hq, rfl⟩ | ⟨he, hrx⟩)
        · exact .inl ⟨he, A.clock, st, q, A.rx, A.rxb, hq, .refl _ _, id, rfl⟩
        · exact .inr ⟨by rw [peerOf, hD]; exact he, hrx⟩
      obtain ⟨A, hA, -⟩ := htx.1.device (S := fun _ _ _ => True) (fun _ _ => trivial) (fun _ _ _ _ _ _ => trivial) hd1
      have hcur : currentDevice tx.state (slotIndex da) (stepStarted D) = A := by simp only [currentDevice, hA]; rfl
      rw [hcur, returns, Host.Outcome.next.injEq] at hk
      subst hk
      obtain ⟨st, rx, rxb, hs, hb, hf⟩ := receiveDevice_fields tx.state.params A (computedState D)
      have hpar : tx.state.params = s.params := htx.2.1.1
      have h3 : Writes (Effect s (.step da)) s (handleReceive tx.state (slotIndex da) A (computedState D)).state :=
        .put h2 hA (.inl ⟨rfl, A.clock, st, A.tx, rx, rxb, .refl _ _, hpar ▸ hs, hpar ▸ hb, hf⟩) rfl rfl
      obtain ⟨⟨a1, a2, a3⟩, -, -⟩ := htx.2
      refine ⟨⟨?_, ?_, ?_⟩, h3.congr (by simp) (by simp)⟩ <;> simp [handleReceive, a1, a2, a3]
    · exact pure hk
  | drainReceived da =>
    exact (missing da _ h).imp id fun ⟨D, hD, hk⟩ => .inr (counted hD ⟨rfl, rfl⟩ hk)
  | isReady da => exact (missing da _ h).imp id fun ⟨D, hD, hk⟩ => .inr (pure hk)
  | resetClock da => exact (missing da _ h).imp id fun ⟨D, hD, hk⟩ => .inr (one hD ⟨rfl, _, rfl⟩ hk)
  | updateState da =>
    refine (missing da _ h).imp id fun ⟨D, hD, hk⟩ => .inr ?_
    cases hk
    exact ⟨⟨rfl, rfl, rfl⟩, .put .refl hD ⟨rfl, _, rfl⟩ rfl rfl⟩
  | handleTransmit da =>
    refine (missing da _ h).imp id fun ⟨D, hD, hk⟩ => .inr ?_
    have htx := handleTransmit_writes D.peer s (slotIndex da) D s.s0 ⟨D, hD, rfl⟩
    cases hk
    refine ⟨htx.2.1, (htx.1.mono ?_).congr rfl rfl⟩
    rintro e A A' (h | ⟨he, hrx⟩)
    · exact .inl h
    · exact .inr ⟨by rw [peerOf, hD]; exact he, hrx⟩
  | handleReceive da =>
    refine (missing da _ h).imp id fun ⟨D, hD, hk⟩ => .inr ?_
    obtain ⟨st, rx, rxb, hs, hb, hf⟩ := receiveDevice_fields s.params D s.s0
    exact one hD ⟨rfl, st, rx, rxb, hs, hb, hf⟩ hk
  | peerPush da v =>
    refine (missing da _ h).imp id fun ⟨D, hD, hk⟩ => .inr ?_
    split at hk
    · exact pure hk
    · next s' hs' =>
      obtain ⟨e, A, q, h1, h2, h3, rfl⟩ := peerPush_writes hs'
      exact one h2 ⟨h1, q, h3, rfl⟩ hk
  | qInit da qs =>
    exact (missing da _ h).imp id fun ⟨D, hD, hk⟩ => .inr (one hD ⟨rfl, qInit, qInit_kept _ _, rfl⟩ hk)
  | qPush da qs v =>
    refine (missing da _ h).imp id fun ⟨D, hD, hk⟩ => .inr ?_
    split at hk
    · exact pure hk
    · next q hq => exact one hD ⟨rfl, q, qPush_kept hq, rfl⟩ hk
  | qPop da qs =>
    refine (missing da _ h).imp id fun ⟨D, hD, hk⟩ => .inr ?_
    split at hk
    · exact pure hk
    · next b q hq => exact one hD ⟨rfl, q, qPop_kept hq, rfl⟩ hk
  | qPeek da qs => exact (missing da _ h).imp id fun ⟨D, hD, hk⟩ => .inr (pure hk)
  | qReset da qs => exact (missing da _ h).imp id fun ⟨D, hD, hk⟩ => .inr (one hD ⟨rfl, qReset (queueOf D qs), qReset_kept _ _, rfl⟩ hk)
  | qIsEmpty da qs => exact (missing da _ h).imp id fun ⟨D, hD, hk⟩ => .inr (pure hk)
  | qIsFull da qs => exact (missing da _ h).imp id fun ⟨D, hD, hk⟩ => .inr (pure hk)
  | bytesToBits bytes => exact .inr (.inr (pure h))
  | bitsToByte bits =>
    simp only [exec, execBitsToByte] at h
    split at h
    · exact .inr (.inr (pure h))
    · cases h; exact .inl ⟨_, rfl⟩

/-- A device after an operation, related to the device before it by anything that holds what the operation may write. -/
theorem exec_device {i : Instr} {S : Nat → Device → Device → Prop} (h : exec i s = .next t) (hD : devAt s d = some D)
    (hrefl : ∀ d D, S d D D) (htrans : ∀ d A B C, S d A B → Effect s i d B C → S d A C) :
    ∃ E, devAt t d = some E ∧ S d D E := by
  rcases exec_cases h with ⟨r, rfl⟩ | ⟨da, b, dd, st, sa, rfl, h1, h2, -, rfl⟩ | ⟨-, hw⟩
  · exact ⟨D, hD, hrefl _ _⟩
  · refine ⟨D, ?_, hrefl _ _⟩
    rw [devAt_out, devAt_putDev_ne]
    · exact hD
    · rintro rfl; rw [hD] at h2; cases h2
  · exact hw.device hrefl htrans hD

end Sys2Proof.Machine
end

