-- ==== Sys2Proof/Laws/Fetch.lean ====
section
/-! SUPPORT. Commands from the port, decoded, and runs of them. -/

namespace Sys2Proof.Machine

variable {s t : State} {i : Instr} {rest : List Issue} {k : Nat}

/-- A host command from the port is decoded (R77). -/
theorem decodeIssue_portIssue (h : portAccepts i.opc.toNat = true) : decodeIssue (portIssue i) = decode (encode i) := by
  have ho : portAccepts (opcOf (encode i).cw) = true := by
    rw [opcOf_encode]; exact h
  simp only [decodeIssue, portIssue, ho]

theorem decodeIssue_createDevice (da : SlotIx) (baud data stop start : Word) :
    decodeIssue (portIssue (.createDevice da baud data stop start)) = .ok (.createDevice da baud data stop start) := by
  rw [decodeIssue_portIssue rfl, decode_createDevice (opcOf_encode _), formatH0_zero (lowOf_encode _), daOf_encode]
  rfl

theorem decodeIssue_connect (da db : SlotIx) : decodeIssue (portIssue (.connect da db)) = .ok (.connect da db) := by
  rw [decodeIssue_portIssue rfl, decode_connect (opcOf_encode _), daOf_encode, lowOf_encode]
  rfl

theorem decodeIssue_tick (da : SlotIx) (num den : Word) :
    decodeIssue (portIssue (.tick da num den)) = .ok (.tick da num den) := by
  rw [decodeIssue_portIssue rfl, decode_tick (opcOf_encode _), formatH0_zero (lowOf_encode _), daOf_encode]
  rfl

theorem decodeIssue_step (da : SlotIx) : decodeIssue (portIssue (.step da)) = .ok (.step da) := by
  rw [decodeIssue_portIssue rfl, decode_step (opcOf_encode _), formatH0_zero (lowOf_encode _), daOf_encode]
  rfl

/-- One step of a run, where the next command decodes and its operation answers `t`. -/
theorem run_issue {c : Issue} (hp : s.pending = c :: rest) (hr : s.refused = none) (hd : decodeIssue c = .ok i)
    (hx : exec i { s with pending := rest } = .next t) : core.run (k + 1) s = core.run k t := by
  have hr' : s.refused.isSome = false := by rw [hr]; rfl
  have hnext : runNext s = .next t := by
    simp only [runNext, hp, hr', Bool.false_eq_true, if_false, hd, hx]
  have hstep : core.step s = .next t := hnext
  simp only [Host.Core.run, hstep]

/-- A run of k + j steps is a run of k steps, where that answers a next state, and then one of j. -/
theorem run_add {k j : Nat} (h : core.run k s = .next t) : core.run (k + j) s = core.run j t := by
  induction k generalizing s with
  | zero => cases h; rw [Nat.zero_add]
  | succ k ih =>
    rw [Nat.add_right_comm]
    simp only [Host.Core.run] at h ⊢
    cases hs : core.step s with
    | next u => simp only [hs] at h ⊢; exact ih h
    | fault r => simp only [hs] at h; cases h
    | refused r => simp only [hs] at h; cases h

end Sys2Proof.Machine
end

