-- ==== Sys2Proof/Laws/Memory.lean ====
section
/-! SUPPORT. The canonical form of the storage (`Memory.wf`): the reset state has it, and every operation over the
storage keeps it. -/

namespace Sys2Proof.Machine

variable {s t : State} {d : Nat} {D D' : Device}

theorem reset_memory_wf : Memory.wf State.reset := by decide

/-- A block built with any parameters has it. -/
theorem build_memory_wf (p : Params) : Memory.wf (State.build p) := ⟨List.Pairwise.nil, fun _ he => nomatch he⟩

/-- It is a property of the device table alone. -/
theorem memory_wf_congr (hd : t.dev = s.dev) (h : Memory.wf s) : Memory.wf t := by simpa only [Memory.wf, hd] using h

/-- The device in a slot has canonical queues. -/
theorem memory_wf_device (h : Memory.wf s) (hd : devAt s d = some D) : tableWf D.tx.slots ∧ tableWf D.rx.slots :=
  h.2 _ (mem_of_devAt hd)

/-- Writing a device slot keeps it, where the device written has canonical queues. -/
theorem memory_wf_putDev (h : Memory.wf s) (hq : tableWf D.tx.slots ∧ tableWf D.rx.slots) : Memory.wf (putDev s d D) := by
  refine ⟨tableWf_put h.1 _ _, fun e he => ?_⟩
  rcases mem_tablePut he with rfl | he
  · exact hq
  · exact h.2 e he

/-- Replacing a queue of a device by one that a queue primitive made of it keeps it. -/
theorem memory_wf_withQueue {N : Nat} {qs : QSel} {q : Queue} (h : Memory.wf s) (hd : devAt s d = some D)
    (hq : QueueKept N (queueOf D qs) q) : Memory.wf (putDev s d (withQueue D q qs)) := by
  obtain ⟨h1, h2⟩ := memory_wf_device h hd
  refine memory_wf_putDev h ?_
  cases qs
  · exact ⟨hq.1 h1, h2⟩
  · exact ⟨h1, hq.1 h2⟩

theorem memory_wf_useCount (h : Memory.wf s) (n : Nat) : Memory.wf (useCount s n) := memory_wf_congr (useCount_dev s n) h

theorem memory_wf_updateStateOf (h : Memory.wf s) (hd : devAt s d = some D) : Memory.wf (updateStateOf s d D) := by
  have hq := memory_wf_device h hd
  exact memory_wf_congr (s := putDev s d { D with state := computedState D }) rfl (memory_wf_putDev h hq)

theorem memory_wf_handleTransmit (h : Memory.wf s) (hd : devAt s d = some D) (s0 : DeviceState) :
    Memory.wf (handleTransmit s d D s0).state := by
  refine (handleTransmit_writes D.peer s d D s0 ⟨D, hd, rfl⟩).1.memory_wf ?_ h
  rintro e A A' (⟨-, st, q, hq, rfl⟩ | ⟨-, q, hq, rfl⟩) ⟨h1, h2⟩
  · exact ⟨hq.1 h1, h2⟩
  · exact ⟨h1, hq.1 h2⟩

theorem memory_wf_handleReceive (h : Memory.wf s) (hd : devAt s d = some D) (s0 : DeviceState) :
    Memory.wf (handleReceive s d D s0).state := by
  obtain ⟨h1, h2⟩ := memory_wf_device h hd
  obtain ⟨st, rx, rxb, hq, -, hf⟩ := receiveDevice_fields s.params D s0
  exact memory_wf_putDev h (by rw [hf]; exact ⟨h1, hq.1 h2⟩)

end Sys2Proof.Machine
end

