-- ==== Sys2Proof/Laws/PerInstr.lean ====
section
/-! SUPPORT. Laws of every instruction as syntax, one lemma for each constructor of `Instr`.

`PayloadLength`: the encoding of a well-formed instruction has exactly the payload words whose presence follows from
its OPC, and then those whose presence follows from P0, so that a byte transport can cut the command out of a stream
(`30_encoding.md` R67, R76, R82). -/

namespace Sys2Proof.Laws.PayloadLength

open Sys2Proof

/-- The payload of a command has the length that its OPC and its P0 call for. -/
def Statement (i : Instr) : Prop :=
  i.wf = true →
    (encode i).payload.length =
      fixedWords (opcOf (encode i).cw) + countedWords (opcOf (encode i).cw) ((encode i).payload.headD 0).toNat

theorem createDevice (da : SlotIx) (baud data stop start : Word) : Statement (.createDevice da baud data stop start) :=
  fun _ => by rw [opcOf_encode]; rfl

theorem connect (da db : SlotIx) : Statement (.connect da db) := fun _ => by rw [opcOf_encode]; rfl

theorem enqueueTransmit (da : SlotIx) (bits : List Bit) : Statement (.enqueueTransmit da bits) := fun h => by
  have hl : fitsWord bits.length := by simpa [Instr.wf] using h
  rw [opcOf_encode]
  show (packBits bits).length + 1 = 1 + wordsFor (BitVec.ofNat 32 bits.length).toNat
  rw [ofNat_toNat_of_fits hl, packBits_length, Nat.add_comm]

theorem tick (da : SlotIx) (num den : Word) : Statement (.tick da num den) := fun _ => by rw [opcOf_encode]; rfl

theorem step (da : SlotIx) : Statement (.step da) := fun _ => by rw [opcOf_encode]; rfl

theorem drainReceived (da : SlotIx) : Statement (.drainReceived da) := fun _ => by rw [opcOf_encode]; rfl

theorem isReady (da : SlotIx) : Statement (.isReady da) := fun _ => by rw [opcOf_encode]; rfl

theorem resetClock (da : SlotIx) : Statement (.resetClock da) := fun _ => by rw [opcOf_encode]; rfl

theorem updateState (da : SlotIx) : Statement (.updateState da) := fun _ => by rw [opcOf_encode]; rfl

theorem handleTransmit (da : SlotIx) : Statement (.handleTransmit da) := fun _ => by rw [opcOf_encode]; rfl

theorem handleReceive (da : SlotIx) : Statement (.handleReceive da) := fun _ => by rw [opcOf_encode]; rfl

theorem peerPush (da : SlotIx) (v : Bit) : Statement (.peerPush da v) := fun _ => by rw [opcOf_encode]; rfl

theorem qInit (da : SlotIx) (qs : QSel) : Statement (.qInit da qs) := fun _ => by rw [opcOf_encode]; rfl

theorem qPush (da : SlotIx) (qs : QSel) (v : Bit) : Statement (.qPush da qs v) := fun _ => by rw [opcOf_encode]; rfl

theorem qPop (da : SlotIx) (qs : QSel) : Statement (.qPop da qs) := fun _ => by rw [opcOf_encode]; rfl

theorem qPeek (da : SlotIx) (qs : QSel) : Statement (.qPeek da qs) := fun _ => by rw [opcOf_encode]; rfl

theorem qReset (da : SlotIx) (qs : QSel) : Statement (.qReset da qs) := fun _ => by rw [opcOf_encode]; rfl

theorem qIsEmpty (da : SlotIx) (qs : QSel) : Statement (.qIsEmpty da qs) := fun _ => by rw [opcOf_encode]; rfl

theorem qIsFull (da : SlotIx) (qs : QSel) : Statement (.qIsFull da qs) := fun _ => by rw [opcOf_encode]; rfl

theorem bytesToBits (bytes : List Byte) : Statement (.bytesToBits bytes) := fun h => by
  have hl : fitsWord bytes.length := by simpa [Instr.wf] using h
  rw [opcOf_encode]
  show (bytes.map _).length + 1 = 1 + (BitVec.ofNat 32 bytes.length).toNat
  rw [ofNat_toNat_of_fits hl, List.length_map, Nat.add_comm]

theorem bitsToByte (bits : List Bit) : Statement (.bitsToByte bits) := fun h => by
  have hl : fitsWord bits.length := by simpa [Instr.wf] using h
  rw [opcOf_encode]
  show (packBits bits).length + 1 = 1 + wordsFor (BitVec.ofNat 32 bits.length).toNat
  rw [ofNat_toNat_of_fits hl, packBits_length, Nat.add_comm]

end Sys2Proof.Laws.PayloadLength
end

