-- ==== Sys2Proof/Laws/Step.lean ====
section
/-! SUPPORT. What a ready step does (`43_framing.md` R127 to R130). -/

namespace Sys2Proof.Machine

variable {s t : State} {d p : Nat} {D P : Device}

/-- The state after a chain of writes and `UPDATE_STATE` meets the invariant. -/
theorem inv_updateStateOf (h : s.Inv) (hd : devAt s d = some D) : (updateStateOf s d (resetClock D)).Inv := by
  have hw := inv_deviceWf h hd
  have hput : (putDev s d (stepStarted D)).Inv := inv_putDev h (devAt_lt hd) hw
  exact inv_congr (s := putDev s d (stepStarted D)) rfl rfl hput

/-- The sender's own device after a transmit phase, whether it has a peer or not (R115, R119). -/
theorem handleTransmit_sender (h : s.Inv) (hd : devAt s d = some D) (s0 : DeviceState) :
    ∃ q, queueWf s.params.nTx q ∧
      contents s.params.nTx q =
        (if transmits s0 then (contents s.params.nTx D.tx).drop D.dataBits.toNat else contents s.params.nTx D.tx) ∧
      Touched (d :: D.peer.toList) s (handleTransmit s d D s0).state ∧
      devAt (handleTransmit s d D s0).state d =
        some { D with tx := q, state := if transmits s0 then .idle else D.state } := by
  obtain ⟨-, hpeer, htx, -⟩ := inv_deviceWf h hd
  by_cases hs0 : transmits s0 = true
  · simp only [hs0, if_true]
    rcases hp : D.peer with _ | p
    · obtain ⟨q, h1, h2, -, -, -, h6, h7⟩ := handleTransmit_no_peer hd hp htx hs0
      exact ⟨q, h1, h2, h6.mono (by simp), hp ▸ h7⟩
    · obtain ⟨hne, hex⟩ := hpeer p hp
      obtain ⟨P, hP⟩ := Option.isSome_iff_exists.1 hex
      obtain ⟨q, h1, h2, -, -, -, h6, h7, -⟩ := handleTransmit_peer hd hp hne hP htx hs0
      exact ⟨q, h1, h2, h6.mono (by simp), hp ▸ h7⟩
  · have hf : transmits s0 = false := by simpa using hs0
    rw [handleTransmit_idle hf]
    simp only [hf, Bool.false_eq_true, if_false]
    exact ⟨D.tx, htx, rfl, Touched.refl _ _, hd⟩

/-- A ready step of slot `d`: with `A` the device after its transmit phase, the receive phase runs on `A`, the response
holds the results of the two phases, and only `d` and its peer slot change. -/
theorem readyStep_spec (h : s.Inv) (hd : devAt s d = some D) :
    ∃ q t, queueWf s.params.nTx q ∧
      contents s.params.nTx q = (if transmits (computedState D) then (contents s.params.nTx D.tx).drop D.dataBits.toNat
        else contents s.params.nTx D.tx) ∧
      readyStep s d D = .next t ∧ SameHost s t ∧ t.s0 = computedState D ∧
      SameSlotsBut (d :: D.peer.toList) s t ∧
      (handleTransmit (updateStateOf s d (resetClock D)) d (stepStarted D) (computedState D)).state.params = s.params ∧
      (let A : Device := { stepStarted D with
          tx := q, state := if transmits (computedState D) then .idle else computedState D }
       let tx := handleTransmit (updateStateOf s d (resetClock D)) d (stepStarted D) (computedState D)
       let rx := receiveDevice s.params A (computedState D)
       devAt tx.state d = some A ∧ devAt t d = some rx.1 ∧ (∀ e, e ≠ d → devAt t e = devAt tx.state e) ∧
       t.out = .response [stepStatus true (computedState D) rx.1.state tx.txr rx.2.1 tx.nopeer,
         BitVec.ofNat 32 rx.2.2, countWord (putDev tx.state d rx.1) tx.lost] ∧
       t.free = (useCount (putDev tx.state d rx.1) tx.lost).free ∧
       t.dev = tablePut tx.state.dev d rx.1) := by
  have hlt := devAt_lt hd
  have hd1 : devAt (updateStateOf s d (resetClock D)) d = some (stepStarted D) := devAt_updateStateOf_same hlt _
  obtain ⟨q, hq1, hq2, htx, hA⟩ := handleTransmit_sender (inv_updateStateOf h hd) hd1 (computedState D)
  have hcur : currentDevice (handleTransmit (updateStateOf s d (resetClock D)) d (stepStarted D) (computedState D)).state d
      (stepStarted D) = { stepStarted D with
        tx := q, state := if transmits (computedState D) then .idle else computedState D } := by
    simp only [currentDevice, hA, Option.getD_some]; rfl
  have hpar := htx.params
  simp only [readyStep, hcur]
  generalize hT : handleTransmit (updateStateOf s d (resetClock D)) d (stepStarted D) (computedState D) = tx at *
  have hlt' : d < tx.state.params.ndev := by rw [hpar]; exact hlt
  have hfin : currentDevice (handleReceive tx.state d { stepStarted D with
      tx := q, state := if transmits (computedState D) then .idle else computedState D } (computedState D)).state d D =
      (receiveDevice s.params { stepStarted D with
        tx := q, state := if transmits (computedState D) then .idle else computedState D } (computedState D)).1 := by
    simp only [currentDevice, handleReceive, devAt_putDev_same hlt', Option.getD_some, hpar]; rfl
  refine ⟨q, _, hq1, hq2, rfl, ?_, ?_, ?_, hpar, ?_⟩
  · obtain ⟨⟨a1, a2, a3⟩, -, -⟩ := htx.same
    exact ⟨(useCount_params _ _).trans a1, (useCount_refused _ _).trans a2, (useCount_pending _ _).trans a3⟩
  · exact (useCount_s0 _ _).trans htx.same.2.1
  · intro e he
    refine (devAt_useCount _ _ _).trans ?_
    have hne : e ≠ d := fun h => he (h ▸ List.mem_cons_self)
    rw [handleReceive, devAt_putDev_ne _ hne, htx.slots e he, devAt_updateStateOf_ne _ hne]
  · have hpar' : tx.state.params = s.params := hpar
    refine ⟨hA, ?_, ?_, ?_, ?_, ?_⟩
    · refine (devAt_useCount _ _ _).trans ?_
      rw [handleReceive, devAt_putDev_same hlt', hpar']
    · intro e hne
      refine (devAt_useCount _ _ _).trans ?_
      rw [handleReceive, devAt_putDev_ne _ hne]
    · show Output.response (stepResponse _ _ _ _) = _
      rw [hfin]; simp only [stepResponse, handleReceive, hpar']
    · show (useCount _ _).free = _
      simp only [handleReceive, hpar']
    · refine (useCount_dev _ _).trans ?_
      simp only [handleReceive, hpar', putDev_dev]

/-- The receive phase of a step ends Idle: of a device that is Idle before it, and of one that is Receiving with bits
queued and S0 Receiving (R126, R128). -/
theorem receiveDevice_state {p : Params} {A : Device} {s0 : DeviceState} (hw : queueWf p.nRx A.rx)
    (h : A.state = .idle ∨ (A.state = .receiving ∧ s0 = .receiving ∧ A.rx.count ≠ 0)) :
    (receiveDevice p A s0).1.state = .idle := by
  obtain ⟨q, -, -, -, hd⟩ := deframe_spec (p := p) hw
  by_cases hr : receives (receiveGuard p A s0) = true
  · simp only [receiveDevice, hr, if_true, hd, received]
    split
    · next he =>
      rcases h with h | ⟨-, -, h⟩
      · exact h
      · exact absurd he (readFrame_ne_empty _ _ (mt contents_eq_nil.1 h))
    · rfl
  · have hr' : receives (receiveGuard p A s0) = false := by simpa using hr
    simp only [receiveDevice, hr', Bool.false_eq_true, if_false]
    rcases h with h | ⟨h1, h2, -⟩
    · exact h
    · rw [receiveGuard] at hr'
      split at hr'
      · rw [h2] at hr'; cases hr'
      · rw [h1] at hr'; cases hr'

/-- The receive phase does not report EMPTY where bits are queued or it does not run (R126). -/
theorem receiveDevice_ne_empty {p : Params} {A : Device} {s0 : DeviceState} (hw : queueWf p.nRx A.rx)
    (h : receives (receiveGuard p A s0) = true → A.rx.count ≠ 0) : (receiveDevice p A s0).2.1 ≠ .empty := by
  obtain ⟨q, -, -, -, hd⟩ := deframe_spec (p := p) hw
  by_cases hr : receives (receiveGuard p A s0) = true
  · simp only [receiveDevice, hr, if_true, hd]
    exact readFrame_ne_empty _ _ (mt contents_eq_nil.1 (h hr))
  · simp [receiveDevice, hr]

/-- The state UPDATE_STATE computes of an Idle device (R111). -/
theorem computedState_idle (h : D.state = .idle) : computedState D =
    if D.tx.count = 0 then (if D.rx.count = 0 then .idle else .receiving)
    else (if D.rx.count = 0 then .transmitting else .transmittingAndReceiving) := by
  by_cases ht : D.tx.count = 0 <;> by_cases hr : D.rx.count = 0 <;> simp [computedState, qIsEmpty, ht, hr, h]

/-- A ready STEP is its ready step (R127). -/
theorem exec_step_ready {da : SlotIx} (hd : devAt s (slotIndex da) = some D) (hr : D.clock ≤ 0) :
    exec (.step da) s = readyStep s (slotIndex da) D := by
  have hready : isReady D = true := by simpa [isReady] using hr
  show onDevice s da _ = _
  rw [onDevice_some hd, hready]; rfl

end Sys2Proof.Machine
end

