-- ==== Sys2Proof/Tests/Slice0.lean ====
section
/-! SUPPORT. Tests of the model, each about one instruction or one check, and a witness for the hypotheses of each
obligation.  Expected values come from the encoding tables of `30_encoding.md` and the vectors of
`95_test_vectors.md`, whose numbers (K5, T1, X1, ...) the docstrings name. -/

namespace Sys2Proof.Tests

set_option Elab.async false

open Sys2Proof Sys2Proof.Machine

/-! ### Helpers -/

/-- The `n` bits of a number, most significant first. -/
def nbits (n v : Nat) : List Bit := (List.range n).map fun i => v.testBit (n - 1 - i)

/-- A queue of capacity `N` with head position `r` that holds a sequence. -/
def holds (N r : Nat) (bits : List Bit) : Queue :=
  { slots := (bits.zipIdx).foldl (fun t e => tablePut t ((r + e.2) % N) e.1) []
    rpos := r
    wpos := (r + bits.length) % N
    count := bits.length }

/-- A device made by `create d, 9600, 8, 1, 1`, ready, with these sequences queued. -/
def dev (tx rx : List Bit) : Device := { newDevice 9600 8 1 1 with clock := 0, tx := holds 128 0 tx, rx := holds 16 0 rx }

/-- Two linked devices, 0 and 1. -/
def pair (d0 d1 : Device) : State :=
  { State.reset with dev := [(0, { d0 with peer := some 1 }), (1, { d1 with peer := some 0 })] }

/-- One device with no peer, and a free slot 1. -/
def alone (d0 : Device) : State := { State.reset with dev := [(0, d0)] }

/-- The default parameters with a transmit queue of 4 bits. -/
def smallParams : Params := { Config.defaultParams with nTx := 4 }

/-- One device whose transmit queue of capacity 4 is `q`. -/
def small (q : Queue) : State := { State.build smallParams with dev := [(0, { newDevice 9600 8 1 1 with tx := q })] }

/-- What an observation gives after an operation that answers a next state. -/
def after {α : Type} (o : Host.Outcome State Fault Refusal) (f : State → α) : Option α :=
  match o with
  | .next s => some (f s)
  | .fault _ => none
  | .refused _ => none

/-- What a field of a device slot gives. -/
def field {α : Type} (d : Nat) (f : Device → α) (s : State) : Option α := (devAt s d).map f

/-! ### Well-formedness: an ill-formed term for each check is refused -/

theorem test_wf_enqueue_too_long : (Instr.enqueueTransmit 0 (List.replicate (2 ^ 32) false)).wf = false := by
  simp [Instr.wf, -List.reduceReplicate]

theorem test_wf_bytesToBits_too_long : (Instr.bytesToBits (List.replicate (2 ^ 32) 0)).wf = false := by
  simp [Instr.wf, -List.reduceReplicate]

theorem test_wf_bitsToByte_too_long : (Instr.bitsToByte (List.replicate (2 ^ 32) true)).wf = false := by
  simp [Instr.wf, -List.reduceReplicate]

theorem test_wf_accepts : (Instr.enqueueTransmit 15 (nbits 33 0x1FFFFFFFF)).wf = true := by decide

/-! ### Decoding: words written out from R61, R63, R67, R75 and R82, one for each row of the opcode map -/

theorem test_decode_createDevice :
    decode ⟨0b0000000100010000, [9600, 8, 1, 1]⟩ = .ok (.createDevice 1 9600 8 1 1) := by decide

theorem test_decode_connect : decode ⟨0b0000001000000001, []⟩ = .ok (.connect 0 1) := by decide

/-- N5's neighbour: 33 bits, of which the last is bit 31 of the second word. -/
theorem test_decode_enqueueTransmit :
    decode ⟨0b0000001100000000, [33, 0x48000001, 0x80000000]⟩ =
      .ok (.enqueueTransmit 0 (nbits 32 0x48000001 ++ [true])) := by decide

theorem test_decode_tick : decode ⟨0b0000010000010000, [1, 0x3C0]⟩ = .ok (.tick 1 1 960) := by decide

theorem test_decode_step : decode ⟨0b0000010100010000, []⟩ = .ok (.step 1) := by decide

theorem test_decode_drainReceived : decode ⟨0b0000011011110000, []⟩ = .ok (.drainReceived 15) := by decide

theorem test_decode_isReady : decode ⟨0b0100000000010000, []⟩ = .ok (.isReady 1) := by decide

theorem test_decode_resetClock : decode ⟨0b0100000100000000, []⟩ = .ok (.resetClock 0) := by decide

theorem test_decode_updateState : decode ⟨0b0100001000100000, []⟩ = .ok (.updateState 2) := by decide

theorem test_decode_handleTransmit : decode ⟨0b0100001100010000, []⟩ = .ok (.handleTransmit 1) := by decide

theorem test_decode_handleReceive : decode ⟨0b0100010000010000, []⟩ = .ok (.handleReceive 1) := by decide

theorem test_decode_peerPush : decode ⟨0b0100010101010000, [1]⟩ = .ok (.peerPush 5 true) := by decide

theorem test_decode_qInit : decode ⟨0b1000000000000001, []⟩ = .ok (.qInit 0 .rx) := by decide

theorem test_decode_qPush : decode ⟨0b1000000100110001, [0xFFFFFFFE]⟩ = .ok (.qPush 3 .rx false) := by decide

theorem test_decode_qPop : decode ⟨0b1000001000000000, []⟩ = .ok (.qPop 0 .tx) := by decide

theorem test_decode_qPeek : decode ⟨0b1000001100000001, []⟩ = .ok (.qPeek 0 .rx) := by decide

theorem test_decode_qReset : decode ⟨0b1000010000010000, []⟩ = .ok (.qReset 1 .tx) := by decide

theorem test_decode_qIsEmpty : decode ⟨0b1000010100000001, []⟩ = .ok (.qIsEmpty 0 .rx) := by decide

theorem test_decode_qIsFull : decode ⟨0b1000011000010001, []⟩ = .ok (.qIsFull 1 .rx) := by decide

theorem test_decode_bytesToBits : decode ⟨0b1100000000000000, [2, 0x48, 0x69]⟩ = .ok (.bytesToBits [0x48, 0x69]) := by
  decide

theorem test_decode_bitsToByte :
    decode ⟨0b1100000100000000, [8, 0xA5000000]⟩ = .ok (.bitsToByte [true, false, true, false, false, true, false, true]) := by
  decide

/-- F5, F6, F9 and N5: a reserved field, a reserved OPC, a missing P1, a bit word too few. -/
theorem test_decode_rejects :
    decode ⟨0x0501, []⟩ = .error .reservedField ∧ decode ⟨0x0700, []⟩ = .error .illegalOpcode ∧
    decode ⟨0x3F00, []⟩ = .error .illegalOpcode ∧ decode ⟨0x0400, [1]⟩ = .error .shortPayload ∧
    decode ⟨0x0300, [33, 0xFFFFFFFF]⟩ = .error .shortPayload := by decide

/-- F7 and F8: the port refuses a micro-operation and a helper. -/
theorem test_port_rejects :
    decodeIssue ⟨.port, ⟨0x8100, [1]⟩⟩ = .error .illegalOpcode ∧
    decodeIssue ⟨.port, ⟨0xC000, []⟩⟩ = .error .illegalOpcode := by decide

/-- The bytes of `create 0, 9600, 8, 1, 1` as the vectors write them, with one byte behind. -/
theorem test_decodeBytes :
    decodeBytes [0x01, 0x00, 0, 0, 0x25, 0x80, 0, 0, 0, 8, 0, 0, 0, 1, 0, 0, 0, 1, 0x05] =
      .ok (.createDevice 0 9600 8 1 1, [0x05]) := by decide

/-- R80 and R81: the text forms of E3. -/
theorem test_assemble :
    assembleLine "create 0, 9600, 8, 1, 1     ; a comment".toList = some [.createDevice 0 9600 8 1 1] ∧
    assembleLine "connect 0, 1".toList = some [.connect 0 1] ∧
    assembleLine "tick 1, 1/960".toList = some [.tick 1 1 960] ∧
    assembleLine "send 0, 0x48".toList = some [.enqueueTransmit 0 (nbits 8 0x48)] ∧
    assembleLine "iter 0, 1, 1/960".toList = some [.tick 0 1 960, .tick 1 1 960, .step 0, .step 1] := by decide +kernel

theorem test_decodeTableWord :
    decodeTableWord 80 (0x0410 + 1 <<< 16 + 960 <<< 48) = some (.tick 1 1 960) ∧
    decodeTableWord 16 0x4010 = some (.isReady 1) ∧ decodeTableWord 16 0x0501 = none := by decide

/-- The word placed by `withFetchWord` is what the next step runs, here CREATE_DEVICE on the reset state. -/
theorem test_withFetchWord :
    after (Machine.step (State.reset.withFetchWord 144 (0x0100 + 9600 <<< 16 + 8 <<< 48 + 1 <<< 80 + 1 <<< 112)))
      (field 0 Device.bitsPerFrame) = some (some 10) := by decide +kernel

/-! ### Building (R8, Q10) -/

theorem test_build_bad_capacity : (State.build { Config.defaultParams with nTx := 3 }).refused = some .badCapacity := by
  decide

/-! ### One step of each instruction -/

/-- K2: bits_per_frame 11, time_per_byte 11/9600. -/
theorem test_createDevice :
    after (exec (.createDevice 0 9600 8 2 1) State.reset) (field 0 fun D => (D.bitsPerFrame, D.timePerByte, D.clock)) =
      some (some (11, 11 / 9600, 11 / 9600)) := by decide +kernel

/-- F2. -/
theorem test_createDevice_badConfig :
    after (exec (.createDevice 0 9600 0 1 1) State.reset) State.refused = some (some .badConfig) := by decide +kernel

/-- C1, on both sides. -/
theorem test_connect :
    after (exec (.connect 0 1) { State.reset with dev := [(0, dev [] []), (1, dev [] [])] })
      (fun s => (field 0 Device.peer s, field 1 Device.peer s)) = some (some (some 1), some (some 0)) := by decide +kernel

/-- C5. -/
theorem test_connect_badSlot :
    after (exec (.connect 0 1) (alone (dev [] []))) State.refused = some (some .badSlot) := by decide +kernel

/-- N3, with room for three of eight bits. -/
theorem test_enqueueTransmit :
    after (exec (.enqueueTransmit 0 (nbits 8 0)) { State.build { Config.defaultParams with nTx := 8 } with
        dev := [(0, { newDevice 9600 8 1 1 with tx := holds 8 0 (nbits 5 31) })] })
      (fun s => (s.out, field 0 (fun D => contents 8 D.tx) s)) =
      some (.response [3], some (nbits 8 0xF8)) := by decide +kernel

/-- K7's tick: 1/960 - 3/1920 = -1/1920. -/
theorem test_tick :
    after (exec (.tick 0 3 1920) (alone (newDevice 9600 8 1 1))) (field 0 Device.clock) = some (some (-1 / 1920)) := by
  decide +kernel

/-- K9. -/
theorem test_tick_badTime :
    after (exec (.tick 0 1 0) (alone (newDevice 9600 8 1 1))) State.refused = some (some .badTime) := by decide +kernel

/-- P6, second step: 0x227 and the byte 0x4F, with the sender's frame on the other side. -/
theorem test_step :
    after (exec (.step 1) (pair (dev [] []) (dev (nbits 8 0x4B) (nbits 10 0x09F)))) State.out =
      some (.response [0x227, 0x4F, 0]) := by decide +kernel

/-- K16: the same with RX_GUARD = LIVE. -/
theorem test_step_live :
    after (exec (.step 1) { pair (dev [] []) (dev (nbits 8 0x4B) (nbits 10 0x09F)) with
        params := { Config.defaultParams with rxGuard := .live } }) State.out =
      some (.response [0x027, 0, 0]) := by decide +kernel

/-- N6. -/
theorem test_drainReceived :
    after (exec (.drainReceived 1) (pair (dev [] []) { dev [] [] with rxb := [0x48, 0x69] }))
      (fun s => (s.out, field 1 Device.rxb s)) = some (.response [2, 0x48, 0x69], some []) := by decide +kernel

/-- K6: a clock of exactly 0 is ready. -/
theorem test_isReady : after (exec (.isReady 0) (alone (dev [] []))) State.out = some (.flag true) := by decide +kernel

/-- K7: the residue is dropped. -/
theorem test_resetClock :
    after (exec (.resetClock 0) (alone { dev [] [] with clock := -1 / 1920 })) (field 0 Device.clock) =
      some (some (1 / 960)) := by decide +kernel

/-- K14 and R112: an Idle device with empty queues stays as it is, one with a bit received is Receiving. -/
theorem test_updateState :
    after (exec (.updateState 0) (alone (dev [] [false]))) (fun s => (s.out, s.s0, field 0 Device.state s)) =
      some (.newState .receiving, .receiving, some .receiving) := by decide +kernel

/-- T5: twelve bits wait, four pushes succeed, six are lost. -/
theorem test_handleTransmit_lost :
    after (exec (.handleTransmit 0) { pair (dev (nbits 8 0x48) []) (dev [] (nbits 12 0xFFF)) with s0 := .transmitting })
      (fun s => (s.out, field 1 (fun D => contents 16 D.rx) s)) =
      some (.transmit .sent false 6, some (nbits 16 0xFFF2)) := by decide +kernel

/-- T2: an underrun after three data bits. -/
theorem test_handleTransmit_underrun :
    after (exec (.handleTransmit 0) { pair (dev (nbits 3 5) []) (dev [] []) with s0 := .transmitting })
      (fun s => (s.out, field 1 (fun D => contents 16 D.rx) s)) =
      some (.transmit .underrun false 0, some (nbits 4 5)) := by decide +kernel

/-- X6: one frame only. -/
theorem test_handleReceive :
    after (exec (.handleReceive 1) { pair (dev [] []) (dev [] (nbits 12 0x00D)) with s0 := .receiving })
      (fun s => (s.out, field 1 (fun D => (contents 16 D.rx, D.rxb)) s)) =
      some (.receive .byte 1, some (nbits 2 1, [1])) := by decide +kernel

/-- X8: the last eight of ten data bits. -/
theorem test_handleReceive_wide :
    after (exec (.handleReceive 1) { pair (dev [] [])
        { newDevice 9600 10 1 1 with clock := 0, rx := holds 16 0 (nbits 12 0x6AB) } with s0 := .receiving }) State.out =
      some (.receive .byte 0x55) := by decide +kernel

/-- R144: the bit is the peer's last received bit. -/
theorem test_peerPush :
    after (exec (.peerPush 0 true) (pair (dev [] []) (dev [] [false])))
      (fun s => (s.out, field 1 (fun D => contents 16 D.rx) s)) = some (.pushed true false, some [false, true]) := by
  decide +kernel

/-- R145: no peer. -/
theorem test_peerPush_no_peer :
    after (exec (.peerPush 0 true) (alone (dev [] []))) State.out = some (.pushed false true) := by decide +kernel

/-- Q1. -/
theorem test_qInit :
    after (exec (.qInit 0 .tx) (small (holds 4 2 [true, false, true])))
      (field 0 fun D => (D.tx.count, D.tx.rpos, D.tx.wpos)) = some (some (0, 0, 0)) := by decide +kernel

/-- Q2: across the wrap. -/
theorem test_qPush :
    after (exec (.qPush 0 .tx true) (small (holds 4 2 [true, false, true])))
      (field 0 fun D => (D.tx.slots, D.tx.wpos, D.tx.count)) =
      some (some ([(0, true), (1, true), (2, true), (3, false)], 2, 4)) := by decide +kernel

/-- Q3: a full queue. -/
theorem test_qPush_full :
    after (exec (.qPush 0 .tx false) (small (holds 4 2 [true, false, true, true]))) (fun s => (s.out, field 0 Device.tx s)) =
      some (.flag false, some (holds 4 2 [true, false, true, true])) := by decide +kernel

/-- Q4: the read position wraps. -/
theorem test_qPop :
    after (exec (.qPop 0 .tx) (small (holds 4 3 [false, true]))) (fun s => (s.out, field 0 (fun D => (D.tx.rpos, D.tx.count)) s)) =
      some (.bit (some false), some (0, 1)) := by decide +kernel

/-- Q6. -/
theorem test_qPeek :
    after (exec (.qPeek 0 .tx) (small (holds 4 0 [false, true]))) State.out = some (.bit (some false)) := by decide +kernel

/-- Q9. -/
theorem test_qReset :
    after (exec (.qReset 0 .tx) (small (holds 4 0 [true, true, false]))) (field 0 fun D => (D.tx.count, D.tx.rpos, D.tx.wpos)) =
      some (some (0, 0, 0)) := by decide +kernel

/-- R96, on the other queue. -/
theorem test_qIsEmpty : after (exec (.qIsEmpty 0 .rx) (alone (dev [true] []))) State.out = some (.flag true) := by
  decide +kernel

/-- E1: full after N pushes, and not before. -/
theorem test_qIsFull :
    after (exec (.qIsFull 0 .tx) (small (holds 4 0 (nbits 4 11)))) State.out = some (.flag true) ∧
    after (exec (.qIsFull 0 .tx) (small (holds 4 0 (nbits 3 5)))) State.out = some (.flag false) := by decide +kernel

/-- B3. -/
theorem test_bytesToBits :
    after (exec (.bytesToBits [0x00, 0xFF, 0x80]) State.reset) State.out = some (.bits (nbits 24 0x00FF80)) := by decide

/-- B4. -/
theorem test_bitsToByte : after (exec (.bitsToByte (nbits 8 0xA5)) State.reset) State.out = some (.byte 0xA5) := by decide

/-- B6. -/
theorem test_bitsToByte_badLength :
    after (exec (.bitsToByte (nbits 7 0x55)) State.reset) State.refused = some (some .badLength) := by decide

/-- B5. -/
theorem test_bitsToBytes : bitsToBytes (nbits 16 0x01FE) = some [0x01, 0xFE] := by decide

/-- R156: T5's response, a receive underrun and a sender with no peer, and an enqueue that was cut short (N3). -/
theorem test_events :
    stepEvents 0x023 6 = [.bufferOverflow] ∧ stepEvents 0x405 0 = [.bufferUnderrun] ∧
    stepEvents 0x305 0 = [.framingError] ∧ stepEvents 0x823 10 = [.noPeer] ∧ enqueueEvents 8 3 = [.bufferOverflow] := by
  decide

/-- R35: bits_per_frame and the state by number, a number past the table, and a slot that does not exist. -/
theorem test_regRead :
    regRead (alone (dev [] [])) 0 0x04 = some (.nat 10) ∧ regRead (alone (dev [] [])) 0 0x06 = some (.state .idle) ∧
    regRead (alone (dev [] [])) 0 0x10 = none ∧ regRead (alone (dev [] [])) 1 0x04 = none := by decide +kernel

/-! ### Witnesses: for each obligation with hypotheses, states and operands that meet them -/

theorem witness_DecodeEncodeGivesBackInstruction :
    (Instr.enqueueTransmit 15 (nbits 33 1)).wf = true ∧ (Instr.bytesToBits []).wf = true := by decide

theorem witness_DecodedInstructionHasSameCommandWord : decode ⟨0x02FF, []⟩ = .ok (.connect 15 15) := by decide

/-- One command for each clause, at both ends of its range. -/
theorem witness_ReservedEncodingsHaveNoMeaning :
    (opcOf 0x0000 = 0 ∧ opcOf 0x0700 = 7 ∧ opcOf 0xFF00 = 255) ∧
    (opcOf 0x0101 = 0x01 ∧ lowOf 0x0101 ≠ 0 ∧ opcOf 0x450F = 0x45 ∧ lowOf 0x450F ≠ 0) ∧
    (opcOf 0x8002 = 0x80 ∧ 2 ≤ (lowOf 0x8002).toNat ∧ opcOf 0x860F = 0x86 ∧ 2 ≤ (lowOf 0x860F).toNat) ∧
    (opcOf 0xC010 = 0xC0 ∧ daOf 0xC010 ≠ 0 ∧ opcOf 0xC101 = 0xC1 ∧ lowOf 0xC101 ≠ 0) := by decide

/-- The short payloads, each one word short and ENQUEUE_TRANSMIT's at a count that fills a word and at one more. -/
theorem witness_ReservedEncodingsHaveNoMeaning_short :
    (opcOf 0x0110 = 0x01 ∧ lowOf 0x0110 = 0 ∧ ([9600, 8, 1] : List Word).length < 4) ∧
    (opcOf 0x0410 = 0x04 ∧ lowOf 0x0410 = 0 ∧ ([1] : List Word).length < 2) ∧
    (opcOf 0x0300 = 0x03 ∧ lowOf 0x0300 = 0 ∧ ([] : List Word).length < 1 + ((([] : List Word).headD 0).toNat + 31) / 32 ∧
      ([32] : List Word).length < 1 + ((([32] : List Word).headD 0).toNat + 31) / 32 ∧
      ([33, 0] : List Word).length < 1 + ((([33, 0] : List Word).headD 0).toNat + 31) / 32) ∧
    (opcOf 0x4510 = 0x45 ∧ lowOf 0x4510 = 0) ∧ (opcOf 0x8111 = 0x81 ∧ (lowOf 0x8111).toNat < 2) ∧
    (opcOf 0xC000 = 0xC0 ∧ daOf 0xC000 = 0 ∧ lowOf 0xC000 = 0 ∧
      ([2, 0x48] : List Word).length < 1 + (([2, 0x48] : List Word).headD 0).toNat) ∧
    (opcOf 0xC100 = 0xC1 ∧ daOf 0xC100 = 0 ∧ lowOf 0xC100 = 0 ∧
      ([8] : List Word).length < 1 + ((([8] : List Word).headD 0).toNat + 31) / 32) := by decide

/-- A count that fills one word, and one that needs a second. -/
theorem witness_WrittenOutWordsDecode :
    ((32 : Word).toNat + 31) / 32 ≤ ([0x48000000] : List Word).length ∧
    ((33 : Word).toNat + 31) / 32 ≤ ([0x48000000, 0x80000000] : List Word).length ∧
    (1 : Word).toNat ≤ ([0x48] : List Word).length := by decide

theorem witness_CommandBytesParseBack : (Instr.enqueueTransmit 0 (nbits 40 0)).wf = true := by decide

/-- A state whose next command decodes, two whose next command has no meaning (a reserved field, a short payload), and one
with no command. -/
theorem witness_StepRunsTheDecodedInstruction :
    ({ State.reset with pending := [portIssue (.step 0)] } : State).pending = portIssue (.step 0) :: [] ∧
    State.reset.refused = none ∧ decodeIssue (portIssue (.step 0)) = .ok (.step 0) ∧
    decodeIssue ⟨.port, ⟨0x0501, []⟩⟩ = .error .reservedField ∧
    decodeIssue ⟨.port, ⟨0x0400, [1]⟩⟩ = .error .shortPayload ∧ State.reset.pending = [] := by decide

/-- OPC values at the edges of the accepted range 1..6. -/
theorem witness_PortRefusesMicroOperations :
    ¬ (1 ≤ opcOf 0x0000 ∧ opcOf 0x0000 ≤ 6) ∧ ¬ (1 ≤ opcOf 0x0700 ∧ opcOf 0x0700 ≤ 6) ∧
    ¬ (1 ≤ opcOf 0x8100 ∧ opcOf 0x8100 ≤ 6) ∧
    ({ State.reset with pending := [⟨.port, ⟨0x8100, [1]⟩⟩] } : State).pending = ⟨.port, ⟨0x8100, [1]⟩⟩ :: [] ∧
    State.reset.refused = none := by decide

theorem witness_RefusedBlockExecutesNothing :
    ({ State.reset with refused := some .selfLink, pending := [portIssue (.step 0)] } : State).refused = some .selfLink ∧
    ({ State.reset with refused := some .selfLink, pending := [portIssue (.step 0)] } : State).pending ≠ [] ∧
    after (Machine.step { State.reset with refused := some .selfLink }) State.refused = some (some .selfLink) := by
  decide +kernel

theorem witness_RefusalChangesOnlyTheMark :
    ∃ t, exec (.connect 0 0) State.reset = .next t ∧ t.refused ≠ State.reset.refused := ⟨_, rfl, by decide⟩

/-- A free slot inside NDEV, and the indices NDEV and 15. -/
theorem witness_MissingSlotIsRefusedBadSlot :
    devAt (alone (dev [] [])) (slotIndex 1) = none ∧ devAt (alone (dev [] [])) (slotIndex 2) = none ∧
    devAt (alone (dev [] [])) (slotIndex 15) = none := by decide +kernel

theorem witness_BuiltBlockHasNoDevice :
    paramsOk Config.defaultParams = true ∧ paramsOk ⟨16, 1, 65536, 8, .live⟩ = true := by decide

/-- Both sides of the equivalence, at the ends of the range 1..2^16. -/
theorem witness_BuildRefusesBadCapacity :
    (State.build ⟨2, 0, 16, 8, .stepStart⟩).refused = some .badCapacity ∧
    (State.build ⟨2, 16, 131072, 8, .stepStart⟩).refused = some .badCapacity ∧
    (State.build ⟨2, 1, 65536, 8, .stepStart⟩).refused = none := by decide

/-- A linked pair with bits in flight, and a step of it. -/
theorem witness_StepKeepsInvariant :
    ({ pair (dev (nbits 8 0x48) []) (dev [] [true]) with pending := [portIssue (.step 0)] } : State).Inv ∧
    ∃ t, Machine.step { pair (dev (nbits 8 0x48) []) (dev [] [true]) with pending := [portIssue (.step 0)] } = .next t ∧
      t.out = .response [0x023, 0, 0] := ⟨by decide +kernel, _, rfl, by decide +kernel⟩

theorem witness_PortStepKeepsStateIdle :
    ({ pair (dev (nbits 8 0x48) []) (dev [] [true]) with pending := [portIssue (.step 0)] } : State).Inv ∧
    ({ pair (dev (nbits 8 0x48) []) (dev [] [true]) with pending := [portIssue (.step 0)] } : State).AllIdle ∧
    ({ pair (dev (nbits 8 0x48) []) (dev [] [true]) with pending := [portIssue (.step 0)] } : State).PortOnly := by
  decide +kernel

theorem witness_StepKeepsStorageCanonical :
    Memory.wf { pair (dev (nbits 8 0x48) []) (dev [] [true]) with pending := [portIssue (.step 0)] } := by decide +kernel

theorem witness_ConfigurationNeverChanges :
    (devAt (pair (dev (nbits 8 0x48) []) (dev [] [])) 0).isSome = true ∧
    ∃ t, exec (.step 0) (pair (dev (nbits 8 0x48) []) (dev [] [])) = .next t := ⟨by decide +kernel, _, rfl⟩

theorem witness_ClockWrittenOnlyByItsOwnCommands :
    ∃ t, exec (.tick 0 1 960) (alone (dev [] [])) = .next t ∧
      field 0 Device.clock t ≠ field 0 Device.clock (alone (dev [] [])) := ⟨_, rfl, by decide +kernel⟩

/-- One step writes both the sender's transmit queue and the receive queue of the device whose peer it is. -/
theorem witness_QueuesWrittenOnlyByTheirWriters :
    portAccepts (Instr.step 0).opc.toNat = true ∧
    ∃ t, exec (.step 0) (pair (dev (nbits 8 0x48) []) (dev [] [])) = .next t ∧
      field 0 Device.tx t ≠ field 0 Device.tx (pair (dev (nbits 8 0x48) []) (dev [] [])) ∧
      field 1 Device.rx t ≠ field 1 Device.rx (pair (dev (nbits 8 0x48) []) (dev [] [])) :=
  ⟨by decide, _, rfl, by decide +kernel, by decide +kernel⟩

theorem witness_PeerWrittenOnlyByConnect :
    ∃ t, exec (.connect 0 1) { State.reset with dev := [(0, dev [] []), (1, dev [] [])] } = .next t ∧
      field 0 Device.peer t ≠ some none := ⟨_, rfl, by decide +kernel⟩

/-- The last slot index below NDEV. -/
theorem witness_CreateDeviceMakesTheDevice :
    slotIndex 1 < (alone (dev [] [])).params.ndev ∧ devAt (alone (dev [] [])) (slotIndex 1) = none ∧
    (1 : Word) ≠ 0 ∧ (0xFFFFFFFF : Word) ≠ 0 := by decide +kernel

/-- Each clause: the index NDEV, a slot that exists, a free slot with a zero word, and a created slot. -/
theorem witness_OperandRefusals :
    (alone (dev [] [])).params.ndev ≤ slotIndex 2 ∧ devAt (alone (dev [] [])) (slotIndex 0) ≠ none ∧
    slotIndex 1 < (alone (dev [] [])).params.ndev ∧ devAt (alone (dev [] [])) (slotIndex 1) = none := by decide +kernel

theorem witness_TickSubtractsFromTheClock :
    devAt (alone (dev [] [])) (slotIndex 0) = some (dev [] []) ∧ (1 : Word) ≠ 0 := by decide +kernel

theorem witness_ReadyAfterCeilingOfTicks :
    devAt (alone (newDevice 9600 8 1 1)) (slotIndex 0) = some (newDevice 9600 8 1 1) ∧
    (newDevice 9600 8 1 1).clock = (newDevice 9600 8 1 1).timePerByte ∧ (1 : Word) ≠ 0 ∧ (2000 : Word) ≠ 0 ∧
    (alone (newDevice 9600 8 1 1)).refused = none ∧
    ({ alone (newDevice 9600 8 1 1) with pending := List.replicate 3 (portIssue (.tick 0 1 2000)) } : State).pending =
      List.replicate 3 (portIssue (.tick 0 1 2000)) := by decide +kernel

theorem witness_IsReadyTestsTheClock : devAt (alone (dev [] [])) (slotIndex 0) = some (dev [] []) := by decide +kernel

theorem witness_ResetClockLoadsTimePerByte :
    devAt (alone { dev [] [] with clock := -5 }) (slotIndex 0) = some { dev [] [] with clock := -5 } := by decide +kernel

/-- The four clauses: both queues, the receive queue, the transmit queue, none. -/
theorem witness_UpdateStateReadsQueueOccupancy :
    devAt (alone (dev [true] [true])) (slotIndex 0) = some (dev [true] [true]) ∧
    ((dev [true] [true]).tx.count ≠ 0 ∧ (dev [true] [true]).rx.count ≠ 0) ∧
    ((dev [] [true]).tx.count = 0 ∧ (dev [] [true]).rx.count ≠ 0) ∧
    ((dev [true] []).tx.count ≠ 0 ∧ (dev [true] []).rx.count = 0) ∧
    ((dev [] []).tx.count = 0 ∧ (dev [] []).rx.count = 0) := by decide +kernel

theorem witness_QInitAndQResetEmptyTheQueue :
    devAt (alone (dev [true] [])) (slotIndex 0) = some (dev [true] []) := by decide +kernel

/-- Both clauses at the edge: one free place, and none. -/
theorem witness_QPushAppendsTheBitOrFails :
    (devAt (small (holds 4 3 [true, false, true])) (slotIndex 0)).isSome = true ∧
    queueWf 4 (holds 4 3 [true, false, true]) ∧ (holds 4 3 [true, false, true]).count < 4 ∧
    queueWf 4 (holds 4 3 [true, false, true, true]) ∧ (holds 4 3 [true, false, true, true]).count = 4 := by decide +kernel

theorem witness_QPopTakesTheHead :
    (devAt (small (holds 4 3 [false, true])) (slotIndex 0)).isSome = true ∧ queueWf 4 (holds 4 3 [false, true]) ∧
    contents 4 (holds 4 3 [false, true]) = false :: [true] := by decide +kernel

theorem witness_QPeekAndEmptyPopChangeNothing :
    (devAt (small (holds 4 3 [])) (slotIndex 0)).isSome = true ∧ queueWf 4 (holds 4 3 []) ∧ (holds 4 3 []).count = 0 ∧
    queueWf 4 (holds 4 3 [true]) := by decide +kernel

theorem witness_QueueTestsReadTheCount : devAt (alone (dev [] [true])) (slotIndex 0) = some (dev [] [true]) := by
  decide +kernel

theorem witness_CircularBufferIsFifo : queueWf 4 (holds 4 3 [true, false]) ∧ queueWf 1 (holds 1 0 [true]) := by decide

/-- Capacity 4 with a moved head, and the least capacity. -/
theorem witness_CapacityLaw :
    (queueWf 4 (holds 4 3 []) ∧ (holds 4 3 []).count = 0 ∧ (nbits 4 11).length = 4) ∧
    (queueWf 1 (holds 1 0 []) ∧ (holds 1 0 []).count = 0 ∧ [true].length = 1) := by decide

/-- T1, with exactly a frame's worth of bits. -/
theorem witness_TransmitSendsOneFrame :
    ({ pair (dev (nbits 8 0x48) []) (dev [] []) with s0 := .transmitting } : State).Inv ∧
    (field 0 (fun D => (D.peer, decide (D.dataBits.toNat ≤ D.tx.count))) (pair (dev (nbits 8 0x48) []) (dev [] [])) =
      some (some 1, true)) ∧
    (devAt (pair (dev (nbits 8 0x48) []) (dev [] [])) 1).isSome = true := by decide +kernel

/-- One bit short of a frame. -/
theorem witness_TransmitUnderrunAbandonsTheFrame :
    ({ pair (dev (nbits 7 0x48) []) (dev [] []) with s0 := .transmittingAndReceiving } : State).Inv ∧
    (field 0 (fun D => (D.peer, decide (D.tx.count < D.dataBits.toNat))) (pair (dev (nbits 7 0x48) []) (dev [] [])) =
      some (some 1, true)) ∧
    (devAt (pair (dev (nbits 7 0x48) []) (dev [] [])) 1).isSome = true := by decide +kernel

/-- Both clauses: a whole frame, and one bit less. -/
theorem witness_TransmitWithNoPeerLosesTheFrame :
    ({ alone (dev (nbits 8 0x48) []) with s0 := .transmitting } : State).Inv ∧
    devAt (alone (dev (nbits 8 0x48) [])) (slotIndex 0) = some (dev (nbits 8 0x48) []) ∧
    (dev (nbits 8 0x48) []).peer = none ∧
    (dev (nbits 8 0x48) []).dataBits.toNat ≤ (dev (nbits 8 0x48) []).tx.count ∧
    ({ alone (dev (nbits 7 0x48) []) with s0 := .transmitting } : State).Inv ∧
    (dev (nbits 7 0x48) []).tx.count < (dev (nbits 7 0x48) []).dataBits.toNat := by and_intros <;> decide +kernel

/-- The three clauses: S0 Idle, a guard that does not let the receive phase run, one that does on an empty queue. -/
theorem witness_PhasesThatChangeNothing :
    devAt (alone (dev [] [])) (slotIndex 0) = some (dev [] []) ∧ (alone (dev [] [])).s0 = .idle ∧
    ¬ ReceiveRuns (alone (dev [] [])) (dev [] []) ∧
    ReceiveRuns { alone (dev [] []) with s0 := .receiving } (dev [] []) ∧ (dev [] []).rx.count = 0 := by decide +kernel

/-- The state of the receive witnesses: one device, S0 Receiving, with these bits received. -/
def receiving (rx : List Bit) : State := { alone (dev [] rx) with s0 := .receiving }

theorem receiving_dev (rx : List Bit) : devAt (receiving rx) (slotIndex 0) = some (dev [] rx) := rfl

/-- X1. -/
theorem witness_ReceiveReadsOneByte :
    (receiving (nbits 10 0x14B)).Inv ∧ ReceiveRuns (receiving (nbits 10 0x14B)) (dev [] (nbits 10 0x14B)) ∧
    (nbits 8 0xA5).length = (dev [] (nbits 10 0x14B)).dataBits.toNat ∧
    contents 16 (dev [] (nbits 10 0x14B)).rx = Config.startV :: (nbits 8 0xA5 ++ Config.stopV :: []) := by and_intros <;> decide +kernel

/-- X2. -/
theorem witness_ReceiveStartErrorDiscardsTheQueue :
    (receiving (nbits 3 4)).Inv ∧ ReceiveRuns (receiving (nbits 3 4)) (dev [] (nbits 3 4)) ∧
    contents 16 (dev [] (nbits 3 4)).rx = Config.stopV :: [false, false] := by and_intros <;> decide +kernel

/-- One data bit short. -/
theorem witness_ReceiveUnderrunDiscardsTheQueue :
    (receiving (nbits 8 0x52)).Inv ∧ ReceiveRuns (receiving (nbits 8 0x52)) (dev [] (nbits 8 0x52)) ∧
    (nbits 7 0x52).length < (dev [] (nbits 8 0x52)).dataBits.toNat ∧
    contents 16 (dev [] (nbits 8 0x52)).rx = Config.startV :: nbits 7 0x52 := by and_intros <;> decide +kernel

/-- X4 and X5: another value where the stop bit should be, and nothing there. -/
theorem witness_ReceiveStopErrorDiscardsTheQueue :
    (receiving (nbits 10 0x14A)).Inv ∧ ReceiveRuns (receiving (nbits 10 0x14A)) (dev [] (nbits 10 0x14A)) ∧
    (nbits 8 0xA5).length = (dev [] (nbits 10 0x14A)).dataBits.toNat ∧
    contents 16 (dev [] (nbits 10 0x14A)).rx = Config.startV :: (nbits 8 0xA5 ++ [false]) ∧
    (receiving (nbits 9 0x0A5)).Inv ∧
    contents 16 (dev [] (nbits 9 0x0A5)).rx = Config.startV :: (nbits 8 0xA5 ++ []) := by and_intros <;> decide +kernel

/-- The two clauses meet at data.length = w and w + 1. -/
theorem witness_AccumulatorKeepsTheLastBits : (nbits 8 0xA5).length ≤ 8 ∧ 8 < (nbits 9 0x1A5).length := by decide

/-- X10: eight data bits and a receive queue of eight. -/
theorem witness_SmallReceiveQueueNeverReadsAByte :
    ∃ t, exec (.handleReceive 0) { State.build { Config.defaultParams with nRx := 8 } with
        dev := [(0, { newDevice 9600 8 1 1 with rx := holds 8 0 (nbits 8 0x24) })], s0 := .receiving } = .next t ∧
      t.out = .receive .errUnderrun 0 ∧
      (State.Inv { State.build { Config.defaultParams with nRx := 8 } with
        dev := [(0, { newDevice 9600 8 1 1 with rx := holds 8 0 (nbits 8 0x24) })], s0 := .receiving }) ∧
      8 < (newDevice 9600 8 1 1).dataBits.toNat + 2 := ⟨_, rfl, by decide +kernel, by decide +kernel, by decide +kernel⟩

/-- Both clauses: a new device, and one whose clock is exactly 0. -/
theorem witness_StepChangesNothingUnlessReady :
    devAt (alone (newDevice 9600 8 1 1)) (slotIndex 0) = some (newDevice 9600 8 1 1) ∧
    0 < (newDevice 9600 8 1 1).clock ∧ devAt (alone (dev [] [])) (slotIndex 0) = some (dev [] []) ∧
    (dev [] []).clock = 0 := by decide +kernel

theorem witness_ReadyStepIsItsFourPhases :
    (alone (dev (nbits 8 0x48) [])).Inv ∧
    devAt (alone (dev (nbits 8 0x48) [])) (slotIndex 0) = some (dev (nbits 8 0x48) []) ∧
    (dev (nbits 8 0x48) []).clock ≤ 0 := by decide +kernel

theorem witness_ReadyStepEndsIdleWithClockReloaded :
    (alone (dev [] [false])).Inv ∧ devAt (alone (dev [] [false])) (slotIndex 0) = some (dev [] [false]) ∧
    (dev [] [false]).clock ≤ 0 ∧ (dev [] [false]).state = .idle := by decide +kernel

theorem witness_EnqueueAppendsWhatFits :
    (alone (dev [true] [])).Inv ∧ devAt (alone (dev [true] [])) (slotIndex 0) = some (dev [true] []) := by decide +kernel

/-- With received bytes, and fewer than 2^32 of them. -/
theorem witness_DrainReturnsTheBytesOnce :
    (alone { dev [] [] with rxb := [255] }).Inv ∧
    devAt (alone { dev [] [] with rxb := [255] }) (slotIndex 0) = some { dev [] [] with rxb := [255] } ∧
    [255].length < 2 ^ 32 := by decide +kernel

theorem witness_ConnectLinksBothSides :
    devAt { State.reset with dev := [(0, dev [] []), (1, dev [] [])] } (slotIndex 0) = some (dev [] []) ∧
    devAt { State.reset with dev := [(0, dev [] []), (1, dev [] [])] } (slotIndex 1) = some (dev [] []) ∧
    (0 : SlotIx) ≠ 1 := by decide +kernel

/-- A linked pair connected again, and the same slot twice. -/
theorem witness_ConnectIsSymmetricAndIdempotent :
    after (exec (.connect 1 0) (pair (dev [] []) (dev [] []))) (field 0 Device.peer) = some (some (some 1)) ∧
    after (exec (.connect 1 1) (pair (dev [] []) (dev [] []))) State.refused = some (some .selfLink) := by decide +kernel

theorem witness_PeerPushReachesThePeer :
    (pair (dev [] []) (dev [] (nbits 15 0))).Inv ∧ (dev [] (nbits 15 0)).rx.count < 16 ∧
    (pair (dev [] []) (dev [] (nbits 16 0))).Inv ∧ (dev [] (nbits 16 0)).rx.count = 16 ∧
    (alone (dev [] [])).Inv ∧ (dev [] []).peer = none := by and_intros <;> decide +kernel

theorem witness_BytesToBitsIsMsbFirst : 0 < ([0x80] : List Byte).length ∧ 7 < 8 := by decide

theorem witness_BitsToByteIsMsbFirst :
    (nbits 8 1).length = 8 ∧ (nbits 7 1).length ≠ 8 ∧ (nbits 9 1).length ≠ 8 := by decide

theorem witness_BitConversionsAreInverse :
    bitsToBytes (nbits 16 0x01FE) = some [0x01, 0xFE] ∧ (nbits 7 1).length % 8 ≠ 0 ∧ (nbits 9 1).length % 8 ≠ 0 := by decide

/-- Two slots configured alike. -/
def twoSlots : List SlotConfig := [⟨0, 9600, 8, 1, 1⟩, ⟨1, 9600, 8, 1, 1⟩]

theorem witness_BootReachesCleanStart :
    paramsOk Config.defaultParams = true ∧ (twoSlots.map SlotConfig.slot).Nodup ∧
    (∀ c ∈ twoSlots, slotIndex c.slot < Config.defaultParams.ndev ∧ configHasZero c.baud c.data c.stop c.start = false) ∧
    (∀ l ∈ [((0 : SlotIx), (1 : SlotIx))], linkWf twoSlots l) ∧
    (∀ m ∈ [((0 : SlotIx), (1 : SlotIx))], m ≠ (0, 1) → ¬ linkNames m 0 ∧ ¬ linkNames m 1) ∧
    (∀ l ∈ ([] : List (SlotIx × SlotIx)), ¬ linkNames l 0) := by and_intros <;> decide +kernel

/-- R142: after `connect 0, 1` and `connect 0, 2`, device 0 has peer 2 and device 1 still has peer 0. -/
theorem test_linkedTo_overlap :
    linkedTo [(0, 1), (0, 2)] 0 = some 2 ∧ linkedTo [(0, 1), (0, 2)] 1 = some 0 ∧ linkedTo [(0, 1), (0, 2)] 2 = some 0 ∧
    linkedTo [(0, 1), (0, 2)] 3 = none := by decide

/-- Two devices linked, ready, with the bytes "He" in A's transmit queue. -/
def linked : State := pair (dev (bytesToBits [0x48, 0x65]) []) (dev [] [])

theorem witness_OneByteCrossesTheLink :
    LinkedPair linked 0 1 { dev (bytesToBits [0x48, 0x65]) [] with peer := some 1 } { dev [] [] with peer := some 0 }
        [0x48, 0x65] ∧
      ({ dev (bytesToBits [0x48, 0x65]) [] with peer := some 1 } : Device).clock ≤ 0 :=
  ⟨by constructor <;> decide +kernel, by decide +kernel⟩

/-- The linked pair with n driver iterations waiting, device 0 or device 1 stepped first. -/
def driven (first second : SlotIx) (n : Nat) : State := { linked with pending := iterations first second 1 960 n }

/-- Both orders; one tick amount is a whole period, so that 2 * ceil(1) <= 2 and (2 + 1) * ceil(1) <= 3. -/
theorem witness_FrameRoundTripDeliversEveryByte :
    LinkedPair (driven 0 1 2) 0 1 { dev (bytesToBits [0x48, 0x65]) [] with peer := some 1 }
        { dev [] [] with peer := some 0 } [0x48, 0x65] ∧
      LinkedPair (driven 1 0 3) 0 1 { dev (bytesToBits [0x48, 0x65]) [] with peer := some 1 }
        { dev [] [] with peer := some 0 } [0x48, 0x65] ∧
      (driven 0 1 2).pending = iterations 0 1 1 960 2 ∧ (driven 1 0 3).pending = iterations 1 0 1 960 3 ∧
      (1 : Word) ≠ 0 ∧ (960 : Word) ≠ 0 ∧ (dev [] []).rxb = [] ∧
      (([0x48, 0x65] : List Byte).length : Int) * ⌈(dev [] []).timePerByte /
        (((1 : Word).toNat : Rat) / ((960 : Word).toNat : Rat))⌉ ≤ (2 : Nat) ∧
      ((([0x48, 0x65] : List Byte).length : Int) + 1) * ⌈(dev [] []).timePerByte /
        (((1 : Word).toNat : Rat) / ((960 : Word).toNat : Rat))⌉ ≤ (3 : Nat) :=
  ⟨by constructor <;> decide +kernel, by constructor <;> decide +kernel, rfl, rfl, by decide, by decide, rfl,
    by decide +kernel, by decide +kernel⟩

end Sys2Proof.Tests
end

section
/-! SUPPORT. Which parameters a block is refused for at its building (R8, R83, R162). -/

namespace Sys2Proof.Machine

/-- The test by `Nat.log2` in `capacityOk` is R83's "power of two in 1..2^16". -/
theorem capacityOk_iff (n : Nat) : capacityOk n = true ↔ ∃ k, k ≤ 16 ∧ n = 2 ^ k := by
  simp only [capacityOk, decide_eq_true_eq]
  constructor
  · rintro ⟨-, hle, hpow⟩
    rw [← hpow] at hle
    exact ⟨n.log2, (Nat.pow_le_pow_iff_right Nat.one_lt_two).mp hle, hpow.symm⟩
  · rintro ⟨k, hk, rfl⟩
    exact ⟨Nat.one_le_two_pow, Nat.pow_le_pow_right Nat.two_pos hk, by rw [Nat.log2_two_pow]⟩

theorem capacitiesOk_iff (p : Params) :
    capacitiesOk p = true ↔ (∃ k, k ≤ 16 ∧ p.nTx = 2 ^ k) ∧ (∃ k, k ≤ 16 ∧ p.nRx = 2 ^ k) := by
  rw [capacitiesOk, Bool.and_eq_true, capacityOk_iff, capacityOk_iff]

/-- A bad capacity is named before any other parameter, and no other parameter is refused by that reason. -/
theorem build_refused_badCapacity_iff (p : Params) :
    (State.build p).refused = some .badCapacity ↔ capacitiesOk p = false := by
  cases hc : capacitiesOk p with
  | false => simp [State.build, hc]
  | true => cases ho : otherParamsOk p <;> simp [State.build, hc, ho]

/-- Settles O13: the mark is BadCapacity exactly when `capacitiesOk` fails, and `capacitiesOk` is the powers of two of
R83. -/
theorem buildRefusesBadCapacity : Obligations.BuildRefusesBadCapacity := by
  intro p
  rw [build_refused_badCapacity_iff, ← capacitiesOk_iff, Bool.not_eq_true]

end Sys2Proof.Machine
end

section
/-! SUPPORT. What one step of the machine can do (`20_memory.md` R47), what an operation writes field by field, and the
settled statements of `10_state.md`: the invariants every step keeps and who writes which field. -/

namespace Sys2Proof.Machine

variable {s t : State} {i : Instr} {d e : Nat} {D D' E : Device}

/-! ### One step, and one operation -/

/-- What a step that answers a next state has done: nothing, with no command issued; or it has taken the next command
off the stream and refused it, or executed the operation it stands for. -/
theorem step_cases (h : step s = .next t) :
    (s.pending = [] ∧ t = s) ∨
    ∃ c rest, s.pending = c :: rest ∧
      ((∃ r, t = { s with pending := rest, refused := some r }) ∨
        ∃ i, decodeIssue c = .ok i ∧ exec i { s with pending := rest } = .next t) := by
  rw [step, runNext] at h
  cases hp : s.pending with
  | nil => rw [hp] at h; cases h; exact .inl ⟨rfl, rfl⟩
  | cons c rest =>
    refine .inr ⟨c, rest, rfl, ?_⟩
    simp only [hp] at h
    split at h
    · cases h
    · cases hd : decodeIssue c with
      | error r => simp only [hd] at h; cases h; exact .inl ⟨r, rfl⟩
      | ok i => simp only [hd] at h; exact .inr ⟨i, rfl, h⟩

/-- No operation changes a parameter (R7). -/
theorem exec_params (h : exec i s = .next t) : t.params = s.params := by
  rcases exec_cases h with ⟨r, rfl⟩ | ⟨da, b, dd, st, sa, -, -, -, -, rfl⟩ | ⟨⟨hp, -, -⟩, -⟩
  · rfl
  · rfl
  · exact hp

/-- No operation adds to the command stream or takes from it (R47). -/
theorem exec_pending (h : exec i s = .next t) : t.pending = s.pending := by
  rcases exec_cases h with ⟨r, rfl⟩ | ⟨da, b, dd, st, sa, -, -, -, -, rfl⟩ | ⟨⟨-, -, hp⟩, -⟩
  · rfl
  · rfl
  · exact hp

/-- A device after an operation was there before it, or CREATE_DEVICE made it (R101). -/
theorem exec_slot (h : exec i s = .next t) (hE : devAt t d = some E) :
    (∃ D, devAt s d = some D) ∨ ∃ baud data stop start, E = newDevice baud data stop start := by
  rcases exec_cases h with ⟨r, rfl⟩ | ⟨da, baud, data, stop, start, -, hlt, -, -, rfl⟩ | ⟨-, hw⟩
  · exact .inl ⟨E, hE⟩
  · rw [devAt_out] at hE
    by_cases hd : d = slotIndex da
    · subst hd
      rw [devAt_putDev_same hlt] at hE
      cases hE; exact .inr ⟨baud, data, stop, start, rfl⟩
    · rw [devAt_putDev_ne s hd] at hE; exact .inl ⟨E, hE⟩
  · exact .inl (hw.slot hE)

/-- A field of a device that an operation has changed was changed by one of the writes `Effect` allows: what holds of the
slot of every such write (`P`) holds of the device's own slot. -/
theorem exec_field_changed {α : Type} {f : Device → α} {P : Nat → Prop}
    (hP : ∀ e A B, Effect s i e A B → f B ≠ f A → P e) (h : exec i s = .next t) (hD : devAt s d = some D)
    (hE : devAt t d = some E) (hne : f E ≠ f D) : P d := by
  obtain ⟨E', hE', hS⟩ := exec_device (S := fun e A B => f B ≠ f A → P e) h hD (fun _ _ hrefl => absurd rfl hrefl)
    (fun e A B C hAB hBC hAC => by
      by_cases hf : f C = f B
      · exact hAB (hf ▸ hAC)
      · exact hP e B C hBC hf)
  rw [hE] at hE'; cases hE'
  exact hS hne

/-! ### The invariant (R25, R26, R31, R32, R33, R91) -/

/-- A well-formed device stays so when its queues and its store are replaced by ones that are well formed where those
were; its clock and its state register are free. -/
theorem deviceWf_rewrite {c : Rat} {st : DeviceState} {tx rx : Queue} {rxb : List Nat} (h : deviceWf s e D)
    (htx : QueueKept s.params.nTx D.tx tx) (hrx : QueueKept s.params.nRx D.rx rx)
    (hb : BytesKept s.params.accW D.rxb rxb) :
    deviceWf s e { D with clock := c, state := st, tx := tx, rx := rx, rxb := rxb } := by
  obtain ⟨hcfg, hpeer, hwtx, hwrx, hrxb⟩ := h
  exact ⟨hcfg, hpeer, htx.2 hwtx, hrx.2 hwrx, hb hrxb⟩

theorem deviceWf_withQueue {qs : QSel} {q : Queue} (h : deviceWf s e D)
    (hq : QueueKept (capacityOf s.params qs) (queueOf D qs) q) : deviceWf s e (withQueue D q qs) := by
  cases qs
  · exact deviceWf_rewrite h hq (.refl _ _) id
  · exact deviceWf_rewrite h (.refl _ _) hq id

/-- The new peer of a device is another slot that holds a device. -/
theorem deviceWf_peer {p : Nat} (h : deviceWf s e D) (hne : p ≠ e) (hp : (devAt s p).isSome) :
    deviceWf s e { D with peer := some p } := by
  obtain ⟨hcfg, -, hrest⟩ := h
  refine ⟨hcfg, fun p' hp' => ?_, hrest⟩
  obtain rfl : p = p' := by simpa using hp'
  exact ⟨hne, hp⟩

/-- The slots that a CONNECT which is not refused names: two different ones, each holding a device (R140). -/
abbrev ConnectsDevices (s : State) (i : Instr) : Prop :=
  ∀ da db, i = .connect da db →
    slotIndex da ≠ slotIndex db ∧ (devAt s (slotIndex da)).isSome ∧ (devAt s (slotIndex db)).isSome

/-- Every operation is refused or names slots that it may connect. -/
theorem exec_connectsDevices (h : exec i s = .next t) :
    (∃ r, t = { s with refused := some r }) ∨ ConnectsDevices s i := by
  by_cases hi : ∃ da db, i = .connect da db
  · obtain ⟨da, db, rfl⟩ := hi
    simp only [exec, execConnect, deviceOperand] at h
    split at h
    · next A B hA hB =>
      split at h
      · cases h; exact .inl ⟨_, rfl⟩
      · next hne =>
        refine .inr fun da' db' heq => ?_
        cases heq
        exact ⟨slotIndex_ne hne, by simp [hA], by simp [hB]⟩
    · cases h; exact .inl ⟨_, rfl⟩
  · exact .inr fun da db heq => absurd ⟨da, db, heq⟩ hi

/-- Every write of an operation keeps a device well formed. -/
theorem effect_deviceWf (hi : ConnectsDevices s i) (h : Effect s i e D D') (hD : deviceWf s e D) :
    deviceWf s e D' := by
  have peerRx : WritesRx s.params D D' → deviceWf s e D' := fun ⟨q, hq, hD'⟩ =>
    hD' ▸ deviceWf_withQueue (qs := .rx) hD hq
  cases i <;> simp only [Effect] at h
  case connect da db =>
    obtain ⟨hne, ha, hb⟩ := hi da db rfl
    rcases h with ⟨rfl, rfl⟩ | ⟨rfl, rfl⟩
    · exact deviceWf_peer hD hne.symm hb
    · exact deviceWf_peer hD hne ha
  case enqueueTransmit => obtain ⟨-, q, hq, rfl⟩ := h; exact deviceWf_withQueue (qs := .tx) hD hq
  case tick => obtain ⟨-, c, rfl⟩ := h; exact hD
  case step =>
    rcases h with ⟨-, c, st, tx, rx, rxb, htx, hrx, hb, rfl⟩ | ⟨-, h⟩
    · exact deviceWf_rewrite hD htx hrx hb
    · exact peerRx h
  case drainReceived =>
    obtain ⟨-, rfl⟩ := h
    exact deviceWf_rewrite hD (.refl _ _) (.refl _ _) fun _ _ hy => nomatch hy
  case resetClock => obtain ⟨-, c, rfl⟩ := h; exact hD
  case updateState => obtain ⟨-, st, rfl⟩ := h; exact hD
  case handleTransmit =>
    rcases h with ⟨-, st, tx, htx, rfl⟩ | ⟨-, h⟩
    · exact deviceWf_rewrite hD htx (.refl _ _) id
    · exact peerRx h
  case handleReceive => obtain ⟨-, st, rx, rxb, hrx, hb, rfl⟩ := h; exact deviceWf_rewrite hD (.refl _ _) hrx hb
  case peerPush => exact peerRx h.2
  all_goals (obtain ⟨-, q, hq, rfl⟩ := h; exact deviceWf_withQueue hD hq)

/-- A chain of writes that keeps each device well formed keeps the invariant. -/
theorem Writes.inv {R : Nat → Device → Device → Prop} (h : Writes R s t)
    (hR : ∀ e A B, R e A B → deviceWf s e A → deviceWf s e B) (hs : s.Inv) : t.Inv := by
  have kept : ∀ {d D}, devAt s d = some D → ∃ E, devAt t d = some E ∧ (deviceWf s d D → deviceWf s d E) := fun hD =>
    h.device (S := fun e A B => deviceWf s e A → deviceWf s e B) (fun _ _ => id)
      (fun e A B C hAB hBC => hR e B C hBC ∘ hAB) hD
  refine inv_iff.2 ⟨h.params ▸ hs.1, h.canon hs.2.1, fun d E hE => deviceWf_congr h.params ?_ ?_⟩
  · intro e he
    obtain ⟨A, hA⟩ := Option.isSome_iff_exists.1 he
    obtain ⟨B, hB, -⟩ := kept hA
    exact hB ▸ rfl
  · obtain ⟨D, hD⟩ := h.slot hE
    obtain ⟨E', hE', hwf⟩ := kept hD
    rw [hE] at hE'; cases hE'
    exact hwf (inv_deviceWf hs hD)

/-- Every operation keeps the invariant. -/
theorem exec_inv (hs : s.Inv) (h : exec i s = .next t) : t.Inv := by
  rcases exec_connectsDevices h with ⟨r, rfl⟩ | hi
  · exact inv_congr rfl rfl hs
  · rcases exec_cases h with ⟨r, rfl⟩ | ⟨da, baud, data, stop, start, -, hlt, -, hcfg, rfl⟩ | ⟨-, hw⟩
    · exact inv_congr rfl rfl hs
    · exact inv_congr (s := putDev s (slotIndex da) (newDevice baud data stop start)) rfl rfl
        (inv_putDev hs hlt (newDevice_wf hs.1 _ hcfg))
    · exact hw.inv (fun _ _ _ => effect_deviceWf hi) hs

/-- Settles O15: a step takes a command off the stream, which the invariant does not speak of, and executes an
operation. -/
theorem stepKeepsInvariant : Obligations.StepKeepsInvariant := by
  intro s t hs h
  rcases step_cases h with ⟨-, rfl⟩ | ⟨c, rest, -, ⟨r, rfl⟩ | ⟨i, -, hx⟩⟩
  · exact hs
  · exact inv_congr rfl rfl hs
  · exact exec_inv (inv_congr (t := { s with pending := rest }) rfl rfl hs) hx

end Sys2Proof.Machine
end

section
/-! SUPPORT. Who writes which field of a device (`10_state.md` R26, R30, R31, R34), and the settled statements about
it.  Each reads the field off `Effect`, which says what an operation may write (`exec_field_changed`). -/

namespace Sys2Proof.Machine

variable {s t : State} {i : Instr} {d e : Nat} {D D' E : Device}

/-- Settles O18: no write that `Effect` allows changes a configuration field. -/
theorem configurationNeverChanges : Obligations.ConfigurationNeverChanges := fun _ _ _ h =>
  ⟨exec_params h, fun _ _ hD => exec_device (S := fun _ A B => SameConfig A B) h hD
    (fun _ _ => ⟨rfl, rfl, rfl, rfl, rfl, rfl⟩) fun _ A B C hAB hBC => by
      obtain ⟨a1, a2, a3, a4, a5, a6⟩ := hAB
      obtain ⟨b1, b2, b3, b4, b5, b6⟩ := effect_config hBC
      exact ⟨b1.trans a1, b2.trans a2, b3.trans a3, b4.trans a4, b5.trans a5, b6.trans a6⟩⟩

/-! ### The clock and the peer (R30, R31, R105, R142, R169) -/

/-- Replacing a queue changes no other field. -/
theorem withQueue_clock_peer (D : Device) (q : Queue) (qs : QSel) :
    (withQueue D q qs).clock = D.clock ∧ (withQueue D q qs).peer = D.peer := by
  cases qs <;> exact ⟨rfl, rfl⟩

/-- A write leaves the clock or is one of TICK, STEP or RESET_CLOCK on that slot; and it leaves the peer field or is one
of CONNECT in a slot it names. -/
theorem effect_clock_peer (h : Effect s i e D D') :
    (D'.clock = D.clock ∨
      ∃ da, slotIndex da = e ∧ (i = .step da ∨ i = .resetClock da ∨ ∃ num den, i = .tick da num den)) ∧
    (D'.peer = D.peer ∨ ∃ da db, i = .connect da db ∧ (slotIndex da = e ∨ slotIndex db = e)) := by
  cases i <;> simp only [Effect] at h
  case connect da db =>
    have hnamed : slotIndex da = e ∨ slotIndex db = e := h.imp (·.1.symm) (·.1.symm)
    rcases h with ⟨-, rfl⟩ | ⟨-, rfl⟩ <;> exact ⟨.inl rfl, .inr ⟨da, db, rfl, hnamed⟩⟩
  case enqueueTransmit => obtain ⟨-, q, -, rfl⟩ := h; exact ⟨.inl rfl, .inl rfl⟩
  case tick da num den =>
    obtain ⟨rfl, c, rfl⟩ := h
    exact ⟨.inr ⟨da, rfl, .inr (.inr ⟨num, den, rfl⟩)⟩, .inl rfl⟩
  case step da =>
    rcases h with ⟨rfl, c, st, tx, rx, rxb, -, -, -, rfl⟩ | ⟨-, q, -, rfl⟩
    · exact ⟨.inr ⟨da, rfl, .inl rfl⟩, .inl rfl⟩
    · exact ⟨.inl rfl, .inl rfl⟩
  case drainReceived => obtain ⟨-, rfl⟩ := h; exact ⟨.inl rfl, .inl rfl⟩
  case resetClock da => obtain ⟨rfl, c, rfl⟩ := h; exact ⟨.inr ⟨da, rfl, .inr (.inl rfl)⟩, .inl rfl⟩
  case updateState => obtain ⟨-, st, rfl⟩ := h; exact ⟨.inl rfl, .inl rfl⟩
  case handleTransmit => rcases h with ⟨-, st, tx, -, rfl⟩ | ⟨-, q, -, rfl⟩ <;> exact ⟨.inl rfl, .inl rfl⟩
  case handleReceive => obtain ⟨-, st, rx, rxb, -, -, rfl⟩ := h; exact ⟨.inl rfl, .inl rfl⟩
  case peerPush => obtain ⟨-, q, -, rfl⟩ := h; exact ⟨.inl rfl, .inl rfl⟩
  all_goals
    obtain ⟨-, q, -, rfl⟩ := h
    exact (withQueue_clock_peer D q _).imp .inl .inl

/-- Settles O19: a changed clock was changed by one of the writes of the operation. -/
theorem clockWrittenOnlyByItsOwnCommands : Obligations.ClockWrittenOnlyByItsOwnCommands :=
  fun _ _ _ _ _ _ h hD hE =>
    exec_field_changed (f := Device.clock) (fun _ _ _ hw => (effect_clock_peer hw).1.resolve_left) h hD hE

/-- Settles O21: a changed peer field was changed by one of the writes of the operation. -/
theorem peerWrittenOnlyByConnect : Obligations.PeerWrittenOnlyByConnect :=
  fun _ _ _ _ _ _ h hD hE =>
    exec_field_changed (f := Device.peer) (fun _ _ _ hw => (effect_clock_peer hw).2.resolve_left) h hD hE

/-! ### The queues and the state register, of host commands (R34, R62) -/

/-- The writes of a host command: one that leaves both queues and the state register, ENQUEUE_TRANSMIT's on its device,
STEP's on its device, or STEP's on the receive queue of its device's peer. -/
theorem effect_host (hi : portAccepts i.opc.toNat = true) (h : Effect s i e D D') :
    (D'.tx = D.tx ∧ D'.rx = D.rx ∧ D'.state = D.state) ∨
    (∃ da bits q, i = .enqueueTransmit da bits ∧ e = slotIndex da ∧ D' = { D with tx := q }) ∨
    (∃ da, i = .step da ∧ e = slotIndex da) ∨
    ∃ da q, i = .step da ∧ peerOf s (slotIndex da) = some e ∧ D' = { D with rx := q } := by
  cases i
  case createDevice => exact h.elim
  case connect => rcases h with ⟨-, rfl⟩ | ⟨-, rfl⟩ <;> exact .inl ⟨rfl, rfl, rfl⟩
  case enqueueTransmit da bits =>
    obtain ⟨rfl, q, -, rfl⟩ := h
    exact .inr (.inl ⟨da, bits, q, rfl, rfl, rfl⟩)
  case tick => obtain ⟨-, c, rfl⟩ := h; exact .inl ⟨rfl, rfl, rfl⟩
  case step da =>
    rcases h with ⟨rfl, -⟩ | ⟨hp, q, -, rfl⟩
    · exact .inr (.inr (.inl ⟨da, rfl, rfl⟩))
    · exact .inr (.inr (.inr ⟨da, q, rfl, hp, rfl⟩))
  case drainReceived => obtain ⟨-, rfl⟩ := h; exact .inl ⟨rfl, rfl, rfl⟩
  all_goals simp [Instr.opc, portAccepts] at hi

/-- A write of a host command that changes a transmit queue. -/
theorem effect_host_tx (hi : portAccepts i.opc.toNat = true) (h : Effect s i e D D') (hne : D'.tx ≠ D.tx) :
    ∃ da, slotIndex da = e ∧ (i = .step da ∨ ∃ bits, i = .enqueueTransmit da bits) := by
  rcases effect_host hi h with ⟨htx, -, -⟩ | ⟨da, bits, q, rfl, rfl, -⟩ | ⟨da, rfl, rfl⟩ | ⟨da, q, -, -, rfl⟩
  · exact absurd htx hne
  · exact ⟨da, rfl, .inr ⟨bits, rfl⟩⟩
  · exact ⟨da, rfl, .inl rfl⟩
  · exact absurd rfl hne

/-- A write of a host command that changes a receive queue. -/
theorem effect_host_rx (hi : portAccepts i.opc.toNat = true) (h : Effect s i e D D') (hne : D'.rx ≠ D.rx) :
    ∃ da, i = .step da ∧ (slotIndex da = e ∨ ∃ F, devAt s (slotIndex da) = some F ∧ F.peer = some e) := by
  rcases effect_host hi h with ⟨-, hrx, -⟩ | ⟨da, bits, q, -, -, rfl⟩ | ⟨da, rfl, rfl⟩ | ⟨da, q, rfl, hp, -⟩
  · exact absurd hrx hne
  · exact absurd rfl hne
  · exact ⟨da, rfl, .inl rfl⟩
  · exact ⟨da, rfl, .inr (Option.bind_eq_some_iff.1 hp)⟩

/-- A write of a host command that changes a state register is one of STEP on that slot. -/
theorem effect_host_state (hi : portAccepts i.opc.toNat = true) (h : Effect s i e D D') (hne : D'.state ≠ D.state) :
    ∃ da, i = .step da ∧ e = slotIndex da := by
  rcases effect_host hi h with ⟨-, -, hst⟩ | ⟨da, bits, q, -, -, rfl⟩ | hstep | ⟨da, q, -, -, rfl⟩
  · exact absurd hst hne
  · exact absurd rfl hne
  · exact hstep
  · exact absurd rfl hne

/-- Settles O20: a changed queue was changed by one of the writes of the host command. -/
theorem queuesWrittenOnlyByTheirWriters : Obligations.QueuesWrittenOnlyByTheirWriters := by
  intro i s t d D E hi h hD hE
  exact ⟨exec_field_changed (f := Device.tx) (fun _ _ _ => effect_host_tx hi) h hD hE,
    exec_field_changed (f := Device.rx) (fun _ _ _ => effect_host_rx hi) h hD hE⟩

end Sys2Proof.Machine
end

section
/-! SUPPORT. Every state register is Idle between host commands (`10_state.md` R29, `43_framing.md` R128). -/

namespace Sys2Proof.Machine

variable {s t : State} {i : Instr} {d e : Nat} {D D' E : Device}

/-- A command that the port accepts decodes to a host command (R75, R77). -/
theorem decode_host {c : Command} (hc : portAccepts (opcOf c.cw) = true) (h : decode c = .ok i) :
    portAccepts i.opc.toNat = true := by
  obtain ⟨h1, h6⟩ : 1 ≤ opcOf c.cw ∧ opcOf c.cw ≤ 6 := of_decide_eq_true hc
  generalize ho : opcOf c.cw = n at h1 h6
  interval_cases n
  · rw [decode_createDevice ho] at h
    obtain ⟨-, h⟩ := formatH0_ok h
    split at h <;> cases h
    rfl
  · rw [decode_connect ho] at h; cases h; rfl
  · rw [decode_enqueueTransmit ho] at h
    obtain ⟨bits, rfl, -⟩ := bitsOperand_ok (formatH0_ok h).2
    rfl
  · rw [decode_tick ho] at h
    obtain ⟨-, h⟩ := formatH0_ok h
    split at h <;> cases h
    rfl
  · rw [decode_step ho] at h; cases (formatH0_ok h).2; rfl
  · rw [decode_drainReceived ho] at h; cases (formatH0_ok h).2; rfl

/-- What comes through the port and is decoded is a host command (R77). -/
theorem decodeIssue_host {c : Issue} (hc : c.origin = .port) (h : decodeIssue c = .ok i) :
    portAccepts i.opc.toNat = true := by
  simp only [decodeIssue, hc] at h
  split at h
  · next hp => exact decode_host hp h
  all_goals simp_all

/-- A STEP of a device that is not ready changes no device (R129). -/
theorem exec_step_not_ready {da : SlotIx} (hD : devAt s (slotIndex da) = some D) (hr : 0 < D.clock) :
    exec (.step da) s =
      .next { s with out := .response [stepStatus false D.state D.state .none .none false, 0, 0] } := by
  have hready : isReady D = false := by simpa [isReady] using hr
  show onDevice s da _ = _
  rw [onDevice_some hD, hready]; rfl

/-- The device that a ready step's receive phase runs on, where the step found it Idle: Idle after a transmit phase, and
otherwise in the state UPDATE_STATE computed, which is Receiving only with bits queued (R111, R128). -/
theorem idle_or_receiving (h : D.state = .idle) :
    (if transmits (computedState D) then .idle else computedState D) = DeviceState.idle ∨
    ((if transmits (computedState D) then .idle else computedState D) = DeviceState.receiving ∧
      computedState D = .receiving ∧ D.rx.count ≠ 0) := by
  rw [computedState_idle h]
  by_cases ht : D.tx.count = 0 <;> by_cases hr : D.rx.count = 0 <;> simp [ht, hr, transmits]

/-- A STEP of an Idle device leaves it Idle (R128). -/
theorem exec_step_idle {da : SlotIx} (hs : s.Inv) (hD : devAt s (slotIndex da) = some D) (hidle : D.state = .idle)
    (h : exec (.step da) s = .next t) (hE : devAt t (slotIndex da) = some E) : E.state = .idle := by
  by_cases hr : D.clock ≤ 0
  · obtain ⟨q, u, -, -, hu, -, -, -, -, -, hrx, -⟩ := readyStep_spec hs hD
    rw [exec_step_ready hD hr, hu] at h
    cases h
    rw [hE] at hrx; cases hrx
    obtain ⟨-, -, -, hwrx, -⟩ := inv_deviceWf hs hD
    exact receiveDevice_state hwrx (idle_or_receiving hidle)
  · rw [exec_step_not_ready hD (not_le.1 hr)] at h
    cases h
    rw [devAt_out, hD] at hE; cases hE
    exact hidle

/-- Every state register is Idle, read through device slots. -/
theorem allIdle_iff (hc : s.Canon) : s.AllIdle ↔ ∀ d D, devAt s d = some D → D.state = .idle :=
  ⟨fun h d D hD => h (d, D) (mem_of_devAt hD), fun h e he => h e.1 e.2 (devAt_of_mem hc he)⟩

/-- A host command keeps every state register Idle: it writes none but that of a device it steps (R128). -/
theorem exec_allIdle (hi : portAccepts i.opc.toNat = true) (hs : s.Inv) (hidle : s.AllIdle)
    (h : exec i s = .next t) : t.AllIdle := by
  refine (allIdle_iff (exec_inv hs h).2.1).2 fun d E hE => ?_
  rcases exec_slot h hE with ⟨D, hD⟩ | ⟨baud, data, stop, start, rfl⟩
  · have hDidle : D.state = .idle := (allIdle_iff hs.2.1).1 hidle d D hD
    by_cases hst : E.state = D.state
    · rw [hst, hDidle]
    · obtain ⟨da, rfl, rfl⟩ := exec_field_changed (f := Device.state) (P := fun e => ∃ da, i = .step da ∧ e = slotIndex da)
        (fun _ _ _ => effect_host_state hi) h hD hE hst
      exact exec_step_idle hs hD hDidle h hE
  · rfl

/-- Settles O16: what the port lets through is a host command, and those keep every state register Idle. -/
theorem portStepKeepsStateIdle : Obligations.PortStepKeepsStateIdle := by
  intro s t hs hidle hport h
  rcases step_cases h with ⟨-, rfl⟩ | ⟨c, rest, hp, hstep⟩
  · exact ⟨hidle, hport⟩
  · rw [State.PortOnly, hp] at hport
    obtain ⟨hc, hrest⟩ := List.forall_mem_cons.1 hport
    rcases hstep with ⟨r, rfl⟩ | ⟨i, hd, hx⟩
    · exact ⟨hidle, hrest⟩
    · have hs' : ({ s with pending := rest } : State).Inv := inv_congr rfl rfl hs
      exact ⟨exec_allIdle (decodeIssue_host hc hd) hs' hidle hx, by rw [State.PortOnly, exec_pending hx]; exact hrest⟩

end Sys2Proof.Machine
end

section
/-! SUPPORT. The built block, the refusals of a block and of a missing slot, and the creation of a device
(`10_state.md` R20, R21, R37, R38). -/

namespace Sys2Proof.Machine

variable {s : State} {da : SlotIx} {baud data stop start : Word}

/-- A block built with admitted parameters has nothing refused (R37). -/
theorem build_refused {p : Params} (hp : paramsOk p = true) : (State.build p).refused = none := by
  obtain ⟨hc, ho⟩ : capacitiesOk p = true ∧ otherParamsOk p = true := by simpa [paramsOk] using hp
  simp [State.build, hc, ho]

/-- A built block holds no device (R37). -/
theorem build_devAt (p : Params) (d : Nat) : devAt (State.build p) d = none := by
  unfold devAt; split <;> rfl

/-- A block built with admitted parameters meets the invariant: it has no device that could fail it. -/
theorem build_inv {p : Params} (hp : paramsOk p = true) : (State.build p).Inv :=
  inv_iff.2 ⟨hp, ⟨List.Pairwise.nil, fun _ he => nomatch he⟩, fun d D hD => by rw [build_devAt] at hD; cases hD⟩

/-- Settles O12: the building lists no device and sets the mark only for parameters that are not admitted. -/
theorem builtBlockHasNoDevice : Obligations.BuiltBlockHasNoDevice :=
  fun p hp => ⟨build_refused hp, rfl, build_devAt p⟩

/-- Settles O14: the reset block is built with admitted parameters. -/
theorem resetMeetsInvariant : Obligations.ResetMeetsInvariant := by
  have hp : paramsOk Config.defaultParams = true := by decide
  exact ⟨build_inv hp, fun _ he => (nomatch he), reset_memory_wf, build_refused hp⟩

/-- Settles O8: a step of a refused block either finds no command, and changes nothing, or has no next state. -/
theorem refusedBlockExecutesNothing : Obligations.RefusedBlockExecutesNothing := by
  intro s r hr
  have hmark : s.refused.isSome = true := by rw [hr]; rfl
  cases hp : s.pending with
  | nil =>
    refine ⟨fun h => absurd rfl h, fun t h => ?_⟩
    rw [step, runNext, hp] at h
    cases h; rfl
  | cons c rest =>
    have hstep : step s = .refused .blockRefused := by simp only [step, runNext, hp, hmark, if_true]
    exact ⟨fun _ => hstep, fun t h => by rw [hstep] at h; cases h⟩

/-- CONNECT with a slot that holds no device is refused, whichever operand names it (R140). -/
theorem exec_connect_missing {db : SlotIx} (h : devAt s (slotIndex da) = none ∨ devAt s (slotIndex db) = none) :
    exec (.connect da db) s = refuse s .badSlot := by
  simp only [exec, execConnect, deviceOperand]
  split
  · next hA hB => rcases h with h | h <;> simp_all
  · rfl

/-- Settles O11: CONNECT tests both its slots, and every other operation of the list runs on the device its DA names. -/
theorem missingSlotIsRefusedBadSlot : Obligations.MissingSlotIsRefusedBadSlot := by
  intro s da db num den bits v qs h i hi
  simp only [List.mem_cons, List.not_mem_nil, or_false] at hi
  rcases hi with rfl | rfl | hi
  · exact exec_connect_missing (.inl h)
  · exact exec_connect_missing (.inr h)
  · rcases hi with rfl | rfl | rfl | rfl | rfl | rfl | rfl | rfl | rfl | rfl | rfl | rfl | rfl | rfl | rfl | rfl | rfl
    all_goals exact onDevice_none h _

/-- CREATE_DEVICE on a free slot with positive words writes the new device there (R101). -/
theorem exec_createDevice_free (hlt : slotIndex da < s.params.ndev) (hfree : devAt s (slotIndex da) = none)
    (hcfg : configHasZero baud data stop start = false) :
    exec (.createDevice da baud data stop start) s =
      .next { putDev s (slotIndex da) (newDevice baud data stop start) with out := .response [] } := by
  have hslot : ¬ (s.params.ndev ≤ slotIndex da ∨ (deviceOperand s da).isSome = true) := by
    simp [deviceOperand, hfree, hlt]
  simp only [exec, execCreateDevice, if_neg hslot, hcfg]
  rfl

/-- `time_per_byte` times the baud rate is `bits_per_frame` (R26, R103). -/
theorem timePerByteOf_mul_baud (bpf : Nat) (h : baud ≠ 0) : timePerByteOf bpf baud * (baud.toNat : Rat) = bpf :=
  div_mul_cancel₀ _ (Nat.cast_ne_zero.2 fun h0 => h (BitVec.eq_of_toNat_eq h0))

/-- Settles O22: the device written has the reset values of R38 by its definition. -/
theorem createDeviceMakesTheDevice : Obligations.CreateDeviceMakesTheDevice := by
  intro s da baud data stop start hlt hfree hbaud hdata hstop hstart
  have hcfg : configHasZero baud data stop start = false :=
    decide_eq_false (not_or.2 ⟨hbaud, not_or.2 ⟨hdata, not_or.2 ⟨hstop, hstart⟩⟩⟩)
  refine ⟨_, newDevice baud data stop start, exec_createDevice_free hlt hfree hcfg, rfl, ⟨⟨⟨rfl, rfl, rfl⟩, rfl, rfl⟩, ?_⟩,
    devAt_putDev_same hlt _, rfl, rfl, rfl, rfl, rfl, timePerByteOf_mul_baud _ hbaud, rfl, rfl, rfl, rfl, rfl, rfl, rfl,
    rfl, rfl, rfl⟩
  exact fun e he => devAt_putDev_ne s (by simpa using he) (newDevice baud data stop start)

end Sys2Proof.Machine
end

section
/-! SUPPORT. One step of the machine and the canonical form of its storage (`20_memory.md` R40, R41, R47, R60). -/

namespace Sys2Proof.Machine

variable {s t : State} {i : Instr} {e : Nat} {D D' : Device}

/-! ### What a step does with the next command (R47, R78, R171) -/

/-- With no command issued a step changes nothing (R171). -/
theorem step_of_none_pending (hp : s.pending = []) : step s = .next s := by
  simp only [step, runNext, hp]

/-- Outside a refused block, a next command that decodes is taken off the stream and its operation executed (R47). -/
theorem step_of_decoded {c : Issue} {rest : List Issue} (hp : s.pending = c :: rest) (hr : s.refused = none)
    (hd : decodeIssue c = .ok i) : step s = exec i { s with pending := rest } := by
  have hmark : s.refused.isSome = false := by rw [hr]; rfl
  simp only [step, runNext, hp, hmark, Bool.false_eq_true, if_false, hd]

/-- Outside a refused block, a next command that does not decode is taken off the stream and refused (R78, R162). -/
theorem step_of_undecoded {c : Issue} {rest : List Issue} {r : RefuseReason} (hp : s.pending = c :: rest)
    (hr : s.refused = none) (hd : decodeIssue c = .error r) : step s = refuse { s with pending := rest } r := by
  have hmark : s.refused.isSome = false := by rw [hr]; rfl
  simp only [step, runNext, hp, hmark, Bool.false_eq_true, if_false, hd]

/-- Settles O6: the three branches of a step outside a refused block. -/
theorem stepRunsTheDecodedInstruction : Obligations.StepRunsTheDecodedInstruction := fun _ _ _ =>
  ⟨fun _ => step_of_decoded, fun _ => step_of_undecoded, step_of_none_pending⟩

/-! ### The canonical form of all storage (R40, R41) -/

/-- Replacing the queue that QS selects by one that keeps it keeps both queues of the device. -/
theorem withQueue_kept {p : Params} {qs : QSel} {q : Queue} (hq : QueueKept (capacityOf p qs) (queueOf D qs) q) :
    QueueKept p.nTx D.tx (withQueue D q qs).tx ∧ QueueKept p.nRx D.rx (withQueue D q qs).rx := by
  cases qs
  · exact ⟨hq, .refl _ _⟩
  · exact ⟨.refl _ _, hq⟩

/-- Every write of an operation keeps both queues of the device it writes. -/
theorem effect_queues_kept (h : Effect s i e D D') :
    QueueKept s.params.nTx D.tx D'.tx ∧ QueueKept s.params.nRx D.rx D'.rx := by
  have unchanged : QueueKept s.params.nTx D.tx D.tx ∧ QueueKept s.params.nRx D.rx D.rx := ⟨.refl _ _, .refl _ _⟩
  have peerRx : WritesRx s.params D D' → QueueKept s.params.nTx D.tx D'.tx ∧ QueueKept s.params.nRx D.rx D'.rx :=
    fun ⟨_, hq, hD'⟩ => hD' ▸ withQueue_kept (qs := .rx) hq
  cases i <;> simp only [Effect] at h
  case connect => rcases h with ⟨-, rfl⟩ | ⟨-, rfl⟩ <;> exact unchanged
  case enqueueTransmit => obtain ⟨-, q, hq, rfl⟩ := h; exact withQueue_kept (qs := .tx) hq
  case tick => obtain ⟨-, c, rfl⟩ := h; exact unchanged
  case step =>
    rcases h with ⟨-, c, st, tx, rx, rxb, htx, hrx, -, rfl⟩ | ⟨-, h⟩
    · exact ⟨htx, hrx⟩
    · exact peerRx h
  case drainReceived => obtain ⟨-, rfl⟩ := h; exact unchanged
  case resetClock => obtain ⟨-, c, rfl⟩ := h; exact unchanged
  case updateState => obtain ⟨-, st, rfl⟩ := h; exact unchanged
  case handleTransmit =>
    rcases h with ⟨-, st, tx, htx, rfl⟩ | ⟨-, h⟩
    · exact ⟨htx, .refl _ _⟩
    · exact peerRx h
  case handleReceive => obtain ⟨-, st, rx, rxb, hrx, -, rfl⟩ := h; exact ⟨.refl _ _, hrx⟩
  case peerPush => exact peerRx h.2
  all_goals (obtain ⟨-, q, hq, rfl⟩ := h; exact withQueue_kept hq)

/-- Every operation keeps the storage canonical: a refusal writes none, a created device has empty slot arrays, and any
other write keeps the queues of the device it writes. -/
theorem exec_memory_wf (hs : Memory.wf s) (h : exec i s = .next t) : Memory.wf t := by
  rcases exec_cases h with ⟨r, rfl⟩ | ⟨da, baud, data, stop, start, -, -, -, -, rfl⟩ | ⟨-, hw⟩
  · exact hs
  · exact memory_wf_putDev hs ⟨List.Pairwise.nil, List.Pairwise.nil⟩
  · refine hw.memory_wf (fun _ _ _ hD hq => ?_) hs
    obtain ⟨htx, hrx⟩ := effect_queues_kept hD
    exact ⟨htx.1 hq.1, hrx.1 hq.2⟩

/-- Settles O17: a step takes a command off the stream, which is no storage, and executes an operation. -/
theorem stepKeepsStorageCanonical : Obligations.StepKeepsStorageCanonical := by
  intro s t hs h
  rcases step_cases h with ⟨-, rfl⟩ | ⟨c, rest, -, ⟨r, rfl⟩ | ⟨i, -, hx⟩⟩
  · exact hs
  · exact hs
  · exact exec_memory_wf (s := { s with pending := rest }) hs hx

end Sys2Proof.Machine
end

section
/-! SUPPORT. What reaches the peer's receive queue: PEER_PUSH and the frame of HANDLE_TRANSMIT (`20_memory.md` R44, R53,
`43_framing.md` R115 to R119, `44_link.md` R144 to R146). -/

namespace Sys2Proof.Machine

variable {s t : State} {da : SlotIx} {p : Nat} {D P : Device} {v : Bit}

/-! ### PEER_PUSH (R144 to R146) -/

/-- PEER_PUSH whose push succeeds: the state the push leaves, and true. -/
theorem exec_peerPush_some (hD : devAt s (slotIndex da) = some D) (h : peerPush s (slotIndex da) v = some t) :
    exec (.peerPush da v) s = .next { t with out := .pushed true D.peer.isNone } := by
  simp only [exec, execPeerPush, onDevice_some hD, h, returns]

/-- PEER_PUSH whose push fails: nothing but the answer. -/
theorem exec_peerPush_none (hD : devAt s (slotIndex da) = some D) (h : peerPush s (slotIndex da) v = none) :
    exec (.peerPush da v) s = .next { s with out := .pushed false D.peer.isNone } := by
  simp only [exec, execPeerPush, onDevice_some hD, h, returns]

/-- The receive queue of a device is well formed. -/
theorem inv_rx_wf (hs : s.Inv) (hP : devAt s p = some P) : queueWf s.params.nRx P.rx := by
  obtain ⟨-, -, -, hrx, -⟩ := inv_deviceWf hs hP
  exact hrx

/-- Settles O54: with a peer, the push is a push onto the peer's receive queue, which has room for it or is full; with
none it fails. -/
theorem peerPushReachesThePeer : Obligations.PeerPushReachesThePeer := by
  intro s da v D hs hD
  refine ⟨fun P p hp hP hroom => ?_, fun P p hp hP hfull => ?_, fun hp => ?_⟩
  · obtain ⟨q, hq⟩ := qPush_isSome (q := P.rx) (v := v) (by rwa [contents_length])
    have hpush : peerPush s (slotIndex da) v = some (putDev s p { P with rx := q }) := by
      rw [peerPush_peer hD hp hP, hq]; rfl
    have hx := exec_peerPush_some hD hpush
    rw [hp] at hx
    have htouched := touched_putDev (devAt_lt hP) { P with rx := q }
    exact ⟨_, q, hx, rfl, ⟨htouched.same, htouched.slots⟩, devAt_putDev_same (devAt_lt hP) _,
      (qPush_spec (inv_rx_wf hs hP) hq).2⟩
  · have hpush : peerPush s (slotIndex da) v = none := by
      rw [peerPush_peer hD hp hP, qPush_eq_none.2 hfull]; rfl
    rw [exec_peerPush_none hD hpush, hp]; rfl
  · rw [exec_peerPush_none hD (peerPush_no_peer hD hp v), hp]; rfl

/-! ### HANDLE_TRANSMIT to a peer (R44, R115 to R119) -/

theorem transmits_iff {s0 : DeviceState} :
    transmits s0 = true ↔ s0 = .transmitting ∨ s0 = .transmittingAndReceiving := by
  cases s0 <;> simp [transmits]

/-- HANDLE_TRANSMIT is the transmit phase of its device under the S0 that is kept. -/
theorem exec_handleTransmit (hD : devAt s (slotIndex da) = some D) :
    exec (.handleTransmit da) s =
      .next { (handleTransmit s (slotIndex da) D s.s0).state with
        out := .transmit (handleTransmit s (slotIndex da) D s.s0).txr (handleTransmit s (slotIndex da) D s.s0).nopeer
          (handleTransmit s (slotIndex da) D s.s0).lost } :=
  onDevice_some hD _

/-- HANDLE_TRANSMIT of a device with a peer, when S0 lets it run: the bits of the phase (`phaseBits`: the whole frame, or
what an underrun leaves of it) join the peer's receive queue as far as it has room, and the rest is lost. -/
theorem exec_handleTransmit_peer (hs : s.Inv) (hD : devAt s (slotIndex da) = some D) (hp : D.peer = some p)
    (hP : devAt s p = some P) (hs0 : transmits s.s0 = true) :
    ∃ t tx rx, exec (.handleTransmit da) s = .next t ∧
      t.out = .transmit (phaseTxr D (contents s.params.nTx D.tx)) false
        ((phaseBits D (contents s.params.nTx D.tx)).length - room s.params.nRx P.rx) ∧
      OnlySlots [slotIndex da, p] s t ∧
      devAt t (slotIndex da) = some { D with tx := tx, state := .idle } ∧
      devAt t p = some { P with rx := rx } ∧
      contents s.params.nTx tx = (contents s.params.nTx D.tx).drop D.dataBits.toNat ∧
      contents s.params.nRx rx = contents s.params.nRx P.rx ++
        (phaseBits D (contents s.params.nTx D.tx)).take (room s.params.nRx P.rx) := by
  obtain ⟨-, hpeer, htx, -⟩ := inv_deviceWf hs hD
  obtain ⟨hne, -⟩ := hpeer p hp
  obtain ⟨tx, -, hcont, htxr, hnopeer, hlost, htouched, hsender, hreceiver⟩ :=
    handleTransmit_peer hD hp hne hP htx hs0
  obtain ⟨-, hpushed, hcount⟩ := qPushAll_spec (inv_rx_wf hs hP) (phaseBits D (contents s.params.nTx D.tx))
  refine ⟨_, tx, _, exec_handleTransmit hD, ?_, ⟨htouched.same, htouched.slots⟩, hsender, hreceiver, hcont, hpushed⟩
  have hlostRoom : (handleTransmit s (slotIndex da) D s.s0).lost =
      (phaseBits D (contents s.params.nTx D.tx)).length - room s.params.nRx P.rx := by rw [hlost, hcount]; omega
  simp only [htxr, hnopeer, hlostRoom]

/-- Settles O36: with data_bits bits queued the phase's bits are the whole frame, and its result is SENT. -/
theorem transmitSendsOneFrame : Obligations.TransmitSendsOneFrame := by
  intro s da D P p hs hD hp hP hs0 hqueued
  obtain ⟨t, tx, rx, hx, hout, hrest⟩ := exec_handleTransmit_peer hs hD hp hP (transmits_iff.2 hs0)
  have hlen : D.dataBits.toNat ≤ (contents s.params.nTx D.tx).length := by rwa [contents_length]
  simp only [phaseBits, phaseTxr, if_pos hlen] at hout hrest
  exact ⟨t, tx, rx, _, rfl, hx, hout, hrest⟩

end Sys2Proof.Machine
end

section
/-! SUPPORT. The decoder: each row of the opcode map, what decodes, what has no meaning, and the settled statements
about them (`30_encoding.md` R61 to R70, R75, R78, R82). -/

namespace Sys2Proof

/-! ### A command made of its fields (R61, R63) -/

/-- The command with these fields and this payload. -/
def commandOf (opc : BitVec 8) (da low : SlotIx) (ws : List Word) : Command := { cw := mkCw opc da low, payload := ws }

section fields
variable (opc : BitVec 8) (da low : SlotIx) (ws : List Word)

theorem opcOf_commandOf : opcOf (commandOf opc da low ws).cw = opc.toNat := opcOf_mkCw opc da low

theorem formatH0_commandOf (k : SlotIx → Except RefuseReason Instr) : formatH0 (commandOf opc da 0 ws).cw k = k da := by
  rw [commandOf, formatH0_zero (lowOf_mkCw opc da 0), daOf_mkCw]

theorem formatQ_commandOf (qs : QSel) (k : SlotIx → QSel → Except RefuseReason Instr) :
    formatQ (commandOf opc da (qsField qs) ws).cw k = k da qs := by
  rw [commandOf, formatQ_qsField (lowOf_mkCw opc da (qsField qs)), daOf_mkCw]

theorem formatF_commandOf (k : Except RefuseReason Instr) : formatF (commandOf opc 0 0 ws).cw k = k := by
  rw [formatF, commandOf, daOf_mkCw, lowOf_mkCw, if_pos ⟨rfl, rfl⟩]

end fields

/-! ### Each row of the opcode map (R75) -/

section rows
variable (da db : SlotIx) (qs : QSel) (p0 p1 p2 p3 : Word) (ws : List Word)

theorem decode_row_createDevice :
    decode (commandOf 0x01 da 0 (p0 :: p1 :: p2 :: p3 :: ws)) = .ok (.createDevice da p0 p1 p2 p3) :=
  (decode_createDevice (opcOf_commandOf 0x01 da 0 _)).trans (formatH0_commandOf _ _ _ _)

theorem decode_row_connect : decode (commandOf 0x02 da db ws) = .ok (.connect da db) :=
  (decode_connect (opcOf_commandOf 0x02 da db _)).trans (by rw [commandOf, daOf_mkCw, lowOf_mkCw])

theorem decode_row_enqueueTransmit : decode (commandOf 0x03 da 0 ws) = bitsOperand ws (.enqueueTransmit da) :=
  (decode_enqueueTransmit (opcOf_commandOf 0x03 da 0 _)).trans (formatH0_commandOf _ _ _ _)

theorem decode_row_tick : decode (commandOf 0x04 da 0 (p0 :: p1 :: ws)) = .ok (.tick da p0 p1) :=
  (decode_tick (opcOf_commandOf 0x04 da 0 _)).trans (formatH0_commandOf _ _ _ _)

theorem decode_row_step : decode (commandOf 0x05 da 0 ws) = .ok (.step da) :=
  (decode_step (opcOf_commandOf 0x05 da 0 _)).trans (formatH0_commandOf _ _ _ _)

theorem decode_row_drainReceived : decode (commandOf 0x06 da 0 ws) = .ok (.drainReceived da) :=
  (decode_drainReceived (opcOf_commandOf 0x06 da 0 _)).trans (formatH0_commandOf _ _ _ _)

theorem decode_row_isReady : decode (commandOf 0x40 da 0 ws) = .ok (.isReady da) :=
  (decode_isReady (opcOf_commandOf 0x40 da 0 _)).trans (formatH0_commandOf _ _ _ _)

theorem decode_row_resetClock : decode (commandOf 0x41 da 0 ws) = .ok (.resetClock da) :=
  (decode_resetClock (opcOf_commandOf 0x41 da 0 _)).trans (formatH0_commandOf _ _ _ _)

theorem decode_row_updateState : decode (commandOf 0x42 da 0 ws) = .ok (.updateState da) :=
  (decode_updateState (opcOf_commandOf 0x42 da 0 _)).trans (formatH0_commandOf _ _ _ _)

theorem decode_row_handleTransmit : decode (commandOf 0x43 da 0 ws) = .ok (.handleTransmit da) :=
  (decode_handleTransmit (opcOf_commandOf 0x43 da 0 _)).trans (formatH0_commandOf _ _ _ _)

theorem decode_row_handleReceive : decode (commandOf 0x44 da 0 ws) = .ok (.handleReceive da) :=
  (decode_handleReceive (opcOf_commandOf 0x44 da 0 _)).trans (formatH0_commandOf _ _ _ _)

theorem decode_row_peerPush : decode (commandOf 0x45 da 0 ws) = bitOperand ws (.peerPush da) :=
  (decode_peerPush (opcOf_commandOf 0x45 da 0 _)).trans (formatH0_commandOf _ _ _ _)

theorem decode_row_qInit : decode (commandOf 0x80 da (qsField qs) ws) = .ok (.qInit da qs) :=
  (decode_qInit (opcOf_commandOf 0x80 da (qsField qs) _)).trans (formatQ_commandOf _ _ _ _ _)

theorem decode_row_qPush : decode (commandOf 0x81 da (qsField qs) ws) = bitOperand ws (.qPush da qs) :=
  (decode_qPush (opcOf_commandOf 0x81 da (qsField qs) _)).trans (formatQ_commandOf _ _ _ _ _)

theorem decode_row_qPop : decode (commandOf 0x82 da (qsField qs) ws) = .ok (.qPop da qs) :=
  (decode_qPop (opcOf_commandOf 0x82 da (qsField qs) _)).trans (formatQ_commandOf _ _ _ _ _)

theorem decode_row_qPeek : decode (commandOf 0x83 da (qsField qs) ws) = .ok (.qPeek da qs) :=
  (decode_qPeek (opcOf_commandOf 0x83 da (qsField qs) _)).trans (formatQ_commandOf _ _ _ _ _)

theorem decode_row_qReset : decode (commandOf 0x84 da (qsField qs) ws) = .ok (.qReset da qs) :=
  (decode_qReset (opcOf_commandOf 0x84 da (qsField qs) _)).trans (formatQ_commandOf _ _ _ _ _)

theorem decode_row_qIsEmpty : decode (commandOf 0x85 da (qsField qs) ws) = .ok (.qIsEmpty da qs) :=
  (decode_qIsEmpty (opcOf_commandOf 0x85 da (qsField qs) _)).trans (formatQ_commandOf _ _ _ _ _)

theorem decode_row_qIsFull : decode (commandOf 0x86 da (qsField qs) ws) = .ok (.qIsFull da qs) :=
  (decode_qIsFull (opcOf_commandOf 0x86 da (qsField qs) _)).trans (formatQ_commandOf _ _ _ _ _)

theorem decode_row_bytesToBits : decode (commandOf 0xC0 0 0 ws) = bytesOperand ws .bytesToBits :=
  (decode_bytesToBits (opcOf_commandOf 0xC0 0 0 _)).trans (formatF_commandOf _ _ _)

theorem decode_row_bitsToByte : decode (commandOf 0xC1 0 0 ws) = bitsOperand ws .bitsToByte :=
  (decode_bitsToByte (opcOf_commandOf 0xC1 0 0 _)).trans (formatF_commandOf _ _ _)

end rows

/-- Settles O1: each row of the opcode map decodes to its instruction, and the operand words of each instruction
decode to its operand. -/
theorem decodeEncodeGivesBackInstruction : Obligations.DecodeEncodeGivesBackInstruction := by
  intro i hi
  cases i with
  | createDevice da baud data stop start => exact decode_row_createDevice da baud data stop start []
  | connect da db => exact decode_row_connect da db []
  | enqueueTransmit da bits =>
    exact (decode_row_enqueueTransmit da _).trans (bitsOperand_bitsPayload (of_decide_eq_true hi) _)
  | tick da num den => exact decode_row_tick da num den []
  | step da => exact decode_row_step da []
  | drainReceived da => exact decode_row_drainReceived da []
  | isReady da => exact decode_row_isReady da []
  | resetClock da => exact decode_row_resetClock da []
  | updateState da => exact decode_row_updateState da []
  | handleTransmit da => exact decode_row_handleTransmit da []
  | handleReceive da => exact decode_row_handleReceive da []
  | peerPush da v => exact (decode_row_peerPush da _).trans (bitOperand_bitWord v _)
  | qInit da qs => exact decode_row_qInit da qs []
  | qPush da qs v => exact (decode_row_qPush da qs _).trans (bitOperand_bitWord v _)
  | qPop da qs => exact decode_row_qPop da qs []
  | qPeek da qs => exact decode_row_qPeek da qs []
  | qReset da qs => exact decode_row_qReset da qs []
  | qIsEmpty da qs => exact decode_row_qIsEmpty da qs []
  | qIsFull da qs => exact decode_row_qIsFull da qs []
  | bytesToBits bytes => exact (decode_row_bytesToBits _).trans (bytesOperand_payload (of_decide_eq_true hi) _)
  | bitsToByte bits => exact (decode_row_bitsToByte _).trans (bitsOperand_bitsPayload (of_decide_eq_true hi) _)

/-! ### Words written out (R61 to R70, R82) -/

/-- A counted bit sequence with enough words: bit i is bit 31 - i mod 32 of word i div 32 (R68). -/
theorem bitsOperand_long {p : Word} {ws : List Word} (h : (p.toNat + 31) / 32 ≤ ws.length) (k : List Bit → Instr) :
    ∃ bits, bitsOperand (p :: ws) k = .ok (k bits) ∧ bits.length = p.toNat ∧
      ∀ i, i < p.toNat → bits[i]? = (ws[i / 32]?).map fun w => w.getLsbD (31 - i % 32) := by
  have hlong : ¬ ws.length < wordsFor p.toNat := not_lt.2 h
  refine ⟨(List.range p.toNat).map (packedBit ws), ?_, by simp, fun i hi => ?_⟩
  · simp only [bitsOperand, unpackBits, if_neg hlong]
  · have hword : i / 32 < ws.length := by omega
    rw [List.getElem?_map, List.getElem?_range hi, List.getElem?_eq_getElem hword, Option.map_some, Option.map_some,
      packedBit, List.getD_eq_getElem _ _ hword]

/-- The bytes of BYTES_TO_BITS with enough words: byte k is the low byte of word k. -/
theorem bytesOperand_long {p : Word} {ws : List Word} (h : p.toNat ≤ ws.length) (k : List Byte → Instr) :
    ∃ bytes, bytesOperand (p :: ws) k = .ok (k bytes) ∧ bytes.length = p.toNat ∧
      ∀ j, j < p.toNat → bytes[j]? = (ws[j]?).map fun w => w.extractLsb' 0 8 := by
  refine ⟨(ws.take p.toNat).map fun w => w.extractLsb' 0 8, ?_, by simpa using h, fun j hj => ?_⟩
  · simp only [bytesOperand, if_neg (not_lt.2 h)]
  · rw [List.getElem?_map, List.getElem?_take_of_lt hj]

/-- Settles O3: each written-out word is the command of its fields. -/
theorem writtenOutWordsDecode : Obligations.WrittenOutWordsDecode := by
  intro da db p0 p1 p2 p3 ws
  refine ⟨decode_row_createDevice da p0 p1 p2 p3 ws, decode_row_connect da db ws, fun h => ?_,
    decode_row_tick da p0 p1 ws, decode_row_step da ws, decode_row_drainReceived da ws, decode_row_isReady da ws,
    decode_row_resetClock da ws, decode_row_updateState da ws, decode_row_handleTransmit da ws,
    decode_row_handleReceive da ws, decode_row_peerPush da (p0 :: ws), fun low qs hqs => ?_, fun h => ?_, fun h => ?_⟩
  · obtain ⟨bits, hbits, hrest⟩ := bitsOperand_long h (.enqueueTransmit da)
    exact ⟨bits, (decode_row_enqueueTransmit da _).trans hbits, hrest⟩
  · obtain rfl : low = qsField qs := by rcases hqs with ⟨rfl, rfl⟩ | ⟨rfl, rfl⟩ <;> rfl
    exact ⟨decode_row_qInit da qs ws, decode_row_qPush da qs (p0 :: ws), decode_row_qPop da qs ws,
      decode_row_qPeek da qs ws, decode_row_qReset da qs ws, decode_row_qIsEmpty da qs ws, decode_row_qIsFull da qs ws⟩
  · obtain ⟨bytes, hbytes, hrest⟩ := bytesOperand_long h .bytesToBits
    exact ⟨bytes, (decode_row_bytesToBits _).trans hbytes, hrest⟩
  · obtain ⟨bits, hbits, hrest⟩ := bitsOperand_long h .bitsToByte
    exact ⟨bits, (decode_row_bitsToByte _).trans hbits, hrest⟩

/-! ### What decodes (R61, R75) -/

/-- What format H0 makes of its DA alone has the command word it came from. -/
theorem formatH0_word {cw : CmdWord} {k : SlotIx → Instr} {i : Instr} (h : formatH0 cw (fun da => .ok (k da)) = .ok i)
    (ho : opcOf cw = (k (daOf cw)).opc.toNat)
    (hk : ∀ da, (k da).wf = true ∧ (k da).operands.1 = da ∧ (k da).operands.2.1 = 0) :
    i.wf = true ∧ (encode i).cw = cw := by
  obtain ⟨hl, h⟩ := formatH0_ok h
  obtain ⟨hwf, hd, hlow⟩ := hk (daOf cw)
  cases h
  exact ⟨hwf, encode_cw_eq ho hd.symm (hl.trans hlow.symm)⟩

/-- What format Q makes of its DA and QS alone has the command word it came from. -/
theorem formatQ_word {cw : CmdWord} {k : SlotIx → QSel → Instr} {i : Instr}
    (h : formatQ cw (fun da qs => .ok (k da qs)) = .ok i) (ho : ∀ qs, opcOf cw = (k (daOf cw) qs).opc.toNat)
    (hk : ∀ da qs, (k da qs).wf = true ∧ (k da qs).operands.1 = da ∧ (k da qs).operands.2.1 = qsField qs) :
    i.wf = true ∧ (encode i).cw = cw := by
  obtain ⟨qs, hl, h⟩ := formatQ_ok h
  obtain ⟨hwf, hd, hlow⟩ := hk (daOf cw) qs
  cases h
  exact ⟨hwf, encode_cw_eq (ho qs) hd.symm (hl.trans hlow.symm)⟩

/-- Settles O2: each format fixes CW[7:4] and CW[3:0] or makes them operands, and the three fields make the command
word. -/
theorem decodedInstructionHasSameCommandWord : Obligations.DecodedInstructionHasSameCommandWord := by
  intro c i h
  by_cases hmap : ∃ j : Instr, opcOf c.cw = j.opc.toNat
  swap
  · rw [decode_unknown (not_exists.1 hmap)] at h; cases h
  obtain ⟨j, ho⟩ := hmap
  cases j with
  | createDevice =>
    rw [decode_createDevice ho] at h
    obtain ⟨hl, h⟩ := formatH0_ok h
    split at h <;> cases h
    exact ⟨rfl, encode_cw_eq ho rfl hl⟩
  | connect => rw [decode_connect ho] at h; cases h; exact ⟨rfl, encode_cw_eq ho rfl rfl⟩
  | enqueueTransmit =>
    rw [decode_enqueueTransmit ho] at h
    obtain ⟨hl, h⟩ := formatH0_ok h
    obtain ⟨bits, rfl, hb⟩ := bitsOperand_ok h
    exact ⟨decide_eq_true hb, encode_cw_eq ho rfl hl⟩
  | tick =>
    rw [decode_tick ho] at h
    obtain ⟨hl, h⟩ := formatH0_ok h
    split at h <;> cases h
    exact ⟨rfl, encode_cw_eq ho rfl hl⟩
  | step => exact formatH0_word (decode_step ho ▸ h) ho fun _ => ⟨rfl, rfl, rfl⟩
  | drainReceived => exact formatH0_word (decode_drainReceived ho ▸ h) ho fun _ => ⟨rfl, rfl, rfl⟩
  | isReady => exact formatH0_word (decode_isReady ho ▸ h) ho fun _ => ⟨rfl, rfl, rfl⟩
  | resetClock => exact formatH0_word (decode_resetClock ho ▸ h) ho fun _ => ⟨rfl, rfl, rfl⟩
  | updateState => exact formatH0_word (decode_updateState ho ▸ h) ho fun _ => ⟨rfl, rfl, rfl⟩
  | handleTransmit => exact formatH0_word (decode_handleTransmit ho ▸ h) ho fun _ => ⟨rfl, rfl, rfl⟩
  | handleReceive => exact formatH0_word (decode_handleReceive ho ▸ h) ho fun _ => ⟨rfl, rfl, rfl⟩
  | peerPush =>
    rw [decode_peerPush ho] at h
    obtain ⟨hl, h⟩ := formatH0_ok h
    obtain ⟨v, rfl⟩ := bitOperand_ok h
    exact ⟨rfl, encode_cw_eq ho rfl hl⟩
  | qInit => exact formatQ_word (decode_qInit ho ▸ h) (fun _ => ho) fun _ _ => ⟨rfl, rfl, rfl⟩
  | qPush =>
    rw [decode_qPush ho] at h
    obtain ⟨qs, hl, h⟩ := formatQ_ok h
    obtain ⟨v, rfl⟩ := bitOperand_ok h
    exact ⟨rfl, encode_cw_eq ho rfl hl⟩
  | qPop => exact formatQ_word (decode_qPop ho ▸ h) (fun _ => ho) fun _ _ => ⟨rfl, rfl, rfl⟩
  | qPeek => exact formatQ_word (decode_qPeek ho ▸ h) (fun _ => ho) fun _ _ => ⟨rfl, rfl, rfl⟩
  | qReset => exact formatQ_word (decode_qReset ho ▸ h) (fun _ => ho) fun _ _ => ⟨rfl, rfl, rfl⟩
  | qIsEmpty => exact formatQ_word (decode_qIsEmpty ho ▸ h) (fun _ => ho) fun _ _ => ⟨rfl, rfl, rfl⟩
  | qIsFull => exact formatQ_word (decode_qIsFull ho ▸ h) (fun _ => ho) fun _ _ => ⟨rfl, rfl, rfl⟩
  | bytesToBits =>
    rw [decode_bytesToBits ho] at h
    obtain ⟨hd, hl, h⟩ := formatF_ok h
    obtain ⟨bytes, rfl, hb⟩ := bytesOperand_ok h
    exact ⟨decide_eq_true hb, encode_cw_eq ho hd hl⟩
  | bitsToByte =>
    rw [decode_bitsToByte ho] at h
    obtain ⟨hd, hl, h⟩ := formatF_ok h
    obtain ⟨bits, rfl, hb⟩ := bitsOperand_ok h
    exact ⟨decide_eq_true hb, encode_cw_eq ho hd hl⟩

/-! ### What has no meaning (R65, R75, R78) -/

theorem formatH0_reserved {cw : CmdWord} (h : lowOf cw ≠ 0) (k : SlotIx → Except RefuseReason Instr) :
    formatH0 cw k = .error .reservedField := if_neg h

theorem formatQ_reserved {cw : CmdWord} (h : 2 ≤ (lowOf cw).toNat) (k : SlotIx → QSel → Except RefuseReason Instr) :
    formatQ cw k = .error .reservedField := by
  have h0 : lowOf cw ≠ 0 := fun h0 => by rw [h0] at h; exact absurd h (by decide)
  have h1 : lowOf cw ≠ 1 := fun h1 => by rw [h1] at h; exact absurd h (by decide)
  rw [formatQ, if_neg h0, if_neg h1]

/-- CW[3:0] below 2 is a queue select (R63). -/
theorem lowOf_qsField {cw : CmdWord} (h : (lowOf cw).toNat < 2) : ∃ qs, lowOf cw = qsField qs := by
  obtain h0 | h1 : (lowOf cw).toNat = 0 ∨ (lowOf cw).toNat = 1 := by omega
  · exact ⟨.tx, BitVec.eq_of_toNat_eq h0⟩
  · exact ⟨.rx, BitVec.eq_of_toNat_eq h1⟩

theorem formatF_reserved {cw : CmdWord} (h : daOf cw ≠ 0 ∨ lowOf cw ≠ 0) (k : Except RefuseReason Instr) :
    formatF cw k = .error .reservedField := if_neg fun hz => h.elim (· hz.1) (· hz.2)

theorem formatF_zero {cw : CmdWord} (hd : daOf cw = 0) (hl : lowOf cw = 0) (k : Except RefuseReason Instr) :
    formatF cw k = k := if_pos ⟨hd, hl⟩

/-- A counted bit sequence with fewer words than its count needs (R65, R68). -/
theorem bitsOperand_short {ws : List Word} (h : ws.length < 1 + ((ws.headD 0).toNat + 31) / 32) (k : List Bit → Instr) :
    bitsOperand ws k = .error .shortPayload := by
  cases ws with
  | nil => rfl
  | cons p ws =>
    have hshort : ws.length < wordsFor p.toNat := by
      simp only [List.length_cons, List.headD_cons] at h
      unfold wordsFor; omega
    simp only [bitsOperand, unpackBits, if_pos hshort]

theorem bytesOperand_short {ws : List Word} (h : ws.length < 1 + (ws.headD 0).toNat) (k : List Byte → Instr) :
    bytesOperand ws k = .error .shortPayload := by
  cases ws with
  | nil => rfl
  | cons p ws =>
    have hshort : ws.length < p.toNat := by simp only [List.length_cons, List.headD_cons] at h; omega
    simp only [bytesOperand, if_pos hshort]

/-- The OPC values of formats H0 and U (R75). -/
theorem decode_formatH0 {c : Command}
    (h : opcOf c.cw ∈ [0x01, 0x03, 0x04, 0x05, 0x06, 0x40, 0x41, 0x42, 0x43, 0x44, 0x45]) :
    ∃ k, decode c = formatH0 c.cw k := by
  simp only [List.mem_cons, List.not_mem_nil, or_false] at h
  rcases h with h | h | h | h | h | h | h | h | h | h | h
  · exact ⟨_, decode_createDevice h⟩
  · exact ⟨_, decode_enqueueTransmit h⟩
  · exact ⟨_, decode_tick h⟩
  · exact ⟨_, decode_step h⟩
  · exact ⟨_, decode_drainReceived h⟩
  · exact ⟨_, decode_isReady h⟩
  · exact ⟨_, decode_resetClock h⟩
  · exact ⟨_, decode_updateState h⟩
  · exact ⟨_, decode_handleTransmit h⟩
  · exact ⟨_, decode_handleReceive h⟩
  · exact ⟨_, decode_peerPush h⟩

/-- The OPC values of format Q (R75). -/
theorem decode_formatQ {c : Command} (h : opcOf c.cw ∈ [0x80, 0x81, 0x82, 0x83, 0x84, 0x85, 0x86]) :
    ∃ k, decode c = formatQ c.cw k := by
  simp only [List.mem_cons, List.not_mem_nil, or_false] at h
  rcases h with h | h | h | h | h | h | h
  · exact ⟨_, decode_qInit h⟩
  · exact ⟨_, decode_qPush h⟩
  · exact ⟨_, decode_qPop h⟩
  · exact ⟨_, decode_qPeek h⟩
  · exact ⟨_, decode_qReset h⟩
  · exact ⟨_, decode_qIsEmpty h⟩
  · exact ⟨_, decode_qIsFull h⟩

/-- The OPC values of format F (R75). -/
theorem decode_formatF {c : Command} (h : opcOf c.cw ∈ [0xC0, 0xC1]) : ∃ k, decode c = formatF c.cw k := by
  simp only [List.mem_cons, List.not_mem_nil, or_false] at h
  rcases h with h | h
  · exact ⟨_, decode_bytesToBits h⟩
  · exact ⟨_, decode_bitsToByte h⟩

/-- The OPC of every instruction is in the opcode map (R75). -/
theorem opc_mem_map (i : Instr) :
    i.opc.toNat ∈ [0x01, 0x02, 0x03, 0x04, 0x05, 0x06, 0x40, 0x41, 0x42, 0x43, 0x44, 0x45, 0x80, 0x81, 0x82, 0x83, 0x84,
      0x85, 0x86, 0xC0, 0xC1] := by
  cases i <;> simp [Instr.opc]

/-- Settles O4: the OPC decides first, then the format's field, then the operand words. -/
theorem reservedEncodingsHaveNoMeaning : Obligations.ReservedEncodingsHaveNoMeaning := by
  intro c
  refine ⟨fun ho => ?_, fun ho hl => ?_, fun ho hl => ?_, fun ho hz => ?_, fun ho hl hp => ?_, fun ho hl hp => ?_,
    fun ho hl hp => ?_, fun ho hl hp => ?_, fun ho hl hp => ?_, fun ho hd hl hp => ?_, fun ho hd hl hp => ?_⟩
  · exact decode_unknown fun i hi => ho (hi ▸ opc_mem_map i)
  · obtain ⟨k, hk⟩ := decode_formatH0 ho
    rw [hk, formatH0_reserved hl]
  · obtain ⟨k, hk⟩ := decode_formatQ ho
    rw [hk, formatQ_reserved hl]
  · obtain ⟨k, hk⟩ := decode_formatF ho
    rw [hk, formatF_reserved hz]
  · rw [decode_createDevice ho, formatH0_zero hl]
    split
    · next hcons => rw [hcons] at hp; simp only [List.length_cons] at hp; omega
    · rfl
  · rw [decode_tick ho, formatH0_zero hl]
    split
    · next hcons => rw [hcons] at hp; simp only [List.length_cons] at hp; omega
    · rfl
  · rw [decode_enqueueTransmit ho, formatH0_zero hl, bitsOperand_short hp]
  · rw [decode_peerPush ho, formatH0_zero hl, hp]; rfl
  · obtain ⟨qs, hqs⟩ := lowOf_qsField hl
    rw [decode_qPush ho, formatQ_qsField hqs, hp]; rfl
  · rw [decode_bytesToBits ho, formatF_zero hd hl, bytesOperand_short hp]
  · rw [decode_bitsToByte ho, formatF_zero hd hl, bitsOperand_short hp]

end Sys2Proof
end

section
/-! SUPPORT. The byte transport on the commands of well-formed instructions (`30_encoding.md` R66, R67, R76). -/

namespace Sys2Proof

/-- The payload of every well-formed instruction has the words its OPC and its P0 call for (R67, R76). -/
theorem encode_payload_length {i : Instr} (h : i.wf = true) : (encode i).payload.length =
    fixedWords (opcOf (encode i).cw) + countedWords (opcOf (encode i).cw) ((encode i).payload.headD 0).toNat := by
  cases i with
  | createDevice da baud data stop start => exact Laws.PayloadLength.createDevice da baud data stop start h
  | connect da db => exact Laws.PayloadLength.connect da db h
  | enqueueTransmit da bits => exact Laws.PayloadLength.enqueueTransmit da bits h
  | tick da num den => exact Laws.PayloadLength.tick da num den h
  | step da => exact Laws.PayloadLength.step da h
  | drainReceived da => exact Laws.PayloadLength.drainReceived da h
  | isReady da => exact Laws.PayloadLength.isReady da h
  | resetClock da => exact Laws.PayloadLength.resetClock da h
  | updateState da => exact Laws.PayloadLength.updateState da h
  | handleTransmit da => exact Laws.PayloadLength.handleTransmit da h
  | handleReceive da => exact Laws.PayloadLength.handleReceive da h
  | peerPush da v => exact Laws.PayloadLength.peerPush da v h
  | qInit da qs => exact Laws.PayloadLength.qInit da qs h
  | qPush da qs v => exact Laws.PayloadLength.qPush da qs v h
  | qPop da qs => exact Laws.PayloadLength.qPop da qs h
  | qPeek da qs => exact Laws.PayloadLength.qPeek da qs h
  | qReset da qs => exact Laws.PayloadLength.qReset da qs h
  | qIsEmpty da qs => exact Laws.PayloadLength.qIsEmpty da qs h
  | qIsFull da qs => exact Laws.PayloadLength.qIsFull da qs h
  | bytesToBits bytes => exact Laws.PayloadLength.bytesToBits bytes h
  | bitsToByte bits => exact Laws.PayloadLength.bitsToByte bits h

/-- Words that P0 calls for come only where OPC calls for P0. -/
theorem countedWords_of_no_fixed {opc : Nat} (h : fixedWords opc = 0) (p0 : Nat) : countedWords opc p0 = 0 := by
  unfold countedWords
  split
  · cases h
  · cases h
  · cases h
  · rfl

/-- A command whose payload has the length its OPC and P0 call for is parsed back from its bytes, with anything behind
them. -/
theorem parseCommand_commandBytes {c : Command} (rest : List Byte)
    (h : c.payload.length = fixedWords (opcOf c.cw) + countedWords (opcOf c.cw) (c.payload.headD 0).toNat) :
    parseCommand (commandBytes c ++ rest) = some (c, rest) := by
  obtain ⟨cw, ws⟩ := c
  dsimp only at h
  obtain ⟨first, more, rfl, hfirst, hmore⟩ : ∃ first more, ws = first ++ more ∧ first.length = fixedWords (opcOf cw) ∧
      more.length = countedWords (opcOf cw) (ws.headD 0).toNat :=
    ⟨ws.take (fixedWords (opcOf cw)), ws.drop (fixedWords (opcOf cw)), (List.take_append_drop _ _).symm, by
      rw [List.length_take]; omega, by rw [List.length_drop]; omega⟩
  have hhead : countedWords (opcOf cw) ((first ++ more).headD 0).toNat =
      countedWords (opcOf cw) (first.headD 0).toNat := by
    cases first with
    | nil => rw [countedWords_of_no_fixed hfirst.symm, countedWords_of_no_fixed hfirst.symm]
    | cons w first => rfl
  have htake : takeWords (fixedWords (opcOf cw)) (first.flatMap wordBytes ++ (more.flatMap wordBytes ++ rest)) =
      (first, more.flatMap wordBytes ++ rest) := hfirst ▸ takeWords_wordBytes first _
  have hmoreTake : takeWords (countedWords (opcOf cw) (first.headD 0).toNat) (more.flatMap wordBytes ++ rest) =
      (more, rest) := by rw [← hhead, ← hmore]; exact takeWords_wordBytes more rest
  simp only [commandBytes, List.cons_append, parseCommand, cw_of_bytes, List.flatMap_append, List.append_assoc, htake,
    hmoreTake]

/-- Settles O5: the payload of an encoded instruction has the length that parsing takes. -/
theorem commandBytesParseBack : Obligations.CommandBytesParseBack := fun _ rest h =>
  parseCommand_commandBytes rest (encode_payload_length h)

end Sys2Proof
end

section
/-! SUPPORT. What the port refuses, the operands that are refused, and TICK (`30_encoding.md` R69, R70, R77,
`42_clock_state.md` R101 to R105, `44_link.md` R140). -/

namespace Sys2Proof.Machine

variable {s : State} {da : SlotIx} {D : Device}

/-- An OPC that the port does not accept has no meaning there (R77). -/
theorem decodeIssue_port_illegal {c : Command} (h : portAccepts (opcOf c.cw) = false) :
    decodeIssue ⟨.port, c⟩ = .error .illegalOpcode := by
  simp only [decodeIssue, h]

/-- Settles O7: the port does not decode the command, so the step refuses it. -/
theorem portRefusesMicroOperations : Obligations.PortRefusesMicroOperations := fun _ _ _ hp hr hopc =>
  step_of_undecoded hp hr (decodeIssue_port_illegal (decide_eq_false hopc))

/-- TICK by a nonzero denominator writes its device's clock and returns no words (R104). -/
theorem exec_tick (hD : devAt s (slotIndex da) = some D) (num : Word) {den : Word} (hden : den ≠ 0) :
    exec (.tick da num den) s =
      .next { putDev s (slotIndex da) { D with clock := D.clock - timeAmount num den } with out := .response [] } :=
  (onDevice_some hD _).trans (if_neg hden)

/-- Settles O23: each refusal is the first test of its rule that fails. -/
theorem operandRefusals : Obligations.OperandRefusals := by
  intro s da baud data stop start num
  refine ⟨fun h => ?_, fun hlt hfree hzero => ?_, fun h => ?_, fun h => ?_⟩
  · rw [← Option.isSome_iff_ne_none] at h
    exact if_pos h
  · have hslot : ¬ (s.params.ndev ≤ slotIndex da ∨ (deviceOperand s da).isSome = true) := by
      simp [deviceOperand, hfree, hlt]
    simp only [exec, execCreateDevice, if_neg hslot, configHasZero, decide_eq_true hzero, if_true, refuse]
  · obtain ⟨D, hD⟩ := Option.ne_none_iff_exists'.1 h
    exact (onDevice_some hD _).trans (if_pos rfl)
  · obtain ⟨D, hD⟩ := Option.ne_none_iff_exists'.1 h
    simp only [exec, execConnect, deviceOperand, hD, if_true, refuse]

/-- Settles O24: the clock is the one field written. -/
theorem tickSubtractsFromTheClock : Obligations.TickSubtractsFromTheClock := by
  intro s da num den D hD hden
  have htouched := touched_putDev (devAt_lt hD) { D with clock := D.clock - timeAmount num den }
  exact ⟨_, exec_tick hD num hden, rfl, ⟨htouched.same, htouched.slots⟩, devAt_putDev_same (devAt_lt hD) _⟩

end Sys2Proof.Machine
end

section
/-! SUPPORT. The STEP status word is the sum of its fields, each below the next one's place (`30_encoding.md` R72 to
R74). -/

namespace Sys2Proof.Machine

theorem stateCode_lt (st : DeviceState) : (stateCode st).toNat < 4 := by cases st <;> decide

theorem txCode_lt (txr : TxResult) : (txCode txr).toNat < 8 := by cases txr <;> decide

theorem rxCode_lt (rxr : RxResult) : (rxCode rxr).toNat < 8 := by cases rxr <;> decide

theorem boolCode_toNat (b : Bool) : (boolCode b).toNat = b.toNat := by cases b <;> rfl

/-- A field placed above every bit of a word adds its value at its place. -/
theorem or_shiftLeft_toNat {x y : Word} {n v : Nat} (hx : x.toNat = v) (hv : v < 2 ^ n)
    (hy : 2 ^ n * y.toNat < 2 ^ 32) :
    (x ||| y <<< n).toNat = v + 2 ^ n * y.toNat := by
  subst hx
  rw [BitVec.toNat_or, BitVec.toNat_shiftLeft, Nat.shiftLeft_eq, Nat.mul_comm, Nat.mod_eq_of_lt hy, Nat.or_comm,
    ← Nat.two_pow_add_eq_or_of_lt hv, Nat.add_comm]

/-- The status word is the sum of its fields at the places of R72. -/
theorem stepStatus_toNat (ready nopeer : Bool) (s0 send : DeviceState) (txr : TxResult) (rxr : RxResult) :
    (stepStatus ready s0 send txr rxr nopeer).toNat = ready.toNat + 2 * (stateCode s0).toNat +
      8 * (stateCode send).toNat + 32 * (txCode txr).toNat + 256 * (rxCode rxr).toNat + 2048 * nopeer.toNat := by
  have hready := Bool.toNat_lt ready
  have hnopeer := Bool.toNat_lt nopeer
  have hs0 := stateCode_lt s0
  have hsend := stateCode_lt send
  have htxr := txCode_lt txr
  have hrxr := rxCode_lt rxr
  rw [← boolCode_toNat nopeer] at hnopeer ⊢
  have h := or_shiftLeft_toNat (y := stateCode s0) (n := 1) (boolCode_toNat ready) (by omega) (by omega)
  have h := or_shiftLeft_toNat (y := stateCode send) (n := 3) h (by omega) (by omega)
  have h := or_shiftLeft_toNat (y := txCode txr) (n := 5) h (by omega) (by omega)
  have h := or_shiftLeft_toNat (y := rxCode rxr) (n := 8) h (by omega) (by omega)
  exact or_shiftLeft_toNat (y := boolCode nopeer) (n := 11) h (by omega) (by omega)

/-- A field of a word, as a number. -/
theorem extractLsb'_toNat_div {m : Nat} (w : BitVec m) (start len : Nat) :
    (w.extractLsb' start len).toNat = w.toNat / 2 ^ start % 2 ^ len := by
  rw [BitVec.extractLsb'_toNat, Nat.shiftRight_eq_div_pow]

/-- A bit of a word that its number has at that place. -/
theorem getLsbD_eq_of_div_mod {m : Nat} {w : BitVec m} {i : Nat} {b : Bool} (h : w.toNat / 2 ^ i % 2 = b.toNat) :
    w.getLsbD i = b := by
  rw [BitVec.getLsbD, Nat.testBit_eq_decide_div_mod_eq, h]
  cases b <;> rfl

/-- Settles O49: each field is read off the sum, whose other terms are multiples of the next place or below its own. -/
theorem statusWordFields : Obligations.StatusWordFields := by
  intro ready nopeer s0 send txr rxr
  have hready := Bool.toNat_lt ready
  have hnopeer := Bool.toNat_lt nopeer
  have hs0 := stateCode_lt s0
  have hsend := stateCode_lt send
  have htxr := txCode_lt txr
  have hrxr := rxCode_lt rxr
  have hsum := stepStatus_toNat ready nopeer s0 send txr rxr
  generalize stepStatus ready s0 send txr rxr nopeer = w at hsum ⊢
  refine ⟨getLsbD_eq_of_div_mod ?_, ?_, ?_, ?_, ?_, getLsbD_eq_of_div_mod ?_, ?_⟩
  · omega
  · rw [statusS0, extractLsb'_toNat_div]; omega
  · rw [statusSend, extractLsb'_toNat_div]; omega
  · rw [statusTxr, extractLsb'_toNat_div]; omega
  · rw [statusRxr, extractLsb'_toNat_div]; omega
  · omega
  · omega

end Sys2Proof.Machine
end

section
/-! SUPPORT. A ready STEP is its four phases (`43_framing.md` R127, R130). -/

namespace Sys2Proof.Machine

variable {s t : State} {da : SlotIx} {D E : Device}

/-- RESET_CLOCK writes its device's clock (R108). -/
theorem exec_resetClock (hD : devAt s (slotIndex da) = some D) :
    exec (.resetClock da) s = .next { putDev s (slotIndex da) (resetClock D) with out := .done } :=
  onDevice_some hD _

/-- UPDATE_STATE writes the state it computes to its device and to S0 (R110). -/
theorem exec_updateState (hD : devAt s (slotIndex da) = some D) :
    exec (.updateState da) s =
      .next { updateStateOf s (slotIndex da) D with out := .newState (computedState D) } :=
  onDevice_some hD _

/-- HANDLE_RECEIVE is the receive phase of its device under the S0 that is kept (R120). -/
theorem exec_handleReceive {p : Params} {s0 : DeviceState} (hD : devAt s (slotIndex da) = some D) (hp : s.params = p)
    (hs0 : s.s0 = s0) :
    exec (.handleReceive da) s =
      .next { putDev s (slotIndex da) (receiveDevice p D s0).1 with
        out := .receive (receiveDevice p D s0).2.1 (receiveDevice p D s0).2.2 } := by
  subst hp hs0
  exact onDevice_some hD _

/-- UPDATE_STATE after RESET_CLOCK leaves what a ready step starts its phases from. -/
theorem exec_updateState_resetClock (hD : devAt s (slotIndex da) = some D) :
    exec (.updateState da) { putDev s (slotIndex da) (resetClock D) with out := .done } =
      .next { updateStateOf s (slotIndex da) (resetClock D) with out := .newState (computedState D) } := by
  rw [exec_updateState (s := { putDev s (slotIndex da) (resetClock D) with out := .done })
    (devAt_putDev_same (devAt_lt hD) _)]
  simp only [updateStateOf, putDev, tablePut_put]
  rfl

/-- HANDLE_TRANSMIT does not read what the last operation returned. -/
theorem exec_handleTransmit_out (hD : devAt s (slotIndex da) = some D) (o : Output) :
    exec (.handleTransmit da) { s with out := o } = exec (.handleTransmit da) s := by
  rw [exec_handleTransmit hD, exec_handleTransmit (s := { s with out := o }) hD, handleTransmit_out]

/-- Settles O47: the phases run on the states that the ready step passes through, whose output no phase reads. -/
theorem readyStepIsItsFourPhases : Obligations.ReadyStepIsItsFourPhases := by
  intro s da D hs hD hr
  have hD1 : devAt (updateStateOf s (slotIndex da) (resetClock D)) (slotIndex da) = some (stepStarted D) :=
    devAt_updateStateOf_same (devAt_lt hD) _
  obtain ⟨q, t, -, -, hx, hsame, hts0, -, hpar, hA, -, -, hout, hfree, hdev⟩ := readyStep_spec hs hD
  obtain ⟨-, -, -, htouched, -⟩ := handleTransmit_sender (inv_updateStateOf hs hD) hD1 (computedState D)
  obtain ⟨-, htxs0, htxfree⟩ := htouched.same
  have htransmit := (exec_handleTransmit_out hD1 (.newState (computedState D))).trans (exec_handleTransmit hD1)
  rw [updateStateOf_s0, show computedState (resetClock D) = computedState D from rfl] at htransmit htxs0
  generalize handleTransmit (updateStateOf s (slotIndex da) (resetClock D)) (slotIndex da) (stepStarted D)
    (computedState D) = tx at *
  have hreceive := exec_handleReceive (s := { tx.state with out := .transmit tx.txr tx.nopeer tx.lost }) hA hpar htxs0
  have hlt : slotIndex da < tx.state.params.ndev := devAt_lt hA
  refine ⟨_, _, _, _, _, _, tx.txr, tx.nopeer, tx.lost, _, _, countWord _ tx.lost, t, exec_resetClock hD,
    exec_updateState_resetClock hD, rfl, htransmit, rfl, hreceive, rfl, devAt_putDev_same hlt _,
    (exec_step_ready hD hr).trans hx, hout, fun hlost => ⟨countWord_toNat _ _ hlost, ?_⟩, hdev, hts0.trans htxs0.symm,
    hsame⟩
  rw [hfree, useCount_of_lt _ _ hlost]
  exact htxfree

end Sys2Proof.Machine
end

section
/-! SUPPORT. Runs of issued commands whose responses record no event (`30_encoding.md` R74, `60_exceptions.md` R156). -/

namespace Sys2Proof.Machine

variable {s t u : State} {k j : Nat}

/-- What an operation returns is no STEP response, or one that signals no frame failure and records no event. -/
def Quiet (o : Output) : Prop :=
  ∀ status rsp1 rsp2, o = .response [status, rsp1, rsp2] →
    statusFrameFailure status = false ∧ stepEvents status rsp2 = []

theorem quiet_nil : Quiet (.response []) := fun _ _ _ h => by cases h

/-- A STEP response is judged by its words RSP0 and RSP2. -/
theorem quiet_step {status rsp1 rsp2 : Word} (hf : statusFrameFailure status = false)
    (he : stepEvents status rsp2 = []) : Quiet (.response [status, rsp1, rsp2]) := by
  intro status' rsp1' rsp2' h
  cases h
  exact ⟨hf, he⟩

/-- A run of `k` steps from `s` to `t`, each of which leaves a quiet output. -/
structure QuietRun (k : Nat) (s t : State) : Prop where
  run : core.run k s = .next t
  quiet : ∀ j u, 0 < j → j ≤ k → core.run j s = .next u → Quiet u.out

theorem QuietRun.refl (s : State) : QuietRun 0 s s := ⟨rfl, fun _ _ hj hk => absurd hj (not_lt.2 hk)⟩

theorem QuietRun.trans (h1 : QuietRun k s t) (h2 : QuietRun j t u) : QuietRun (k + j) s u := by
  refine ⟨(run_add h1.run).trans h2.run, fun i v hi hle hv => ?_⟩
  by_cases hik : i ≤ k
  · exact h1.quiet i v hi hik hv
  · obtain ⟨m, rfl⟩ : ∃ m, i = k + m := ⟨i - k, by omega⟩
    exact h2.quiet m v (by omega) (by omega) ((run_add h1.run).symm.trans hv)

/-- Host commands that lead from states with `P` to states with `Q`: issued through the port, with any commands behind
them, they are executed one after the other with quiet outputs. -/
def Leads (is : List Instr) (P Q : State → Prop) : Prop :=
  ∀ s rest, s.pending = is.map portIssue ++ rest → P s → ∃ t, QuietRun is.length s t ∧ t.pending = rest ∧ Q t

theorem Leads.nil (P : State → Prop) : Leads [] P P := fun s _ hp hs => ⟨s, .refl s, hp, hs⟩

theorem Leads.append {is js : List Instr} {P Q R : State → Prop} (h1 : Leads is P Q) (h2 : Leads js Q R) :
    Leads (is ++ js) P R := by
  intro s rest hp hs
  rw [List.map_append, List.append_assoc] at hp
  obtain ⟨t, ht, htp, hq⟩ := h1 s _ hp hs
  obtain ⟨u, hu, hup, hr⟩ := h2 t rest htp hq
  exact ⟨u, List.length_append ▸ ht.trans hu, hup, hr⟩

theorem Leads.cons {i : Instr} {is : List Instr} {P Q R : State → Prop} (h1 : Leads [i] P Q) (h2 : Leads is Q R) :
    Leads (i :: is) P R := h1.append h2

/-- One command that decodes, and whose operation answers a state with a quiet output. -/
theorem leads_exec {i : Instr} {P Q : State → Prop} (hd : decodeIssue (portIssue i) = .ok i)
    (hx : ∀ s rest, P s → s.refused = none ∧ ∃ t, exec i { s with pending := rest } = .next t ∧ Quiet t.out ∧ Q t) :
    Leads [i] P Q := by
  intro s rest hp hs
  obtain ⟨hr, t, ht, hquiet, hq⟩ := hx s rest hs
  have hrun : core.run 1 s = .next t := run_issue (k := 0) hp hr hd ht
  refine ⟨t, ⟨hrun, fun j u hj hle hu => ?_⟩, exec_pending ht, hq⟩
  obtain rfl : j = 1 := Nat.le_antisymm hle hj
  rw [hrun] at hu
  cases hu
  exact hquiet

end Sys2Proof.Machine
end

section
/-! SUPPORT. STEP at the two ends of a link with 8 data bits and 1 stop bit (`43_framing.md` R115, R120, R127). -/

namespace Sys2Proof.Machine

variable {s : State} {da peer : SlotIx} {T c : Rat} {tx rx : List Bit} {D P : Device}

/-- One end of a link as the round-trip law R139 takes it: its peer, 8 data bits and 1 stop bit, its period and clock,
Idle, and the bits in its two queues. -/
structure LinkEnd (p : Params) (peer : SlotIx) (T c : Rat) (tx rx : List Bit) (D : Device) : Prop where
  peer : D.peer = some (slotIndex peer)
  data : D.dataBits = 8
  stop : D.stopBits = 1
  period : D.timePerByte = T
  clock : D.clock = c
  idle : D.state = .idle
  tx : contents p.nTx D.tx = tx
  rx : contents p.nRx D.rx = rx

/-- What UPDATE_STATE computes at an end of a link (R111). -/
theorem LinkEnd.computedState {p : Params} (h : LinkEnd p peer T c tx rx D) : computedState D =
    if tx = [] then (if rx = [] then .idle else .receiving)
    else (if rx = [] then .transmitting else .transmittingAndReceiving) := by
  rw [computedState_idle h.idle]
  simp only [← contents_eq_nil (N := p.nTx) (q := D.tx), ← contents_eq_nil (N := p.nRx) (q := D.rx), h.tx, h.rx]

/-- A STEP of an end that is not ready changes nothing, and its response records nothing (R129). -/
theorem exec_step_early (hD : devAt s (slotIndex da) = some D) (h : LinkEnd s.params peer T c tx rx D) (hc : 0 < c) :
    ∃ o, exec (.step da) s = .next { s with out := o } ∧ Quiet o := by
  refine ⟨_, exec_step_not_ready hD (h.clock ▸ hc), quiet_step ?_ ?_⟩ <;> rw [h.idle] <;> decide

/-- The frame of one byte read back by the deframer (R120, R150, R151). -/
theorem readFrame_wireFrame (x : Byte) : readFrame 8 8 (wireFrame (byteBits x) 1) = (.byte, x.toNat, []) := by
  have hx : bitsValue (byteBits x) % 2 ^ 8 = x.toNat := by rw [byteBits_value]; exact Nat.mod_eq_of_lt x.isLt
  rw [← hx]
  rfl

/-- The bits of a frame on its way to an end, where there is one. -/
def flightBits (flight : Option Byte) : List Bit := flight.elim [] fun x => wireFrame (byteBits x) 1

/-- The receive phase does not run where neither S0 nor the state register lets it, whatever RX_GUARD is (R121). -/
theorem receiveDevice_not_receiving {p : Params} {s0 : DeviceState} (hs0 : receives s0 = false)
    (hst : receives D.state = false) : receiveDevice p D s0 = (D, .none, 0) := by
  have hguard : receives (receiveGuard p D s0) = false := by
    unfold receiveGuard
    split
    · exact hs0
    · exact hst
  simp only [receiveDevice, hguard, Bool.false_eq_true, if_false]

/-- The receive phase of a device in state S0 with at most one frame queued: it takes the byte, where there is one
(R120, R126). -/
theorem receiveDevice_flight {p : Params} {flight : Option Byte} (hw : queueWf p.nRx D.rx) (hacc : p.accW = 8)
    (hdata : D.dataBits = 8) (hrx : contents p.nRx D.rx = flightBits flight)
    (hst : D.state = if flightBits flight = [] then .idle else .receiving) :
    ∃ q r x, receiveDevice p D D.state =
        ({ D with rx := q, state := .idle, rxb := D.rxb ++ flight.toList.map BitVec.toNat }, r, x) ∧
      contents p.nRx q = [] ∧ ((D.state = .idle ∧ r = .none) ∨ (D.state = .receiving ∧ r = .byte)) := by
  cases flight with
  | none =>
    have hidle : D.state = .idle := hst
    have hrec : receives D.state = false := by rw [hidle]; rfl
    refine ⟨D.rx, .none, 0, ?_, hrx, .inl ⟨hidle, rfl⟩⟩
    rw [receiveDevice_not_receiving hrec hrec, ← hidle]
    simp
  | some x =>
    have hreceiving : D.state = .receiving := hst
    have hguard : receives (receiveGuard p D D.state) = true := by
      unfold receiveGuard
      split <;> (rw [hreceiving]; rfl)
    obtain ⟨q, -, hq, -, hd⟩ := deframe_spec (D := D) hw
    have hread : readFrame D.dataBits.toNat p.accW (contents p.nRx D.rx) = (.byte, x.toNat, []) := by
      rw [hdata, hacc, hrx]; exact readFrame_wireFrame x
    rw [hread] at hq hd
    refine ⟨q, .byte, x.toNat, ?_, hq, .inr ⟨hreceiving, rfl⟩⟩
    rw [receiveDevice, if_pos hguard, hd]
    rfl

/-- A ready STEP of an end that has nothing to transmit: it takes the byte on its way, where there is one, reloads its
clock, and changes no other slot (R120, R127). -/
theorem exec_step_receiver (hs : s.Inv) (hacc : s.params.accW = 8) (hD : devAt s (slotIndex da) = some D)
    {flight : Option Byte} (h : LinkEnd s.params peer T c [] (flightBits flight) D) (hc : c ≤ 0) :
    ∃ t E, exec (.step da) s = .next t ∧ t.refused = s.refused ∧ Quiet t.out ∧
      SameSlotsBut [slotIndex da] s t ∧ devAt t (slotIndex da) = some E ∧
      LinkEnd s.params peer T T [] [] E ∧ E.rxb = D.rxb ++ flight.toList.map BitVec.toNat := by
  have hs0 := h.computedState
  rw [if_pos rfl] at hs0
  have hidle : transmits (computedState D) = false := by rw [hs0]; split <;> rfl
  obtain ⟨q, t, -, hq, hx, ⟨-, href, -⟩, -, -, -, -, hE, hother, hout, -, -⟩ := readyStep_spec hs hD
  simp only [handleTransmit_idle hidle, hidle, Bool.false_eq_true, if_false] at hq hE hother hout
  obtain ⟨-, -, -, hwrx, -⟩ := inv_deviceWf hs hD
  obtain ⟨rx, r, x, hrec, hrx, hr⟩ := receiveDevice_flight
    (D := { stepStarted D with tx := q, state := computedState D }) hwrx hacc h.data h.rx hs0
  rw [hrec] at hE hout
  refine ⟨t, _, (exec_step_ready hD (h.clock ▸ hc)).trans hx, href, ?_, fun e he => ?_, hE,
    ⟨h.peer, h.data, h.stop, h.period, h.period, rfl, hq.trans h.tx, hrx⟩, rfl⟩
  · rw [hout, countWord_of_lt _ _ (by decide)]
    dsimp only at hr ⊢
    rcases hr with ⟨hst, rfl⟩ | ⟨hst, rfl⟩ <;> rw [hst] <;> exact quiet_step (by decide) (by decide)
  · have hne : e ≠ slotIndex da := by simpa using he
    rw [hother e hne, devAt_updateStateOf_ne _ hne]

/-- The bits of a byte and what follows it: not all sent while one is left. -/
theorem bytesToBits_cons_ne_nil (x : Byte) (xs : List Byte) : bytesToBits (x :: xs) ≠ [] := by
  rw [bytesToBits_cons]; exact fun h => by cases h

/-- The transmit phase of a device with a byte queued, 8 data bits and 1 stop bit, to a peer with an empty receive queue
that holds a frame: the whole frame arrives (R115, R119). -/
theorem handleTransmit_byte {d p : Nat} {s0 : DeviceState} {x : Byte} {rest : List Bit} (hs : s.Inv)
    (hnRx : 10 ≤ s.params.nRx) (hD : devAt s d = some D) (hp : D.peer = some p) (hdata : D.dataBits = 8)
    (hstop : D.stopBits = 1) (hP : devAt s p = some P) (hqueued : contents s.params.nTx D.tx = byteBits x ++ rest)
    (hempty : contents s.params.nRx P.rx = []) (hs0 : transmits s0 = true) :
    ∃ q, (handleTransmit s d D s0).txr = .sent ∧ (handleTransmit s d D s0).nopeer = false ∧
      (handleTransmit s d D s0).lost = 0 ∧ devAt (handleTransmit s d D s0).state p = some { P with rx := q } ∧
      contents s.params.nRx q = wireFrame (byteBits x) 1 := by
  obtain ⟨-, hpeer, hwtx, -⟩ := inv_deviceWf hs hD
  have hbits : phaseBits D (byteBits x ++ rest) = wireFrame (byteBits x) 1 ∧
      phaseTxr D (byteBits x ++ rest) = .sent := by
    have hlen : (8 : Word).toNat ≤ (byteBits x ++ rest).length := by simp
    rw [phaseBits, phaseTxr, hdata, hstop, if_pos hlen, if_pos hlen]
    exact ⟨rfl, rfl⟩
  have hroom : 10 ≤ room s.params.nRx P.rx := by rw [room, contents_eq_nil.1 hempty]; exact hnRx
  obtain ⟨-, hcont, hcount⟩ := qPushAll_spec (inv_rx_wf hs hP) (wireFrame (byteBits x) 1)
  obtain ⟨-, -, -, htxr, hnopeer, hlost, -, -, hrecv⟩ := handleTransmit_peer hD hp (hpeer p hp).1 hP hwtx hs0
  rw [hqueued] at htxr hlost hrecv
  rw [hbits.1] at hlost hrecv
  have hframe : (wireFrame (byteBits x) 1).length = 10 := rfl
  refine ⟨_, htxr.trans hbits.2, hnopeer, ?_, hrecv, ?_⟩
  · rw [hlost, hcount, hframe]; omega
  · rw [hcont, hempty, List.nil_append, List.take_of_length_le (hframe ▸ hroom)]

/-- A ready STEP of an end with a byte to send, to a peer whose receive queue is empty: the frame of the byte is on its
way and nothing is lost (R115, R127). -/
theorem exec_step_sender (hs : s.Inv) (hnRx : 10 ≤ s.params.nRx) (hD : devAt s (slotIndex da) = some D)
    (hP : devAt s (slotIndex peer) = some P) (hempty : contents s.params.nRx P.rx = []) {x : Byte} {xs : List Byte}
    (h : LinkEnd s.params peer T c (bytesToBits (x :: xs)) [] D) (hc : c ≤ 0) :
    ∃ t E q, exec (.step da) s = .next t ∧ t.refused = s.refused ∧ Quiet t.out ∧
      devAt t (slotIndex da) = some E ∧ LinkEnd s.params peer T T (bytesToBits xs) [] E ∧
      devAt t (slotIndex peer) = some { P with rx := q } ∧ contents s.params.nRx q = flightBits (some x) := by
  have hs0 : computedState D = .transmitting := by
    rw [h.computedState, if_neg (bytesToBits_cons_ne_nil x xs), if_pos rfl]
  obtain ⟨-, hpeer, -⟩ := inv_deviceWf hs hD
  have hne : slotIndex peer ≠ slotIndex da := (hpeer _ h.peer).1
  have hqueued : contents s.params.nTx D.tx = byteBits x ++ bytesToBits xs := h.tx.trans (bytesToBits_cons x xs)
  obtain ⟨rx, htxr, hnopeer, hlost, hrecv, hframe⟩ := handleTransmit_byte (D := stepStarted D) (s0 := .transmitting)
    (inv_updateStateOf hs hD) hnRx (devAt_updateStateOf_same (devAt_lt hD) _) h.peer h.data h.stop
    ((devAt_updateStateOf_ne s hne _).trans hP) hqueued hempty rfl
  obtain ⟨q, t, -, hq, hx, ⟨-, href, -⟩, -, -, -, -, hE, hother, hout, -, -⟩ := readyStep_spec hs hD
  rw [hs0] at hq hE hother hout
  rw [receiveDevice_not_receiving rfl rfl] at hE hout
  rw [htxr, hnopeer, hlost] at hout
  have hleft : contents s.params.nTx q = bytesToBits xs := by
    rw [hq, hqueued, h.data]; exact List.drop_left' (byteBits_length x)
  refine ⟨t, _, rx, (exec_step_ready hD (h.clock ▸ hc)).trans hx, href, ?_, hE,
    ⟨h.peer, h.data, h.stop, h.period, h.period, rfl, hleft, h.rx⟩, (hother _ hne).trans hrecv, hframe⟩
  rw [hout, countWord_of_lt _ _ (by decide)]
  dsimp only
  exact quiet_step (by decide) (by decide)

end Sys2Proof.Machine
end

section
/-! SUPPORT. Bytes on their way over a link: what the commands of a driver iteration make of it (`43_framing.md`
R139). -/

namespace Sys2Proof.Machine

variable {s t : State} {a b : SlotIx} {T ca cb : Rat} {bytes : List Byte} {flight : Option Byte} {store : List Nat}

/-- A link from `a` to `b` with period `T`: the two clocks, the bytes still to be sent, the frame on its way, and the
bytes received. -/
structure Crossing (a b : SlotIx) (T ca cb : Rat) (bytes : List Byte) (flight : Option Byte) (store : List Nat)
    (s : State) : Prop where
  inv : s.Inv
  safe : s.refused = none
  nRx : 10 ≤ s.params.nRx
  accW : s.params.accW = 8
  sender : ∃ A, devAt s (slotIndex a) = some A ∧ LinkEnd s.params b T ca (bytesToBits bytes) [] A
  receiver : ∃ B, devAt s (slotIndex b) = some B ∧ LinkEnd s.params a T cb [] (flightBits flight) B ∧ B.rxb = store

/-- The linked pair of R139, with no frame on its way. -/
theorem LinkedPair.crossing {A B : Device} (h : LinkedPair s a b A B bytes) :
    Crossing a b A.timePerByte A.clock A.clock bytes none B.rxb s where
  inv := h.inv
  safe := h.safe
  nRx := h.nRx
  accW := h.accW
  sender := ⟨A, h.devA, h.peerA, h.data.1, h.stop.1, rfl, rfl, h.idle.1, h.txA, contents_eq_nil.2 h.rxA⟩
  receiver := ⟨B, h.devB, ⟨h.peerB, h.data.2, h.stop.2, h.period, h.clock.1, h.idle.2, contents_eq_nil.2 h.txB,
    contents_eq_nil.2 h.rxB⟩, rfl⟩

/-- A link does not depend on the commands that wait. -/
theorem Crossing.pending (h : Crossing a b T ca cb bytes flight store s) (rest : List Issue) :
    Crossing a b T ca cb bytes flight store { s with pending := rest } :=
  ⟨inv_congr rfl rfl h.inv, h.safe, h.nRx, h.accW, h.sender, h.receiver⟩

/-- The two ends of a link are different slots. -/
theorem Crossing.ne (h : Crossing a b T ca cb bytes flight store s) : slotIndex b ≠ slotIndex a := by
  obtain ⟨A, hA, hend⟩ := h.sender
  obtain ⟨-, hpeer, -⟩ := inv_deviceWf h.inv hA
  exact (hpeer _ hend.peer).1

/-- An operation on a link that is not refused and leaves these two ends. -/
theorem Crossing.after_exec {i : Instr} {ca' cb' : Rat} {bytes' : List Byte} {flight' : Option Byte} {store' : List Nat}
    {A B : Device} (h : Crossing a b T ca cb bytes flight store s) (hx : exec i s = .next t)
    (hr : t.refused = s.refused) (hA : devAt t (slotIndex a) = some A)
    (hendA : LinkEnd s.params b T ca' (bytesToBits bytes') [] A) (hB : devAt t (slotIndex b) = some B)
    (hendB : LinkEnd s.params a T cb' [] (flightBits flight') B) (hstore : B.rxb = store') :
    Crossing a b T ca' cb' bytes' flight' store' t := by
  have hp := exec_params hx
  exact ⟨exec_inv h.inv hx, hr.trans h.safe, hp ▸ h.nRx, hp ▸ h.accW, ⟨A, hA, hp ▸ hendA⟩, ⟨B, hB, hp ▸ hendB, hstore⟩⟩

/-- One command on a link, by what its operation does on every such state. -/
theorem leads_crossing {i : Instr} {Q : State → Prop} (hd : decodeIssue (portIssue i) = .ok i)
    (hx : ∀ s, Crossing a b T ca cb bytes flight store s → ∃ t, exec i s = .next t ∧ Quiet t.out ∧ Q t) :
    Leads [i] (Crossing a b T ca cb bytes flight store) Q :=
  leads_exec hd fun _ rest hs => ⟨hs.safe, hx _ (hs.pending rest)⟩

section ticks
variable (num : Word) {den : Word}

theorem leads_tick_sender (hden : den ≠ 0) : Leads [.tick a num den] (Crossing a b T ca cb bytes flight store)
    (Crossing a b T (ca - timeAmount num den) cb bytes flight store) := by
  refine leads_crossing (decodeIssue_tick a num den) fun s h => ?_
  obtain ⟨A, hA, hendA⟩ := h.sender
  obtain ⟨B, hB, hendB, hstore⟩ := h.receiver
  have hx := exec_tick hA num hden
  exact ⟨_, hx, quiet_nil, h.after_exec hx rfl (devAt_putDev_same (devAt_lt hA) _)
    { hendA with clock := by rw [← hendA.clock] } ((devAt_putDev_ne s h.ne _).trans hB) hendB hstore⟩

theorem leads_tick_receiver (hden : den ≠ 0) : Leads [.tick b num den] (Crossing a b T ca cb bytes flight store)
    (Crossing a b T ca (cb - timeAmount num den) bytes flight store) := by
  refine leads_crossing (decodeIssue_tick b num den) fun s h => ?_
  obtain ⟨A, hA, hendA⟩ := h.sender
  obtain ⟨B, hB, hendB, hstore⟩ := h.receiver
  have hx := exec_tick hB num hden
  exact ⟨_, hx, quiet_nil, h.after_exec hx rfl ((devAt_putDev_ne s h.ne.symm _).trans hA) hendA
    (devAt_putDev_same (devAt_lt hB) _) { hendB with clock := by rw [← hendB.clock] } hstore⟩

end ticks

theorem leads_step_sender_early (hc : 0 < ca) : Leads [.step a] (Crossing a b T ca cb bytes flight store)
    (Crossing a b T ca cb bytes flight store) := by
  refine leads_crossing (decodeIssue_step a) fun s h => ?_
  obtain ⟨A, hA, hendA⟩ := h.sender
  obtain ⟨B, hB, hendB, hstore⟩ := h.receiver
  obtain ⟨o, hx, hquiet⟩ := exec_step_early hA hendA hc
  exact ⟨_, hx, hquiet, h.after_exec hx rfl hA hendA hB hendB hstore⟩

theorem leads_step_receiver_early (hc : 0 < cb) : Leads [.step b] (Crossing a b T ca cb bytes flight store)
    (Crossing a b T ca cb bytes flight store) := by
  refine leads_crossing (decodeIssue_step b) fun s h => ?_
  obtain ⟨A, hA, hendA⟩ := h.sender
  obtain ⟨B, hB, hendB, hstore⟩ := h.receiver
  obtain ⟨o, hx, hquiet⟩ := exec_step_early hB hendB hc
  exact ⟨_, hx, hquiet, h.after_exec hx rfl hA hendA hB hendB hstore⟩

/-- A ready STEP of the sender, with no frame on its way, sends its next byte, where there is one. -/
theorem leads_step_sender_ready (hc : ca ≤ 0) : Leads [.step a] (Crossing a b T ca cb bytes none store)
    (Crossing a b T T cb bytes.tail bytes.head? store) := by
  refine leads_crossing (decodeIssue_step a) fun s h => ?_
  obtain ⟨A, hA, hendA⟩ := h.sender
  obtain ⟨B, hB, hendB, hstore⟩ := h.receiver
  cases bytes with
  | nil =>
    obtain ⟨t, E, hx, hr, hquiet, hother, hE, hend, -⟩ := exec_step_receiver (flight := none) h.inv h.accW hA hendA hc
    exact ⟨t, hx, hquiet, h.after_exec hx hr hE hend ((hother _ (by simpa using h.ne)).trans hB) hendB hstore⟩
  | cons x xs =>
    obtain ⟨t, E, q, hx, hr, hquiet, hE, hend, hP, hq⟩ := exec_step_sender h.inv h.nRx hA hB hendB.rx hendA hc
    exact ⟨t, hx, hquiet, h.after_exec hx hr hE hend hP { hendB with rx := hq } hstore⟩

/-- A ready STEP of the receiver takes the frame on its way, where there is one. -/
theorem leads_step_receiver_ready (hc : cb ≤ 0) : Leads [.step b] (Crossing a b T ca cb bytes flight store)
    (Crossing a b T ca T bytes none (store ++ flight.toList.map BitVec.toNat)) := by
  refine leads_crossing (decodeIssue_step b) fun s h => ?_
  obtain ⟨A, hA, hendA⟩ := h.sender
  obtain ⟨B, hB, hendB, rfl⟩ := h.receiver
  obtain ⟨t, E, hx, hr, hquiet, hother, hE, hend, hstore⟩ := exec_step_receiver h.inv h.accW hB hendB hc
  exact ⟨t, hx, hquiet, h.after_exec hx hr ((hother _ (by simpa using h.ne.symm)).trans hA) hendA hE hend hstore⟩

end Sys2Proof.Machine
end

section
/-! SUPPORT. The frame round trip (`43_framing.md` R109, R137, R139, R172). -/

namespace Sys2Proof.Machine

variable {s : State} {a b : SlotIx} {T c : Rat} {bytes : List Byte} {flight : Option Byte} {store : List Nat}
  {num den : Word}

/-! ### One driver iteration -/

/-- Four commands, one after the other. -/
theorem Leads.four {i1 i2 i3 i4 : Instr} {P0 P1 P2 P3 P4 : State → Prop} (h1 : Leads [i1] P0 P1) (h2 : Leads [i2] P1 P2)
    (h3 : Leads [i3] P2 P3) (h4 : Leads [i4] P3 P4) : Leads [i1, i2, i3, i4] P0 P4 :=
  h1.cons (h2.cons (h3.cons h4))

section iteration
variable (hden : den ≠ 0)
include hden

theorem leads_iteration_sender_first_early (hc : 0 < c - timeAmount num den) :
    Leads (asmIter a b num den) (Crossing a b T c c bytes none store)
      (Crossing a b T (c - timeAmount num den) (c - timeAmount num den) bytes none store) :=
  Leads.four (leads_tick_sender num hden) (leads_tick_receiver num hden) (leads_step_sender_early hc)
    (leads_step_receiver_early hc)

/-- Stepped first, the sender hands its next byte to the receiver in the same iteration. -/
theorem leads_iteration_sender_first_ready (hc : c - timeAmount num den ≤ 0) :
    Leads (asmIter a b num den) (Crossing a b T c c bytes none store)
      (Crossing a b T T T bytes.tail none (store ++ bytes.head?.toList.map BitVec.toNat)) :=
  Leads.four (leads_tick_sender num hden) (leads_tick_receiver num hden) (leads_step_sender_ready hc)
    (leads_step_receiver_ready hc)

theorem leads_iteration_receiver_first_early (hc : 0 < c - timeAmount num den) :
    Leads (asmIter b a num den) (Crossing a b T c c bytes flight store)
      (Crossing a b T (c - timeAmount num den) (c - timeAmount num den) bytes flight store) :=
  Leads.four (leads_tick_receiver num hden) (leads_tick_sender num hden) (leads_step_receiver_early hc)
    (leads_step_sender_early hc)

/-- Stepped first, the receiver takes the frame of the iteration before, and the sender's next byte is on its way. -/
theorem leads_iteration_receiver_first_ready (hc : c - timeAmount num den ≤ 0) :
    Leads (asmIter b a num den) (Crossing a b T c c bytes flight store)
      (Crossing a b T T T bytes.tail bytes.head? (store ++ flight.toList.map BitVec.toNat)) :=
  Leads.four (leads_tick_receiver num hden) (leads_tick_sender num hden) (leads_step_receiver_ready hc)
    (leads_step_sender_ready hc)

end iteration

/-! ### Counting the iterations -/

/-- Iterations that each take `amount` off a clock, and reload it with `T` where that makes it ready, with one fewer to
go: `m` of them make a period, so `k` periods are through after `k * m` of them, less what the clock has already run. -/
theorem leads_iterations {it : List Instr} {R : Nat → Rat → State → Prop} {amount : Rat} {m : Nat}
    (early : ∀ k c, 0 < c - amount → Leads it (R k c) (R k (c - amount)))
    (ready : ∀ k c, c - amount ≤ 0 → Leads it (R k c) (R (k - 1) T)) (hm : 1 ≤ m) (hT : T ≤ m * amount)
    (n : Nat) {k j : Nat} (hj : 1 ≤ j) (hjm : j ≤ m) (hc : c ≤ j * amount) (hn : k * m + j ≤ n + m) :
    Leads (List.replicate n it).flatten (R k c) fun s => ∃ c', R 0 c' s := by
  induction n generalizing k j c with
  | zero =>
    have hk : k = 0 := by
      by_contra hk
      have : 1 * m ≤ k * m := Nat.mul_le_mul_right m (Nat.one_le_iff_ne_zero.2 hk)
      omega
    subst hk
    exact fun s rest hp hs => ⟨s, .refl s, hp, c, hs⟩
  | succ n ih =>
    rw [List.replicate_succ, List.flatten_cons]
    by_cases hr : c - amount ≤ 0
    · refine (ready k c hr).append (ih hm le_rfl hT ?_)
      cases k with
      | zero => omega
      | succ k => rw [Nat.succ_mul] at hn; rw [Nat.add_sub_cancel]; omega
    · have hlt : amount < j * amount := lt_of_lt_of_le (sub_pos.1 (not_le.1 hr)) hc
      have hj1 : j ≠ 1 := by rintro rfl; simp at hlt
      refine (early k c (not_le.1 hr)).append (ih (j := j - 1) (by omega) (by omega) ?_ (by omega))
      rw [Nat.cast_sub hj]
      push_cast
      linarith

/-! ### The round trip -/

/-- The sender stepped first: at most `k` ready iterations to go, of a run that delivers `all`. -/
def SenderFirst (a b : SlotIx) (T : Rat) (all : List Nat) (k : Nat) (c : Rat) (s : State) : Prop :=
  ∃ bytes store, bytes.length ≤ k ∧ store ++ bytes.map BitVec.toNat = all ∧ Crossing a b T c c bytes none store s

/-- The receiver stepped first: at most `k` ready iterations to go, the last one for the frame on its way. -/
def ReceiverFirst (a b : SlotIx) (T : Rat) (all : List Nat) (k : Nat) (c : Rat) (s : State) : Prop :=
  ∃ bytes flight store, ((bytes = [] ∧ flight = none) ∨ bytes.length + 1 ≤ k) ∧
    store ++ (flight.toList ++ bytes).map BitVec.toNat = all ∧ Crossing a b T c c bytes flight store s

/-- A command sequence leads on from any state of a kind where it does from each. -/
theorem Leads.of_forall {is : List Instr} {P Q : State → Prop}
    (h : ∀ s, P s → ∃ P', P' s ∧ Leads is P' Q) : Leads is P Q := fun s rest hp hs => by
  obtain ⟨P', hs', hl⟩ := h s hs
  exact hl s rest hp hs'

theorem Leads.mono {is : List Instr} {P Q R : State → Prop} (h : Leads is P Q) (hQ : ∀ s, Q s → R s) : Leads is P R :=
  fun s rest hp hs => by
    obtain ⟨t, hrun, hrest, hq⟩ := h s rest hp hs
    exact ⟨t, hrun, hrest, hQ t hq⟩

theorem head?_append_tail_map {α β : Type} (f : α → β) (xs : List α) :
    xs.head?.toList.map f ++ xs.tail.map f = xs.map f := by cases xs <;> rfl

section roundTrip
variable {all : List Nat} {k m n : Nat} (hden : den ≠ 0) (hm : 1 ≤ m) (hT : T ≤ m * timeAmount num den)
include hden hm hT

theorem leads_sender_first (hc : c ≤ T) (hn : k * m ≤ n) :
    Leads (List.replicate n (asmIter a b num den)).flatten (SenderFirst a b T all k c)
      fun s => ∃ c', SenderFirst a b T all 0 c' s := by
  refine leads_iterations (fun k c hc => .of_forall ?_) (fun k c hc => .of_forall ?_) hm hT n hm le_rfl (hc.trans hT)
    (by omega)
  · rintro s ⟨bytes, store, hk, hall, hs⟩
    exact ⟨_, hs, (leads_iteration_sender_first_early hden hc).mono fun t ht => ⟨bytes, store, hk, hall, ht⟩⟩
  · rintro s ⟨bytes, store, hk, hall, hs⟩
    refine ⟨_, hs, (leads_iteration_sender_first_ready hden hc).mono fun t ht => ⟨_, _, ?_, ?_, ht⟩⟩
    · rw [List.length_tail]; omega
    · rw [List.append_assoc, head?_append_tail_map, hall]

theorem leads_receiver_first (hc : c ≤ T) (hn : k * m ≤ n) :
    Leads (List.replicate n (asmIter b a num den)).flatten (ReceiverFirst a b T all k c)
      fun s => ∃ c', ReceiverFirst a b T all 0 c' s := by
  refine leads_iterations (fun k c hc => .of_forall ?_) (fun k c hc => .of_forall ?_) hm hT n hm le_rfl (hc.trans hT)
    (by omega)
  · rintro s ⟨bytes, flight, store, hk, hall, hs⟩
    exact ⟨_, hs, (leads_iteration_receiver_first_early hden hc).mono fun t ht =>
      ⟨bytes, flight, store, hk, hall, ht⟩⟩
  · rintro s ⟨bytes, flight, store, hk, hall, hs⟩
    refine ⟨_, hs, (leads_iteration_receiver_first_ready hden hc).mono fun t ht => ⟨_, _, _, ?_, ?_, ht⟩⟩
    · cases bytes with
      | nil => exact .inl ⟨rfl, rfl⟩
      | cons x xs =>
        obtain ⟨hnil, -⟩ | hk := hk
        · cases hnil
        · exact .inr (by simp only [List.length_cons, List.tail_cons] at hk ⊢; omega)
    · rw [List.map_append, List.append_assoc, head?_append_tail_map, ← List.map_append, hall]

end roundTrip

/-- With no iteration to go, all bytes are received. -/
theorem SenderFirst.done {all : List Nat} (h : SenderFirst a b T all 0 c s) : Crossing a b T c c [] none all s := by
  obtain ⟨bytes, store, hk, hall, hs⟩ := h
  obtain rfl : bytes = [] := List.length_eq_zero_iff.1 (Nat.le_zero.1 hk)
  obtain rfl : store = all := by simpa using hall
  exact hs

theorem ReceiverFirst.done {all : List Nat} (h : ReceiverFirst a b T all 0 c s) : Crossing a b T c c [] none all s := by
  obtain ⟨bytes, flight, store, ⟨rfl, rfl⟩ | hk, hall, hs⟩ := h
  · obtain rfl : store = all := by simpa using hall
    exact hs
  · omega

/-! ### Periods, amounts and lengths -/

theorem toNat_pos_of_ne_zero {w : Word} (h : w ≠ 0) : 0 < w.toNat :=
  Nat.pos_of_ne_zero fun h0 => h (BitVec.eq_of_toNat_eq h0)

/-- The amount of a TICK with two nonzero words (R69). -/
theorem timeAmount_pos (hnum : num ≠ 0) (hden : den ≠ 0) : 0 < timeAmount num den :=
  div_pos (Nat.cast_pos.2 (toNat_pos_of_ne_zero hnum)) (Nat.cast_pos.2 (toNat_pos_of_ne_zero hden))

/-- The period of a configured device (R26). -/
theorem timePerByte_pos {D : Device} (h : configWf D) : 0 < D.timePerByte := by
  obtain ⟨hbaud, hdata, -, -, hbpf, hperiod⟩ := h
  have hbits : 0 < D.bitsPerFrame := by
    have := toNat_pos_of_ne_zero hdata
    rw [hbpf, bitsPerFrameOf]; omega
  rw [hperiod]
  exact div_pos (Nat.cast_pos.2 hbits) (Nat.cast_pos.2 (toNat_pos_of_ne_zero hbaud))

/-- A transmit queue holds fewer bytes than a word counts (R8). -/
theorem queued_bytes_lt {D : Device} {d : Nat} (hs : s.Inv) (hD : devAt s d = some D)
    (hq : contents s.params.nTx D.tx = bytesToBits bytes) : bytes.length < 2 ^ 32 := by
  obtain ⟨-, -, ⟨-, -, hcount, -⟩, -⟩ := inv_deviceWf hs hD
  have hcap : s.params.nTx ≤ 2 ^ 16 := by
    have hp := hs.1
    simp only [paramsOk, capacitiesOk, capacityOk, Bool.and_eq_true, decide_eq_true_eq] at hp
    obtain ⟨⟨⟨-, hcap, -⟩, -⟩, -⟩ := hp
    exact hcap
  have hlen := congrArg List.length hq
  rw [contents_length, bytesToBits_length] at hlen
  omega

/-- DRAIN_RECEIVED returns the store and empties it (R137). -/
theorem exec_drainReceived {da : SlotIx} {D : Device} (hD : devAt s (slotIndex da) = some D) :
    exec (.drainReceived da) s =
      .next { useCount (putDev s (slotIndex da) { D with rxb := [] }) D.rxb.length with
        out := .response (countWord s D.rxb.length :: D.rxb.map (BitVec.ofNat 32)) } :=
  onDevice_some hD _

/-- The words of a drained store of bytes. -/
theorem map_ofNat_toNat (xs : List Byte) :
    (xs.map BitVec.toNat).map (BitVec.ofNat 32) = xs.map fun x => x.zeroExtend 32 := by
  rw [List.map_map]
  exact List.map_congr_left fun x _ => BitVec.ofNat_toNat 32 x

theorem iterations_eq (n : Nat) :
    iterations a b num den n = ((List.replicate n (asmIter a b num den)).flatten).map portIssue := by
  rw [List.map_flatten, List.map_replicate]; rfl

theorem iterations_length (n : Nat) : ((List.replicate n (asmIter a b num den)).flatten).length = 4 * n := by
  rw [List.length_flatten, List.map_replicate, List.sum_replicate, smul_eq_mul, Nat.mul_comm]; rfl

/-- The run of R139, in either order: all bytes are received, and no step of it records an event. -/
theorem roundTrip_run {A B : Device} {n : Nat} (h : LinkedPair s a b A B bytes) (hnum : num ≠ 0) (hden : den ≠ 0)
    (hn : (s.pending = iterations a b num den n ∧
        (bytes.length : Int) * ⌈A.timePerByte / timeAmount num den⌉ ≤ n) ∨
      (s.pending = iterations b a num den n ∧
        ((bytes.length : Int) + 1) * ⌈A.timePerByte / timeAmount num den⌉ ≤ n)) :
    ∃ t c, QuietRun (4 * n) s t ∧
      Crossing a b A.timePerByte c c [] none (B.rxb ++ bytes.map BitVec.toNat) t := by
  have hamount := timeAmount_pos hnum hden
  obtain ⟨hcfg, -⟩ := inv_deviceWf h.inv h.devA
  have hratio := div_pos (timePerByte_pos hcfg) hamount
  have hm : 1 ≤ ⌈A.timePerByte / timeAmount num den⌉₊ := Nat.ceil_pos.2 hratio
  have hT : A.timePerByte ≤ ⌈A.timePerByte / timeAmount num den⌉₊ * timeAmount num den :=
    (div_le_iff₀ hamount).1 (Nat.le_ceil _)
  rw [← Int.natCast_ceil_eq_ceil hratio.le] at hn
  generalize ⌈A.timePerByte / timeAmount num den⌉₊ = m at hn hm hT
  have hstart := h.crossing
  obtain ⟨hp, hn⟩ | ⟨hp, hn⟩ := hn
  · obtain ⟨t, hrun, -, c, hdone⟩ := leads_sender_first (k := bytes.length) (n := n) hden hm hT h.clock.2
      (by exact_mod_cast hn) s [] (by rw [hp, iterations_eq, List.append_nil]) ⟨bytes, B.rxb, le_rfl, rfl, hstart⟩
    exact ⟨t, c, iterations_length n ▸ hrun, hdone.done⟩
  · obtain ⟨t, hrun, -, c, hdone⟩ := leads_receiver_first (k := bytes.length + 1) (n := n) hden hm hT h.clock.2
      (by exact_mod_cast hn) s [] (by rw [hp, iterations_eq, List.append_nil])
      ⟨bytes, none, B.rxb, .inr le_rfl, rfl, hstart⟩
    exact ⟨t, c, iterations_length n ▸ hrun, hdone.done⟩

/-- Settles O60: at the end of the run the link has nothing left to send and nothing on its way. -/
theorem frameRoundTripDeliversEveryByte : Obligations.FrameRoundTripDeliversEveryByte := by
  intro s a b A B bytes num den n h hnum hden hn
  obtain ⟨t, c, hrun, hend⟩ := roundTrip_run h hnum hden hn
  obtain ⟨A', hA', hendA⟩ := hend.sender
  obtain ⟨B', hB', hendB, hstore⟩ := hend.receiver
  refine ⟨t, A', B', hrun.run, hend.safe, hA', contents_eq_nil.1 hendA.tx, hB', contents_eq_nil.1 hendB.rx, hstore,
    fun k u status rsp1 rsp2 hk hle hu hout => hrun.quiet k u hk hle hu status rsp1 rsp2 hout, fun hempty => ?_⟩
  rw [hempty, List.nil_append] at hstore
  have hlen : B'.rxb.length = bytes.length := by rw [hstore, List.length_map]
  refine ⟨_, countWord t B'.rxb.length, exec_drainReceived hB', ?_, ?_⟩
  · rw [hlen]; exact countWord_toNat _ _ (queued_bytes_lt h.inv h.devA h.txA)
  · rw [← map_ofNat_toNat, ← hstore]

end Sys2Proof.Machine
end

section
/-! SUPPORT. Runs of pushes and pops of a bounded queue, and the settled laws of the circular buffer (`41_queue.md` R85,
R98, R99). -/

namespace Sys2Proof.Machine

variable {N : Nat} {q q' : Queue} {v b : Bit} {ops : List (Option Bit)}

/-! ### One operation of a run -/

theorem queueRun_nil (N : Nat) (q : Queue) : queueRun N [] q = ([], [], q) := rfl

theorem queueRun_push_some (h : qPush N q v = some q') :
    queueRun N (some v :: ops) q = (v :: (queueRun N ops q').1, (queueRun N ops q').2) := by
  simp only [queueRun, h]

theorem queueRun_push_none (h : qPush N q v = none) : queueRun N (some v :: ops) q = queueRun N ops q := by
  simp only [queueRun, h]

theorem queueRun_pop_some (h : qPop N q = some (b, q')) :
    queueRun N (none :: ops) q =
      ((queueRun N ops q').1, b :: (queueRun N ops q').2.1, (queueRun N ops q').2.2) := by
  simp only [queueRun, h]

theorem queueRun_pop_none (h : qPop N q = none) : queueRun N (none :: ops) q = queueRun N ops q := by
  simp only [queueRun, h]

/-! ### The FIFO law -/

/-- Settles O34, by induction on the run, for every queue it starts from: a push appends to what is held, and a pop
takes its head. -/
theorem circularBufferIsFifo : Obligations.CircularBufferIsFifo := by
  intro N ops
  induction ops with
  | nil => exact fun q hw => ⟨List.append_nil _, hw⟩
  | cons op ops ih =>
    intro q hw
    cases op with
    | some v =>
      cases hpush : qPush N q v with
      | none => rw [queueRun_push_none hpush]; exact ih q hw
      | some q' =>
        obtain ⟨hw', hcont⟩ := qPush_spec hw hpush
        obtain ⟨hfifo, hwf⟩ := ih q' hw'
        rw [queueRun_push_some hpush]
        exact ⟨by rw [← hfifo, hcont, List.append_assoc]; rfl, hwf⟩
    | none =>
      cases hcont : contents N q with
      | nil => rw [queueRun_pop_none (qPop_of_nil hcont), ← hcont]; exact ih q hw
      | cons b rest =>
        obtain ⟨q', hpop, hw', hrest⟩ := qPop_cons hw hcont
        obtain ⟨hfifo, hwf⟩ := ih q' hw'
        rw [queueRun_pop_some hpop, ← hrest]
        exact ⟨congrArg (b :: ·) hfifo, hwf⟩

/-! ### The capacity law -/

/-- A run in two parts: the second starts from the queue that the first leaves. -/
theorem queueRun_append (N : Nat) (xs ys : List (Option Bit)) (q : Queue) :
    queueRun N (xs ++ ys) q =
      ((queueRun N xs q).1 ++ (queueRun N ys (queueRun N xs q).2.2).1,
        (queueRun N xs q).2.1 ++ (queueRun N ys (queueRun N xs q).2.2).2.1,
        (queueRun N ys (queueRun N xs q).2.2).2.2) := by
  induction xs generalizing q with
  | nil => rfl
  | cons op xs ih =>
    rw [List.cons_append]
    cases op with
    | some v =>
      cases hpush : qPush N q v with
      | none => simp only [queueRun_push_none hpush, ih]
      | some q' => simp only [queueRun_push_some hpush, ih, List.cons_append]
    | none =>
      cases hpop : qPop N q with
      | none => simp only [queueRun_pop_none hpop, ih]
      | some r => simp only [queueRun_pop_some hpop, ih, List.cons_append]

/-- A run of pushes that the queue has room for: all succeed and join the end, in order. -/
theorem queueRun_pushes (hw : queueWf N q) {bits : List Bit} (h : (contents N q).length + bits.length ≤ N) :
    ∃ q', queueRun N (bits.map some) q = (bits, [], q') ∧ queueWf N q' ∧ contents N q' = contents N q ++ bits := by
  induction bits generalizing q with
  | nil => exact ⟨q, rfl, hw, (List.append_nil _).symm⟩
  | cons v bits ih =>
    rw [List.length_cons] at h
    obtain ⟨q1, hpush⟩ := qPush_isSome (N := N) (q := q) (v := v) (by omega)
    obtain ⟨hw1, hcont⟩ := qPush_spec hw hpush
    obtain ⟨q', hrun, hw', hcont'⟩ := ih hw1 (by rw [hcont, List.length_append, List.length_singleton]; omega)
    exact ⟨q', by rw [List.map_cons, queueRun_push_some hpush, hrun], hw',
      by rw [hcont', hcont, List.append_assoc]; rfl⟩

/-- As many pops as the queue holds bits: they give all of them, in order, and leave it empty. -/
theorem queueRun_pops (hw : queueWf N q) {bits : List Bit} (h : contents N q = bits) :
    ∃ q', queueRun N (List.replicate bits.length none) q = ([], bits, q') ∧ contents N q' = [] := by
  induction bits generalizing q with
  | nil => exact ⟨q, rfl, h⟩
  | cons b rest ih =>
    obtain ⟨q1, hpop, hw1, hrest⟩ := qPop_cons hw h
    obtain ⟨q', hrun, hempty⟩ := ih hw1 hrest
    exact ⟨q', by rw [List.length_cons, List.replicate_succ, queueRun_pop_some hpop, hrun], hempty⟩

/-- Settles O35: the pushes leave a queue that holds N bits, which is full, and the pops take all of them. -/
theorem capacityLaw : Obligations.CapacityLaw := by
  rintro N q bits hw hcount rfl
  have hempty : contents bits.length q = [] := contents_eq_nil.2 hcount
  obtain ⟨full, hpushes, hwf, hheld⟩ := queueRun_pushes (bits := bits) hw (by simp [hempty])
  rw [hempty, List.nil_append] at hheld
  obtain ⟨left, hpops, hleft⟩ := queueRun_pops hwf hheld
  have hfull : full.count = bits.length := by rw [← contents_length bits.length, hheld]
  have hfails : ∀ v, qPush bits.length full v = none := fun v => qPush_eq_none.2 hfull
  simp only [queueRun_append, hpushes, hpops]
  refine ⟨trivial, decide_eq_true hfull, fun v => ⟨hfails v, ?_⟩, List.nil_append _, ?_, qPop_of_nil hleft⟩
  · rw [queueRun_push_none (hfails v), queueRun_nil, List.append_nil, List.append_nil]
  · rw [qIsEmpty_eq bits.length, hleft]; rfl

end Sys2Proof.Machine
end

section
/-! SUPPORT. What each queue micro-operation does to the block, and the settled statements about them (`41_queue.md`
R86 to R97). -/

namespace Sys2Proof.Machine

variable {s : State} {da : SlotIx} {qs : QSel} {D : Device} {q : Queue} {v b : Bit}

/-! ### The queue that QS selects -/

@[simp] theorem queueOf_withQueue (D : Device) (q : Queue) (qs : QSel) : queueOf (withQueue D q qs) qs = q := by
  cases qs <;> rfl

@[simp] theorem withQueue_withQueue (D : Device) (q q' : Queue) (qs : QSel) :
    withQueue (withQueue D q qs) q' qs = withQueue D q' qs := by
  cases qs <;> rfl

/-- An operation that writes one device and answers: nothing but that slot and the output has changed. -/
theorem onlySlots_putDev_out {d : Nat} {E : Device} (hD : devAt s d = some D) (o : Output) :
    OnlySlots [d] s { putDev s d E with out := o } := by
  have htouched := touched_putDev (devAt_lt hD) E
  exact ⟨htouched.same, htouched.slots⟩

/-! ### What each operation answers -/

/-- Q_PUSH whose push succeeds writes the queue after it and answers true (R88). -/
theorem exec_qPush_some (hD : devAt s (slotIndex da) = some D)
    (h : qPush (capacityOf s.params qs) (queueOf D qs) v = some q) :
    exec (.qPush da qs v) s =
      .next { putDev s (slotIndex da) (withQueue D q qs) with out := .flag true } := by
  simp only [exec, execQPush, onDevice_some hD, h, returns]

/-- Q_PUSH whose push fails answers false and writes nothing (R89). -/
theorem exec_qPush_none (hD : devAt s (slotIndex da) = some D)
    (h : qPush (capacityOf s.params qs) (queueOf D qs) v = none) :
    exec (.qPush da qs v) s = .next { s with out := .flag false } := by
  simp only [exec, execQPush, onDevice_some hD, h, returns]

/-- Q_POP whose pop gives a bit writes the queue after it and answers the bit (R90). -/
theorem exec_qPop_some (hD : devAt s (slotIndex da) = some D)
    (h : qPop (capacityOf s.params qs) (queueOf D qs) = some (b, q)) :
    exec (.qPop da qs) s =
      .next { putDev s (slotIndex da) (withQueue D q qs) with out := .bit (some b) } := by
  simp only [exec, execQPop, onDevice_some hD, h, returns]

/-- Q_POP whose pop gives none writes nothing (R90). -/
theorem exec_qPop_none (hD : devAt s (slotIndex da) = some D)
    (h : qPop (capacityOf s.params qs) (queueOf D qs) = none) :
    exec (.qPop da qs) s = .next { s with out := .bit none } := by
  simp only [exec, execQPop, onDevice_some hD, h, returns]

/-- Q_PEEK answers the head of the queue and writes nothing (R92). -/
theorem exec_qPeek (hD : devAt s (slotIndex da) = some D) :
    exec (.qPeek da qs) s = .next { s with out := .bit (qPeek (queueOf D qs)) } :=
  onDevice_some hD _

/-- Q_INIT writes a constructed queue (R86). -/
theorem exec_qInit (hD : devAt s (slotIndex da) = some D) :
    exec (.qInit da qs) s = .next { putDev s (slotIndex da) (withQueue D qInit qs) with out := .done } :=
  onDevice_some hD _

/-- Q_RESET writes the queue with its slots as they were (R94). -/
theorem exec_qReset (hD : devAt s (slotIndex da) = some D) :
    exec (.qReset da qs) s =
      .next { putDev s (slotIndex da) (withQueue D (qReset (queueOf D qs)) qs) with out := .done } :=
  onDevice_some hD _

/-! ### The settled statements -/

/-- Settles O29: below the capacity the push succeeds and is `qPush`'s write; at it, it fails. -/
theorem qPushAppendsTheBitOrFails : Obligations.QPushAppendsTheBitOrFails := by
  intro s da qs v D hD hw
  refine ⟨fun hroom => ?_, fun hfull => exec_qPush_none hD (qPush_eq_none.2 hfull)⟩
  obtain ⟨q, hpush⟩ := qPush_isSome (v := v) (by rwa [contents_length])
  obtain ⟨-, hcont⟩ := qPush_spec hw hpush
  refine ⟨_, q, exec_qPush_some hD hpush, rfl, onlySlots_putDev_out hD _, devAt_putDev_same (devAt_lt hD) _, ?_⟩
  obtain ⟨-, rfl⟩ := qPush_eq_some hpush
  exact ⟨slotRead_put_same _ _ _ _ _ _, fun i hi => tableGet_put_ne _ _ _ _ hi, rfl, rfl, rfl, hcont⟩

/-- Settles O30: a queue that holds a sequence with a head has bits in it, and the pop takes that head. -/
theorem qPopTakesTheHead : Obligations.QPopTakesTheHead := by
  intro s da qs D b rest hD hw hcont
  obtain ⟨hpop, -, hrest⟩ := qPop_spec hw hcont
  have hcount : (queueOf D qs).count = rest.length + 1 := by
    rw [← contents_length (capacityOf s.params qs), hcont, List.length_cons]
  exact ⟨_, _, exec_qPop_some hD hpop, rfl, onlySlots_putDev_out hD _, devAt_putDev_same (devAt_lt hD) _, rfl,
    Nat.sub_add_cancel (by omega), rfl, rfl, hrest⟩

/-- Settles O31: a peek reads the head of the sequence, and a pop fails on an empty queue. -/
theorem qPeekAndEmptyPopChangeNothing : Obligations.QPeekAndEmptyPopChangeNothing := by
  intro s da qs D hD hw
  exact ⟨by rw [exec_qPeek hD, qPeek_eq_head hw], fun hempty => exec_qPop_none hD (qPop_eq_none.2 hempty)⟩

/-- A second Q_RESET of a queue writes the device that the first one left (R95). -/
theorem exec_qReset_again (hD : devAt s (slotIndex da) = some (withQueue D (qReset q) qs)) :
    ∃ u, exec (.qReset da qs) s = .next u ∧ ∀ e, devAt u e = devAt s e := by
  refine ⟨_, exec_qReset hD, fun e => ?_⟩
  rw [queueOf_withQueue, withQueue_withQueue, devAt_out]
  by_cases he : e = slotIndex da
  · rw [he, devAt_putDev_same (devAt_lt hD), hD]; rfl
  · exact devAt_putDev_ne s he _

/-- Settles O32: both operations write the selected queue alone, and a reset queue is its own reset. -/
theorem qInitAndQResetEmptyTheQueue : Obligations.QInitAndQResetEmptyTheQueue := by
  intro s da qs D hD
  refine ⟨⟨_, qInit, exec_qInit hD, rfl, onlySlots_putDev_out hD _, devAt_putDev_same (devAt_lt hD) _, rfl, rfl, rfl⟩,
    _, exec_qReset hD, rfl, onlySlots_putDev_out hD _, devAt_putDev_same (devAt_lt hD) _, ?_⟩
  exact exec_qReset_again (devAt_putDev_same (devAt_lt hD) _)

/-- Settles O33: neither test writes the device whose queue it reads. -/
theorem queueTestsReadTheCount : Obligations.QueueTestsReadTheCount :=
  fun _ _ _ _ hD => ⟨onDevice_some hD _, onDevice_some hD _⟩

end Sys2Proof.Machine
end

section
/-! SUPPORT. The clock and the state register: IS_READY, RESET_CLOCK, UPDATE_STATE, a run of TICKs, and how a ready STEP
leaves them (`42_clock_state.md` R104 to R113, `43_framing.md` R128). -/

namespace Sys2Proof.Machine

variable {s : State} {da : SlotIx} {D A : Device}

/-! ### The clock -/

/-- Settles O26: `isReady` is the test of the clock, and only its answer is written. -/
theorem isReadyTestsTheClock : Obligations.IsReadyTestsTheClock := fun _ _ _ hD => onDevice_some hD _

/-- Settles O27: the clock is the one field `resetClock` writes. -/
theorem resetClockLoadsTimePerByte : Obligations.ResetClockLoadsTimePerByte := fun _ _ _ hD =>
  ⟨_, exec_resetClock hD, rfl, onlySlots_putDev_out hD _, devAt_putDev_same (devAt_lt hD) _⟩

/-- A run of TICKs of one device, all by the same amount: its clock falls by that amount each time (R104). -/
theorem run_ticks (num : Word) {den : Word} (hden : den ≠ 0) (k : Nat) (hD : devAt s (slotIndex da) = some D)
    (hr : s.refused = none) (hp : s.pending = List.replicate k (portIssue (.tick da num den))) :
    ∃ t, core.run k s = .next t ∧
      devAt t (slotIndex da) = some { D with clock := D.clock - (k : Rat) * timeAmount num den } := by
  induction k generalizing s D with
  | zero => exact ⟨s, rfl, by simpa using hD⟩
  | succ k ih =>
    rw [List.replicate_succ] at hp
    obtain ⟨u, hx, -, ⟨⟨⟨-, hur, hup⟩, -⟩, -⟩, hu⟩ := tickSubtractsFromTheClock
      { s with pending := List.replicate k (portIssue (.tick da num den)) } da num den D hD hden
    obtain ⟨t, hrun, ht⟩ := ih (D := { D with clock := D.clock - timeAmount num den }) hu (hur.trans hr) hup
    have hclock : D.clock - timeAmount num den - (k : Rat) * timeAmount num den =
        D.clock - ((k + 1 : Nat) : Rat) * timeAmount num den := by push_cast; ring
    exact ⟨t, (run_issue hp hr (decodeIssue_tick da num den) hx).trans hrun, hclock ▸ ht⟩

/-- A clock loaded with `T` is at or below 0 after `k` falls by `a` exactly from the ceiling of `T / a` on (R109). -/
theorem sub_mul_nonpos_iff_ceil_le {T a : Rat} (ha : 0 < a) (k : Nat) : T - (k : Rat) * a ≤ 0 ↔ ⌈T / a⌉ ≤ (k : Int) := by
  rw [Int.ceil_le, Int.cast_natCast, div_le_iff₀ ha, sub_nonpos]

/-- Settles O25: after the run of TICKs the clock is time_per_byte less k amounts. -/
theorem readyAfterCeilingOfTicks : Obligations.ReadyAfterCeilingOfTicks := by
  intro s da num den D k hD hclock hnum hden hr hp
  obtain ⟨t, hrun, ht⟩ := run_ticks num hden k hD hr hp
  refine ⟨t, _, hrun, ht, ?_⟩
  rw [isReady, decide_eq_true_iff, hclock]
  exact sub_mul_nonpos_iff_ceil_le (timeAmount_pos hnum hden) k

/-! ### The state register -/

/-- The state UPDATE_STATE computes, by which of the two queues are empty (R110). -/
theorem computedState_eq (D : Device) : computedState D =
    if D.tx.count = 0 then (if D.rx.count = 0 then D.state else .receiving)
    else (if D.rx.count = 0 then .transmitting else .transmittingAndReceiving) := by
  by_cases ht : D.tx.count = 0 <;> by_cases hr : D.rx.count = 0 <;> simp [computedState, qIsEmpty, ht, hr]

/-- Settles O28: the state written, kept as S0 and returned is `computedState`. -/
theorem updateStateReadsQueueOccupancy : Obligations.UpdateStateReadsQueueOccupancy := by
  intro s da D hD
  refine ⟨_, computedState D, exec_updateState hD, rfl, rfl, ⟨rfl, rfl, rfl⟩, rfl,
    fun e he => devAt_updateStateOf_ne s (by simpa using he) D, devAt_updateStateOf_same (devAt_lt hD) D, ?_⟩
  rw [computedState_eq]
  refine ⟨fun ht hr => ?_, fun ht hr => ?_, fun ht hr => ?_, fun ht hr => ?_⟩ <;> simp only [ht, hr, if_true, if_false]

/-! ### The ready STEP -/

/-- The code of the state computed of an Idle device: bit 0 where bits wait to be sent, bit 1 where bits have come in
(R113). -/
theorem stateCode_computedState (h : D.state = .idle) : (stateCode (computedState D)).toNat =
    2 * (if D.rx.count = 0 then 0 else 1) + (if D.tx.count = 0 then 0 else 1) := by
  rw [computedState_idle h]
  by_cases ht : D.tx.count = 0 <;> by_cases hr : D.rx.count = 0 <;> simp only [ht, hr, if_true, if_false] <;> rfl

/-- The state computed of an Idle device lets the receive phase run only with bits in its receive queue (R111, R121). -/
theorem rx_count_of_receives_computedState (h : D.state = .idle) (hr : receives (computedState D) = true) :
    D.rx.count ≠ 0 := by
  intro h0
  rw [computedState_idle h, if_pos h0, if_pos h0] at hr
  split at hr <;> cases hr

/-- The receive phase of a ready step of an Idle device runs on a device `A` whose register the transmit phase left Idle
or as computed.  It ends Idle and never finds its queue empty, whether RX_GUARD tests S0 or that register (R121, R128). -/
theorem receiveDevice_of_idle {p : Params} (h : D.state = .idle) (hw : queueWf p.nRx A.rx) (hrx : A.rx = D.rx)
    (hst : A.state = if transmits (computedState D) then .idle else computedState D) :
    (receiveDevice p A (computedState D)).1.state = .idle ∧ (receiveDevice p A (computedState D)).2.1 ≠ .empty := by
  refine ⟨receiveDevice_state hw (by rw [hst, hrx]; exact idle_or_receiving h), receiveDevice_ne_empty hw fun hr => ?_⟩
  rw [hrx]
  unfold receiveGuard at hr
  split at hr
  · exact rx_count_of_receives_computedState h hr
  · rw [hst] at hr
    split at hr
    · cases hr
    · exact rx_count_of_receives_computedState h hr

/-- EMPTY is the receive result with the code 1 (R74). -/
theorem rxCode_ne_one {r : RxResult} (h : r ≠ .empty) : (rxCode r).toNat ≠ 1 := by
  cases r
  case empty => exact absurd rfl h
  all_goals decide

/-- The receive phase leaves the clock (R105). -/
theorem receiveDevice_clock (p : Params) (D : Device) (s0 : DeviceState) : (receiveDevice p D s0).1.clock = D.clock := by
  obtain ⟨st, rx, rxb, -, -, h⟩ := receiveDevice_fields p D s0
  rw [h]

/-- Settles O48: the response is the status word of the computed state and of the receive phase's result; that phase
finds the device Idle, or Receiving with bits queued. -/
theorem readyStepEndsIdleWithClockReloaded : Obligations.ReadyStepEndsIdleWithClockReloaded := by
  intro s da D hs hD hr hidle
  obtain ⟨-, -, -, hwrx, -⟩ := inv_deviceWf hs hD
  obtain ⟨q, t, -, -, hx, -, -, hslots, -, -, hE, -, hout, -⟩ := readyStep_spec hs hD
  obtain ⟨hstate, hrxr⟩ := receiveDevice_of_idle (p := s.params) (A := { stepStarted D with
    tx := q, state := if transmits (computedState D) then .idle else computedState D }) hidle hwrx rfl rfl
  obtain ⟨hready, hs0, hsend, -, hcode, -⟩ := statusWordFields true _ (computedState D) _ _ _
  exact ⟨t, _, _, _, _, (exec_step_ready hD hr).trans hx, hout, hready, hs0.trans (stateCode_computedState hidle),
    BitVec.eq_of_toNat_eq (hsend.trans (by rw [hstate]; rfl)), fun h => rxCode_ne_one hrxr (hcode ▸ h ▸ rfl), hE,
    receiveDevice_clock _ _ _, hstate, hslots⟩

end Sys2Proof.Machine
end

section
/-! SUPPORT. HANDLE_RECEIVE, stated on the sequence that the receive queue holds, and the settled statements about it
(`43_framing.md` R120 to R126). -/

namespace Sys2Proof.Machine

variable {s : State} {p : Params} {da : SlotIx} {D : Device} {s0 : DeviceState} {r : RxResult} {x n w : Nat}
  {data rest : List Bit}

/-! ### When the receive phase runs, and what it makes of its queue -/

theorem receives_iff : receives s0 = true ↔ s0 = .receiving ∨ s0 = .transmittingAndReceiving := by
  cases s0 <;> simp [receives]

/-- The guard lets the receive phase run exactly where R121 says so, for either RX_GUARD. -/
theorem receives_receiveGuard_iff : receives (receiveGuard s.params D s.s0) = true ↔ ReceiveRuns s D := by
  cases hg : s.params.rxGuard <;> simp [receiveGuard, ReceiveRuns, hg, receives_iff]

/-- The receive phase, where it runs: what `readFrame` makes of the queued sequence is what it answers, and a frame
failure leaves the queue reset (R120 to R126). -/
theorem receiveDevice_of_readFrame (hw : queueWf p.nRx D.rx) (hruns : receives (receiveGuard p D s0) = true)
    (hread : readFrame D.dataBits.toNat p.accW (contents p.nRx D.rx) = (r, x, rest)) :
    ∃ q, contents p.nRx q = rest ∧ (r ≠ .byte → r ≠ .empty → q = qReset D.rx) ∧
      receiveDevice p D s0 = (received D q r x, r, x) := by
  obtain ⟨q, -, hcont, hreset, hdeframe⟩ := deframe_spec hw
  rw [hread] at hcont hreset hdeframe
  exact ⟨q, hcont, hreset, (if_pos hruns).trans hdeframe⟩

/-- The device once a byte has been read: Idle, with the byte at the end of its store (R120). -/
theorem received_byte (D : Device) (q : Queue) (x : Nat) :
    received D q .byte x = { D with rx := q, state := .idle, rxb := D.rxb ++ [x] } := rfl

/-- HANDLE_RECEIVE, where it runs: it answers what `readFrame` makes of the queued sequence and writes its own device
alone. -/
theorem exec_handleReceive_of_readFrame (hs : s.Inv) (hD : devAt s (slotIndex da) = some D) (hruns : ReceiveRuns s D)
    (hread : readFrame D.dataBits.toNat s.params.accW (contents s.params.nRx D.rx) = (r, x, rest)) :
    ∃ t q, exec (.handleReceive da) s = .next t ∧ t.out = .receive r x ∧ OnlySlots [slotIndex da] s t ∧
      contents s.params.nRx q = rest ∧ (r ≠ .byte → r ≠ .empty → q = qReset D.rx) ∧
      devAt t (slotIndex da) = some (received D q r x) := by
  obtain ⟨q, hcont, hreset, hdev⟩ :=
    receiveDevice_of_readFrame (inv_rx_wf hs hD) (receives_receiveGuard_iff.2 hruns) hread
  have hx := exec_handleReceive hD rfl rfl
  rw [hdev] at hx
  exact ⟨_, q, hx, rfl, onlySlots_putDev_out hD _, hcont, hreset, devAt_putDev_same (devAt_lt hD) _⟩

/-- HANDLE_RECEIVE that meets a frame failure: the receive queue is discarded, the state is Idle, and nothing else
changes (R122, R123, R125). -/
theorem exec_handleReceive_failure (hs : s.Inv) (hD : devAt s (slotIndex da) = some D) (hruns : ReceiveRuns s D)
    (hread : readFrame D.dataBits.toNat s.params.accW (contents s.params.nRx D.rx) = (r, 0, []))
    (hbyte : r ≠ .byte) (hempty : r ≠ .empty) :
    ∃ t, exec (.handleReceive da) s = .next t ∧ t.out = .receive r 0 ∧ OnlySlots [slotIndex da] s t ∧
      devAt t (slotIndex da) = some { D with rx := qReset D.rx, state := .idle } ∧
      contents s.params.nRx (qReset D.rx) = [] := by
  obtain ⟨t, q, hx, hout, honly, -, hreset, hdev⟩ := exec_handleReceive_of_readFrame hs hD hruns hread
  obtain rfl := hreset hbyte hempty
  simp only [received, if_neg hbyte, if_neg hempty] at hdev
  exact ⟨t, hx, hout, honly, hdev, contents_qReset _ _⟩

/-! ### What `readFrame` makes of each kind of sequence -/

theorem readFrame_byte (hlen : data.length = n) :
    readFrame n w (Config.startV :: (data ++ Config.stopV :: rest)) = (.byte, bitsValue data % 2 ^ w, rest) := by
  subst hlen
  simp [readFrame]

theorem readFrame_errStart : readFrame n w (Config.stopV :: rest) = (.errStart, 0, []) := rfl

theorem readFrame_errUnderrun (hlen : data.length < n) :
    readFrame n w (Config.startV :: data) = (.errUnderrun, 0, []) := by
  simp [readFrame, hlen]

theorem readFrame_errStop (hlen : data.length = n) (hstop : rest.head? ≠ some Config.stopV) :
    readFrame n w (Config.startV :: (data ++ rest)) = (.errStop, 0, []) := by
  subst hlen
  simp [readFrame, hstop]

/-! ### The settled statements -/

/-- Settles O40: `readFrame` reads the byte and leaves the rest. -/
theorem receiveReadsOneByte : Obligations.ReceiveReadsOneByte := by
  intro s da D data rest hs hD hruns hlen hqueued
  have hread := readFrame_byte (w := s.params.accW) (rest := rest) hlen
  rw [← hqueued] at hread
  obtain ⟨t, q, hx, hout, honly, hcont, -, hdev⟩ := exec_handleReceive_of_readFrame hs hD hruns hread
  rw [received_byte] at hdev
  exact ⟨t, q, _, rfl, hx, hout, honly, hcont, hdev⟩

/-- Settles O41: a head of the stop-bit value is a start error. -/
theorem receiveStartErrorDiscardsTheQueue : Obligations.ReceiveStartErrorDiscardsTheQueue := by
  intro s da D rest hs hD hruns hqueued
  exact exec_handleReceive_failure hs hD hruns (by rw [hqueued]; exact readFrame_errStart) (by decide) (by decide)

/-- Settles O42: too few data bits are an underrun. -/
theorem receiveUnderrunDiscardsTheQueue : Obligations.ReceiveUnderrunDiscardsTheQueue := by
  intro s da D data hs hD hruns hlen hqueued
  exact exec_handleReceive_failure hs hD hruns (by rw [hqueued]; exact readFrame_errUnderrun hlen) (by decide)
    (by decide)

/-- Settles O43: no stop-bit value behind the data bits is a stop error. -/
theorem receiveStopErrorDiscardsTheQueue : Obligations.ReceiveStopErrorDiscardsTheQueue := by
  intro s da D data rest hs hD hruns hlen hstop hqueued
  exact exec_handleReceive_failure hs hD hruns (by rw [hqueued]; exact readFrame_errStop hlen hstop) (by decide)
    (by decide)

end Sys2Proof.Machine
end

section
/-! SUPPORT. The phases of a step where they abandon a frame, have no peer, or do nothing, and the settled statements
about them (`43_framing.md` R115 to R121, `44_link.md` R145). -/

namespace Sys2Proof.Machine

variable {s : State} {da : SlotIx} {D : Device} {r : RxResult}

/-! ### HANDLE_TRANSMIT (R116, R118, R119) -/

/-- Settles O37: with fewer than data_bits bits queued the phase's bits are the start bit and those, and its result is
UNDERRUN. -/
theorem transmitUnderrunAbandonsTheFrame : Obligations.TransmitUnderrunAbandonsTheFrame := by
  intro s da D P p hs hD hp hP hs0 hqueued
  obtain ⟨t, tx, rx, hx, hout, honly, hsender, hreceiver, hleft, hpushed⟩ :=
    exec_handleTransmit_peer hs hD hp hP (transmits_iff.2 hs0)
  have hlen : (contents s.params.nTx D.tx).length < D.dataBits.toNat := by rwa [contents_length]
  simp only [phaseBits, phaseTxr, if_neg (not_le.2 hlen)] at hout hpushed
  rw [List.drop_eq_nil_of_le hlen.le] at hleft
  exact ⟨t, tx, rx, _, rfl, hx, hout, honly, hsender, hreceiver, hleft, hpushed⟩

/-- The bits that a phase pushes: a whole frame, or one more than the bits queued. -/
theorem phaseBits_length (D : Device) (queued : List Bit) : (phaseBits D queued).length =
    if D.dataBits.toNat ≤ queued.length then 1 + D.dataBits.toNat + D.stopBits.toNat else 1 + queued.length := by
  unfold phaseBits
  split
  · next hlen =>
    simp only [wireFrame, List.length_cons, List.length_append, List.length_take, List.length_replicate,
      Nat.min_eq_left hlen]
    omega
  · rw [List.length_cons, Nat.add_comm]

/-- Settles O38: every bit of the phase is pushed to no peer, and lost. -/
theorem transmitWithNoPeerLosesTheFrame : Obligations.TransmitWithNoPeerLosesTheFrame := by
  intro s da D hs hD hp hs0
  obtain ⟨-, -, hwtx, -⟩ := inv_deviceWf hs hD
  obtain ⟨tx, -, hleft, htxr, hnopeer, hlost, htouched, hsender⟩ :=
    handleTransmit_no_peer hD hp hwtx (transmits_iff.2 hs0)
  rw [phaseBits_length, contents_length] at hlost
  rw [phaseTxr, contents_length] at htxr
  refine ⟨_, tx, _, _, exec_handleTransmit hD, by rw [hnopeer], ⟨htouched.same, htouched.slots⟩, hsender, hleft,
    fun hlen => ?_, fun hlen => ?_⟩
  · rw [htxr, hlost, if_pos hlen, if_pos hlen]; exact ⟨rfl, rfl⟩
  · rw [htxr, hlost, if_neg (not_le.2 hlen), if_neg (not_le.2 hlen)]; exact ⟨rfl, rfl⟩

/-! ### Phases that do nothing (R116, R121) -/

/-- HANDLE_RECEIVE whose phase leaves its device changes nothing but the output. -/
theorem exec_handleReceive_unchanged (hD : devAt s (slotIndex da) = some D)
    (hphase : receiveDevice s.params D s.s0 = (D, r, 0)) :
    ∃ t, exec (.handleReceive da) s = .next t ∧ t.out = .receive r 0 ∧ SameBlock s t ∧
      ∀ e, devAt t e = devAt s e := by
  have hx := exec_handleReceive hD rfl rfl
  rw [hphase] at hx
  refine ⟨_, hx, rfl, sameBlock_putDev s (slotIndex da) D, fun e => ?_⟩
  rw [devAt_out]
  by_cases he : e = slotIndex da
  · rw [he, devAt_putDev_same (devAt_lt hD), hD]
  · exact devAt_putDev_ne s he D

/-- The deframer finds an empty queue empty, and leaves it (R120). -/
theorem deframe_of_empty (p : Params) (h : D.rx.count = 0) : deframe p D = (D, .empty, 0) := by
  simp only [deframe, qPeek, if_pos h]

/-- Settles O39: a phase that its guard stops, or that finds an empty queue, hands its device back. -/
theorem phasesThatChangeNothing : Obligations.PhasesThatChangeNothing := by
  intro s da D hD
  refine ⟨fun hs0 => ?_, fun hstop => ?_, fun hruns hempty => ?_⟩
  · have hidle : transmits s.s0 = false := by rcases hs0 with hs0 | hs0 <;> rw [hs0] <;> rfl
    rw [exec_handleTransmit hD, handleTransmit_idle hidle]
  · exact exec_handleReceive_unchanged hD (if_neg (mt receives_receiveGuard_iff.1 hstop))
  · exact exec_handleReceive_unchanged hD
      ((if_pos (receives_receiveGuard_iff.2 hruns)).trans (deframe_of_empty _ hempty))

end Sys2Proof.Machine
end

section
/-! SUPPORT. The receive accumulator as a number (`43_framing.md` R124). -/

namespace Sys2Proof.Machine

/-- The number that a sequence followed by another writes (R42). -/
theorem bitsValue_append (xs ys : List Bit) : bitsValue (xs ++ ys) = bitsValue xs * 2 ^ ys.length + bitsValue ys := by
  induction xs with
  | nil => simp [bitsValue]
  | cons x xs ih =>
    simp only [List.cons_append, bitsValue, ih, List.length_append]
    ring

/-- Bits above the last `w` do not count mod 2^w. -/
theorem bitsValue_mod (w : Nat) (bs : List Bit) (h : w ≤ bs.length) :
    bitsValue bs % 2 ^ w = bitsValue (bs.drop (bs.length - w)) := by
  have hlast : (bs.drop (bs.length - w)).length = w := by rw [List.length_drop]; omega
  have hlt := bitsValue_lt_pow (bs.drop (bs.length - w))
  conv_lhs => rw [← List.take_append_drop (bs.length - w) bs]
  rw [hlast] at hlt
  rw [bitsValue_append, hlast, Nat.mul_add_mod_self_right, Nat.mod_eq_of_lt hlt]

/-- Settles O44: the accumulator is the number of all the bits, mod 2^ACC_W. -/
theorem accumulatorKeepsTheLastBits : Obligations.AccumulatorKeepsTheLastBits := by
  intro w data
  rw [accumulate_zero]
  refine ⟨fun hfits => Nat.mod_eq_of_lt ?_, fun hlong => bitsValue_mod w data hlong.le⟩
  exact (bitsValue_lt_pow data).trans_le (Nat.pow_le_pow_right Nat.two_pos hfits)

end Sys2Proof.Machine
end

section
/-! SUPPORT. ENQUEUE_TRANSMIT and DRAIN_RECEIVED, and the settled statements about them (`43_framing.md` R134 to
R138). -/

namespace Sys2Proof.Machine

variable {s : State} {da : SlotIx} {D : Device}

/-! ### ENQUEUE_TRANSMIT (R134, R135) -/

/-- A transmit queue takes fewer bits than a word counts (R8). -/
theorem nTx_lt_word (h : paramsOk s.params = true) : s.params.nTx < 2 ^ 32 := by
  simp only [paramsOk, capacitiesOk, capacityOk, Bool.and_eq_true, decide_eq_true_eq] at h; omega

/-- ENQUEUE_TRANSMIT pushes the bits and returns how many went in. -/
theorem exec_enqueueTransmit (hD : devAt s (slotIndex da) = some D) (bits : List Bit) :
    exec (.enqueueTransmit da bits) s =
      .next { useCount (putDev s (slotIndex da) { D with tx := (qPushAll s.params.nTx D.tx bits).1 })
          (qPushAll s.params.nTx D.tx bits).2 with
        out := .response [countWord s (qPushAll s.params.nTx D.tx bits).2] } :=
  onDevice_some hD _

/-- Settles O50: what is pushed is what there is room for, a count that a word holds. -/
theorem enqueueAppendsWhatFits : Obligations.EnqueueAppendsWhatFits := by
  intro s da bits D hs hD
  obtain ⟨-, -, hwtx, -⟩ := inv_deviceWf hs hD
  obtain ⟨-, hcont, hcount⟩ := qPushAll_spec hwtx bits
  have hword : (qPushAll s.params.nTx D.tx bits).2 < 2 ^ 32 := by
    have := nTx_lt_word hs.1
    rw [hcount, room]; omega
  have hx := exec_enqueueTransmit hD bits
  rw [useCount_of_lt _ _ hword] at hx
  refine ⟨_, _, _, hx, rfl, (countWord_toNat _ _ hword).trans hcount, onlySlots_putDev_out hD _,
    devAt_putDev_same (devAt_lt hD) _, hcont, ?_⟩
  rintro rfl
  exact ⟨rfl, countWord_of_lt _ _ hword⟩

/-! ### DRAIN_RECEIVED (R137, R138) -/

/-- A store of bytes that fit in words, read back from the words (R67). -/
theorem map_toNat_ofNat {xs : List Nat} (h : ∀ x ∈ xs, x < 2 ^ 32) :
    (xs.map (BitVec.ofNat 32)).map BitVec.toNat = xs := by
  rw [List.map_map]
  exact (List.map_congr_left fun x hx => Nat.mod_eq_of_lt (h x hx)).trans (List.map_id xs)

/-- A received byte fits in a word (R33). -/
theorem rxb_lt_word (hs : s.Inv) (hD : devAt s (slotIndex da) = some D) : ∀ x ∈ D.rxb, x < 2 ^ 32 := by
  obtain ⟨-, -, -, -, hrxb⟩ := inv_deviceWf hs hD
  obtain ⟨-, haccW⟩ := accW_le hs.1
  exact fun x hx => (hrxb x hx).trans_le (Nat.pow_le_pow_right Nat.two_pos haccW)

/-- Settles O51: the words are the store, and the second drain finds the store that the first one emptied. -/
theorem drainReturnsTheBytesOnce : Obligations.DrainReturnsTheBytesOnce := by
  intro s da D hs hD
  have hE : devAt (useCount (putDev s (slotIndex da) { D with rxb := [] }) D.rxb.length) (slotIndex da) =
      some { D with rxb := [] } := by
    rw [devAt_useCount]; exact devAt_putDev_same (devAt_lt hD) _
  refine ⟨_, _, _, exec_drainReceived hD, rfl, map_toNat_ofNat (rxb_lt_word hs hD), fun hlen => ?_,
    ⟨useCount_params _ _, useCount_refused _ _, useCount_pending _ _⟩, useCount_s0 _ _, fun e he => ?_, hE,
    _, exec_drainReceived hE, rfl⟩
  · exact ⟨countWord_toNat _ _ hlen, by rw [useCount_of_lt _ _ hlen]; rfl⟩
  · rw [devAt_out, devAt_useCount]
    exact devAt_putDev_ne s (by simpa using he) _

end Sys2Proof.Machine
end

section
/-! SUPPORT. What a STEP does to its device's clock, in every state of the block (`43_framing.md` R129). -/

namespace Sys2Proof.Machine

variable {s : State} {d : Nat} {D : Device}

/-- The transmit phase leaves its own device in place, with its clock (R105). -/
theorem handleTransmit_clock (hD : devAt s d = some D) (s0 : DeviceState) :
    ∃ A, devAt (handleTransmit s d D s0).state d = some A ∧ A.clock = D.clock := by
  obtain ⟨hwrites, -⟩ := handleTransmit_writes D.peer s d D s0 ⟨D, hD, rfl⟩
  refine hwrites.device (S := fun _ A B => B.clock = A.clock) (fun _ _ => rfl) ?_ hD
  rintro e A B C hAB (⟨-, st, tx, -, rfl⟩ | ⟨-, rx, -, rfl⟩)
  · exact hAB
  · exact hAB

/-- A ready step reloads its device's clock, whatever the device's peer is (R108, R129). -/
theorem readyStep_clock (hD : devAt s d = some D) :
    ∃ t E, readyStep s d D = .next t ∧ devAt t d = some E ∧ E.clock = D.timePerByte := by
  have hD1 : devAt (updateStateOf s d (resetClock D)) d = some (stepStarted D) :=
    devAt_updateStateOf_same (devAt_lt hD) _
  obtain ⟨A, hA, hclock⟩ := handleTransmit_clock hD1 (computedState D)
  simp only [readyStep]
  generalize handleTransmit (updateStateOf s d (resetClock D)) d (stepStarted D) (computedState D) = tx at hA ⊢
  have hcur : currentDevice tx.state d (stepStarted D) = A := by rw [currentDevice, hA]; rfl
  rw [hcur]
  exact ⟨_, _, rfl, (devAt_useCount _ _ _).trans (devAt_putDev_same (devAt_lt hA) _),
    (receiveDevice_clock _ _ _).trans hclock⟩

/-- The response of a STEP that is not ready holds the state register twice (R72). -/
theorem stepStatus_not_ready (st : DeviceState) :
    stepStatus false st st .none .none false = (stateCode st <<< 3) ||| (stateCode st <<< 1) := by
  cases st <;> rfl

/-- Settles O46: at clock 0 and below the step is a ready step. -/
theorem stepChangesNothingUnlessReady : Obligations.StepChangesNothingUnlessReady := by
  intro s da D hD
  refine ⟨fun hwait => ?_, fun hready => ?_⟩
  · rw [exec_step_not_ready hD hwait, stepStatus_not_ready]
  · rw [exec_step_ready hD hready]
    exact readyStep_clock hD

end Sys2Proof.Machine
end

section
/-! SUPPORT. One byte over a link, by a STEP of each end: what the two steps respond and what they leave
(`43_framing.md` R115, R120, R139). -/

namespace Sys2Proof.Machine

variable {s t : State} {a b da peer : SlotIx} {T c ca cb : Rat} {D P : Device} {x : Byte} {xs bytes : List Byte}
  {store : List Nat}

/-- The response of a ready STEP that sends a byte to a peer whose receive queue is empty: SENT, and nothing lost. -/
theorem step_response_sent (hs : s.Inv) (hnRx : 10 ≤ s.params.nRx) (hD : devAt s (slotIndex da) = some D)
    (hP : devAt s (slotIndex peer) = some P) (hempty : contents s.params.nRx P.rx = [])
    (h : LinkEnd s.params peer T c (bytesToBits (x :: xs)) [] D) (hc : c ≤ 0) (hx : exec (.step da) s = .next t) :
    t.out = .response [0x023, 0, 0] := by
  have hs0 : computedState D = .transmitting := by
    rw [h.computedState, if_neg (bytesToBits_cons_ne_nil x xs), if_pos rfl]
  obtain ⟨-, hpeer, -⟩ := inv_deviceWf hs hD
  obtain ⟨-, htxr, hnopeer, hlost, -⟩ := handleTransmit_byte (D := stepStarted D) (s0 := .transmitting)
    (inv_updateStateOf hs hD) hnRx (devAt_updateStateOf_same (devAt_lt hD) _) h.peer h.data h.stop
    ((devAt_updateStateOf_ne s (hpeer _ h.peer).1 _).trans hP) (h.tx.trans (bytesToBits_cons x xs)) hempty rfl
  obtain ⟨q, u, -, -, hu, -, -, -, -, -, -, -, hout, -⟩ := readyStep_spec hs hD
  rw [exec_step_ready hD (h.clock ▸ hc), hu] at hx
  cases hx
  rw [hs0, receiveDevice_not_receiving rfl rfl, htxr, hnopeer, hlost, countWord_of_lt _ _ (by decide)] at hout
  dsimp only at hout
  exact hout

/-- The response of a ready STEP with nothing to send and a frame on its way: BYTE, and the byte. -/
theorem step_response_byte (hs : s.Inv) (hacc : s.params.accW = 8) (hD : devAt s (slotIndex da) = some D)
    (h : LinkEnd s.params peer T c [] (flightBits (some x)) D) (hc : c ≤ 0) (hx : exec (.step da) s = .next t) :
    t.out = .response [0x205, x.zeroExtend 32, 0] := by
  have hs0 : computedState D = .receiving := h.computedState
  obtain ⟨q, u, -, -, hu, -, -, -, -, -, -, -, hout, -⟩ := readyStep_spec hs hD
  rw [exec_step_ready hD (h.clock ▸ hc), hu] at hx
  cases hx
  have hread : readFrame D.dataBits.toNat s.params.accW (contents s.params.nRx D.rx) = (.byte, x.toNat, []) := by
    rw [h.data, hacc, h.rx]; exact readFrame_wireFrame x
  obtain ⟨rx, -, -, hrec⟩ := receiveDevice_of_readFrame (p := s.params) (s0 := .receiving)
    (D := { stepStarted D with tx := q, state := .receiving }) (inv_rx_wf hs hD :)
    (by unfold receiveGuard; split <;> rfl) hread
  rw [hs0, handleTransmit_idle rfl, if_neg (by decide), hrec, countWord_of_lt _ _ (Nat.two_pow_pos 32),
    received_byte] at hout
  dsimp only at hout
  rw [BitVec.ofNat_toNat] at hout
  exact hout

/-- A ready STEP of the sender puts its next byte on the way. -/
theorem exec_step_sends_byte (h : Crossing a b T ca cb (x :: xs) none store s) (hc : ca ≤ 0) :
    ∃ t, exec (.step a) s = .next t ∧ t.out = .response [0x023, 0, 0] ∧
      Crossing a b T T cb xs (some x) store t := by
  obtain ⟨A, hA, hendA⟩ := h.sender
  obtain ⟨B, hB, hendB, hstore⟩ := h.receiver
  obtain ⟨t, E, q, hx, hr, -, hE, hend, hP, hq⟩ := exec_step_sender h.inv h.nRx hA hB hendB.rx hendA hc
  exact ⟨t, hx, step_response_sent h.inv h.nRx hA hB hendB.rx hendA hc hx,
    h.after_exec hx hr hE hend hP { hendB with rx := hq } hstore⟩

/-- A ready STEP of the receiver takes the byte on the way into its store. -/
theorem exec_step_takes_byte (h : Crossing a b T ca cb xs (some x) store s) (hc : cb ≤ 0) :
    ∃ t, exec (.step b) s = .next t ∧ t.out = .response [0x205, x.zeroExtend 32, 0] ∧
      Crossing a b T ca T xs none (store ++ [x.toNat]) t := by
  obtain ⟨A, hA, hendA⟩ := h.sender
  obtain ⟨B, hB, hendB, rfl⟩ := h.receiver
  obtain ⟨t, E, hx, hr, -, hother, hE, hend, hstore⟩ := exec_step_receiver h.inv h.accW hB hendB hc
  exact ⟨t, hx, step_response_byte h.inv h.accW hB hendB hc hx,
    h.after_exec hx hr ((hother _ (by simpa using h.ne.symm)).trans hA) hendA hE hend hstore⟩

/-- A link with equal clocks and no frame on its way is a linked pair of R139. -/
theorem Crossing.linkedPair (h : Crossing a b T c c bytes none store s) (hc : c ≤ T) :
    ∃ A B, LinkedPair s a b A B bytes ∧ A.clock = c ∧ A.timePerByte = T ∧ B.rxb = store := by
  obtain ⟨A, hA, hendA⟩ := h.sender
  obtain ⟨B, hB, hendB, hstore⟩ := h.receiver
  refine ⟨A, B, ?_, hendA.clock, hendA.period, hstore⟩
  exact {
    inv := h.inv
    safe := h.safe
    nRx := h.nRx
    accW := h.accW
    devA := hA
    devB := hB
    peerA := hendA.peer
    peerB := hendB.peer
    data := ⟨hendA.data, hendB.data⟩
    stop := ⟨hendA.stop, hendB.stop⟩
    period := hendB.period.trans hendA.period.symm
    clock := ⟨hendB.clock.trans hendA.clock.symm, by rw [hendA.clock, hendA.period]; exact hc⟩
    idle := ⟨hendA.idle, hendB.idle⟩
    txA := hendA.tx
    txB := contents_eq_nil.1 hendB.tx
    rxA := contents_eq_nil.1 hendA.rx
    rxB := contents_eq_nil.1 hendB.rx }

/-- Settles O59: the sender's step puts the byte on its way, the receiver's takes it, and both clocks are reloaded. -/
theorem oneByteCrossesTheLink : Obligations.OneByteCrossesTheLink := by
  intro s a b A B x bytes h hready
  obtain ⟨t, hx, hsent, hflight⟩ := exec_step_sends_byte h.crossing hready
  obtain ⟨u, hy, htaken, hdone⟩ := exec_step_takes_byte hflight hready
  obtain ⟨A', B', hpair, hclock, hperiod, hstore⟩ := hdone.linkedPair le_rfl
  exact ⟨t, u, A', B', hx, hsent, hy, htaken, hpair, hclock, hperiod, hstore⟩

end Sys2Proof.Machine
end

section
/-! SUPPORT. What CONNECT does, and the boot order of R179 (`44_link.md` R140 to R143, `70_reset_and_hazards.md` R179,
R180). -/

namespace Sys2Proof.Machine

variable {s t : State} {da db : SlotIx} {A B : Device} {p : Params} {devs done : List SlotConfig}
  {links made : List (SlotIx × SlotIx)} {c : SlotConfig} {l : SlotIx × SlotIx}

/-! ### CONNECT -/

/-- The state after two devices are connected and the command has returned no words (R140). -/
def connectDevices (s : State) (da db : SlotIx) (A B : Device) : State :=
  { putDev (putDev s (slotIndex da) { A with peer := some (slotIndex db) }) (slotIndex db)
      { B with peer := some (slotIndex da) } with out := .response [] }

/-- CONNECT of two distinct slots that hold devices is not refused (R140). -/
theorem exec_connect_devices (hne : da ≠ db) (hA : devAt s (slotIndex da) = some A)
    (hB : devAt s (slotIndex db) = some B) : exec (.connect da db) s = .next (connectDevices s da db A B) := by
  simp only [exec, execConnect, deviceOperand, hA, hB, if_neg hne]
  rfl

/-- CONNECT of a device with itself is refused (R141). -/
theorem exec_connect_self (hA : devAt s (slotIndex da) = some A) :
    exec (.connect da da) s = refuse s .selfLink := by
  simp only [exec, execConnect, deviceOperand, hA, if_true]

/-- Connecting two devices writes their slots and no third one (R142). -/
theorem onlySlots_connectDevices (s : State) (da db : SlotIx) (A B : Device) :
    OnlySlots [slotIndex da, slotIndex db] s (connectDevices s da db A B) := by
  refine ⟨⟨⟨rfl, rfl, rfl⟩, rfl, rfl⟩, fun e he => ?_⟩
  obtain ⟨ha, hb⟩ : e ≠ slotIndex da ∧ e ≠ slotIndex db := by simpa using he
  rw [connectDevices, devAt_out, devAt_putDev_ne _ hb, devAt_putDev_ne _ ha]

theorem devAt_connectDevices_left (hne : da ≠ db) (hA : devAt s (slotIndex da) = some A) :
    devAt (connectDevices s da db A B) (slotIndex da) = some { A with peer := some (slotIndex db) } :=
  (devAt_putDev_ne _ (slotIndex_ne hne) _).trans (devAt_putDev_same (devAt_lt hA) _)

theorem devAt_connectDevices_right (hB : devAt s (slotIndex db) = some B) :
    devAt (connectDevices s da db A B) (slotIndex db) = some { B with peer := some (slotIndex da) } := by
  rw [connectDevices, devAt_out, devAt_putDev_same]
  simpa using devAt_lt hB

/-- Settles O52: two device writes, each of one peer field. -/
theorem connectLinksBothSides : Obligations.ConnectLinksBothSides := by
  intro s da db A B hA hB hne
  exact ⟨_, exec_connect_devices hne hA hB, rfl, onlySlots_connectDevices s da db A B,
    devAt_connectDevices_left hne hA, devAt_connectDevices_right hB⟩

/-- The two writes of CONNECT commute. -/
theorem connectDevices_comm (s : State) (hne : da ≠ db) (A B : Device) :
    connectDevices s db da B A = connectDevices s da db A B := by
  simp only [connectDevices, putDev, tablePut_comm s.dev (slotIndex_ne hne)]

/-- Connecting the two devices once more writes what they hold. -/
theorem connectDevices_again (s : State) (hne : da ≠ db) (A B : Device) (x y : Option Nat) :
    connectDevices (connectDevices s da db A B) da db { A with peer := x } { B with peer := y } =
      connectDevices s da db A B := by
  simp only [connectDevices, putDev, tablePut_put, tablePut_comm _ (slotIndex_ne hne)]

/-- The operands of a CONNECT: a slot without a device, one device twice, or two devices. -/
theorem connect_operands (s : State) (da db : SlotIx) :
    (devAt s (slotIndex da) = none ∨ devAt s (slotIndex db) = none) ∨
    (da = db ∧ ∃ A, devAt s (slotIndex da) = some A) ∨
    (da ≠ db ∧ ∃ A B, devAt s (slotIndex da) = some A ∧ devAt s (slotIndex db) = some B) := by
  rcases hA : devAt s (slotIndex da) with _ | A
  · exact .inl (.inl rfl)
  rcases hB : devAt s (slotIndex db) with _ | B
  · exact .inl (.inr rfl)
  by_cases hne : da = db
  · exact .inr (.inl ⟨hne, A, rfl⟩)
  · exact .inr (.inr ⟨hne, A, B, rfl, rfl⟩)

/-- Settles O53: a refusal sets the mark it finds the second time, and the two writes of a CONNECT that is not refused
commute and replace themselves. -/
theorem connectIsSymmetricAndIdempotent : Obligations.ConnectIsSymmetricAndIdempotent := by
  intro s da db
  rcases connect_operands s da db with hmissing | ⟨rfl, A, hA⟩ | ⟨hne, A, B, hA, hB⟩
  · exact ⟨{ s with refused := some .badSlot }, exec_connect_missing hmissing, exec_connect_missing hmissing.symm,
      exec_connect_missing hmissing, exec_connect_missing hmissing.symm⟩
  · exact ⟨{ s with refused := some .selfLink }, exec_connect_self hA, exec_connect_self hA, exec_connect_self hA,
      exec_connect_self hA⟩
  · have hA' := devAt_connectDevices_left (B := B) hne hA
    have hB' := devAt_connectDevices_right (da := da) (A := A) hB
    refine ⟨connectDevices s da db A B, exec_connect_devices hne hA hB, ?_, ?_, ?_⟩
    · rw [exec_connect_devices hne.symm hB hA, connectDevices_comm s hne]
    · rw [exec_connect_devices hne hA' hB', connectDevices_again s hne]
    · rw [exec_connect_devices hne.symm hB' hA', connectDevices_comm _ hne, connectDevices_again s hne]

/-! ### The boot order (R179) -/

/-- A block with parameters `p` that has created `devs` and connected `links`, in that order. -/
def Booted (p : Params) (devs : List SlotConfig) (links : List (SlotIx × SlotIx)) (s : State) : Prop :=
  s.params = p ∧ CleanStart devs links s

/-- A built block is booted with no device and no link, whatever commands wait. -/
theorem booted_build (hp : paramsOk p = true) (pending : List Issue) :
    Booted p [] [] { State.build p with pending := pending } := by
  refine ⟨rfl, build_refused hp, fun _ h => (nomatch h), fun _ h => (nomatch h), fun d D hD => ?_⟩
  rw [devAt_pending, build_devAt] at hD
  cases hD

/-- CREATE_DEVICE of one more slot, before any link is made (R101). -/
theorem leads_create (hlt : slotIndex c.slot < p.ndev) (hcfg : configHasZero c.baud c.data c.stop c.start = false)
    (hnew : c.slot ∉ done.map SlotConfig.slot) :
    Leads [.createDevice c.slot c.baud c.data c.stop c.start] (Booted p done []) (Booted p (done ++ [c]) []) := by
  refine leads_exec (decodeIssue_createDevice ..) fun s rest hs => ?_
  obtain ⟨rfl, hrefused, -, hdevs, honly⟩ := hs
  have hother : ∀ e ∈ done, slotIndex e.slot ≠ slotIndex c.slot := fun e he =>
    slotIndex_ne fun h => hnew (h ▸ List.mem_map_of_mem he)
  have hfree : devAt s (slotIndex c.slot) = none := by
    refine Option.eq_none_iff_forall_ne_some.2 fun D hD => ?_
    obtain ⟨e, he, hslot⟩ := honly _ _ hD
    exact hother e he hslot
  refine ⟨hrefused, _, exec_createDevice_free (s := { s with pending := rest }) hlt hfree hcfg, quiet_nil, rfl,
    hrefused, fun _ h => (nomatch h), fun e he => ?_, fun d D hD => ?_⟩
  · rw [devAt_out]
    rcases List.mem_append.1 he with he | he
    · rw [devAt_putDev_ne _ (hother e he)]
      exact hdevs e he
    · obtain rfl := List.mem_singleton.1 he
      exact devAt_putDev_same hlt _
  · by_cases hd : d = slotIndex c.slot
    · exact ⟨c, by simp, hd.symm⟩
    · rw [devAt_out, devAt_putDev_ne _ hd] at hD
      obtain ⟨e, he, hslot⟩ := honly d D hD
      exact ⟨e, List.mem_append_left _ he, hslot⟩

/-- The CREATE_DEVICEs of boot step (2). -/
theorem leads_creates (hnodup : ((done ++ devs).map SlotConfig.slot).Nodup)
    (hcfg : ∀ c ∈ devs, slotIndex c.slot < p.ndev ∧ configHasZero c.baud c.data c.stop c.start = false) :
    Leads (devs.map fun c => .createDevice c.slot c.baud c.data c.stop c.start) (Booted p done [])
      (Booted p (done ++ devs) []) := by
  induction devs generalizing done with
  | nil => rw [List.append_nil]; exact .nil _
  | cons c devs ih =>
    obtain ⟨hlt, hzero⟩ := hcfg c List.mem_cons_self
    have hnew : c.slot ∉ done.map SlotConfig.slot := fun h => by
      rw [List.map_append, List.nodup_append] at hnodup
      exact hnodup.2.2 _ h _ List.mem_cons_self rfl
    rw [List.append_cons] at hnodup ⊢
    exact (leads_create hlt hzero hnew).cons (ih hnodup fun e he => hcfg e (List.mem_cons_of_mem _ he))

/-- A slot of `devs` holds a device in a booted block. -/
theorem CleanStart.device {d : SlotIx} (h : CleanStart devs links s) (hd : d ∈ devs.map SlotConfig.slot) :
    ∃ D, devAt s (slotIndex d) = some D ∧ D.peer = linkedTo links (slotIndex d) := by
  obtain ⟨-, -, hdevs, -⟩ := h
  obtain ⟨c, hc, rfl⟩ := List.mem_map.1 hd
  exact ⟨_, hdevs c hc, rfl⟩

/-- The peer that the device in a slot of `devs` has in a booted block. -/
theorem CleanStart.peer {d : SlotIx} (h : CleanStart devs links s) (hd : d ∈ devs.map SlotConfig.slot) :
    (devAt s (slotIndex d)).bind Device.peer = linkedTo links (slotIndex d) := by
  obtain ⟨D, hD, hpeer⟩ := h.device hd
  rw [hD, Option.bind_some, hpeer]

/-- CONNECT of one more link writes the peers that `linkedTo` reads off it (R140, R142). -/
theorem leads_connect (hl : linkWf devs l) :
    Leads [.connect l.1 l.2] (Booted p devs made) (Booted p devs (made ++ [l])) := by
  refine leads_exec (decodeIssue_connect ..) fun s rest hs => ?_
  obtain ⟨rfl, hclean⟩ := hs
  obtain ⟨hne, h1, h2⟩ := hl
  obtain ⟨A, hA, -⟩ := hclean.device h1
  obtain ⟨B, hB, -⟩ := hclean.device h2
  obtain ⟨hrefused, hmade, hdevs, honly⟩ := hclean
  obtain ⟨t, hx, hout, ⟨⟨⟨hparams, hmark, -⟩, -⟩, hslots⟩, hA', hB'⟩ :=
    connectLinksBothSides { s with pending := rest } l.1 l.2 A B hA hB hne
  refine ⟨hrefused, t, hx, hout ▸ quiet_nil, hparams, hmark.trans hrefused, fun m hm => ?_, fun c hc => ?_,
    fun d D hD => ?_⟩
  · rcases List.mem_append.1 hm with hm | hm
    · exact hmade m hm
    · exact List.mem_singleton.1 hm ▸ ⟨hne, h1, h2⟩
  · have hc' := hdevs c hc
    rw [linkedTo_append]
    by_cases hd1 : slotIndex l.1 = slotIndex c.slot
    · rw [← hd1, hA] at hc'
      cases hc'
      rw [if_pos hd1, ← hd1, hA']
    · by_cases hd2 : slotIndex l.2 = slotIndex c.slot
      · rw [← hd2, hB] at hc'
        cases hc'
        rw [if_neg hd1, if_pos hd2, ← hd2, hB']
      · rw [if_neg hd1, if_neg hd2, hslots _ (by simp [Ne.symm hd1, Ne.symm hd2])]
        exact hc'
  · by_cases hd : d ∈ [slotIndex l.1, slotIndex l.2]
    · simp only [List.mem_cons, List.not_mem_nil, or_false] at hd
      rcases hd with rfl | rfl
      · exact honly _ A hA
      · exact honly _ B hB
    · exact honly d D (hslots d hd ▸ hD)

/-- The CONNECTs of boot step (3). -/
theorem leads_connects (hlinks : ∀ l ∈ links, linkWf devs l) :
    Leads (links.map fun l => .connect l.1 l.2) (Booted p devs made) (Booted p devs (made ++ links)) := by
  induction links generalizing made with
  | nil => rw [List.append_nil]; exact .nil _
  | cons l links ih =>
    rw [List.append_cons]
    exact (leads_connect (hlinks l List.mem_cons_self)).cons (ih fun m hm => hlinks m (List.mem_cons_of_mem _ hm))

/-- Settles O58: each CREATE_DEVICE and each CONNECT adds itself to what the block is booted with, and `linkedTo` says
which peers that leaves. -/
theorem bootReachesCleanStart : Obligations.BootReachesCleanStart := by
  intro p devs links hp hnodup hcfg hlinks
  have hlead := (leads_creates (done := []) hnodup hcfg).append (leads_connects (made := []) hlinks)
  obtain ⟨t, ⟨hrun, -⟩, hpending, -, hclean⟩ := hlead
    { State.build p with pending := bootCommands devs links } [] (by simp [bootCommands, Function.comp_def])
    (booted_build hp _)
  rw [List.length_append, List.length_map, List.length_map] at hrun
  refine ⟨t, hrun, hpending, hclean, fun l hl hapart => ?_, fun c hc hunnamed => ?_⟩
  · obtain ⟨hne, h1, h2⟩ := hlinks l hl
    obtain ⟨hp1, hp2⟩ := linkedTo_apart hl hne hapart
    exact ⟨(hclean.peer h1).trans hp1, (hclean.peer h2).trans hp2⟩
  · exact (hclean.peer (List.mem_map_of_mem hc)).trans (linkedTo_unnamed hunnamed)

end Sys2Proof.Machine
end

section
/-! SUPPORT. The bit order of the two conversions, and the settled statements about them (`45_bitconv.md` R149 to
R152). -/

namespace Sys2Proof.Machine

variable {x : Byte} {xs : List Byte} {bs : List Bit} {j k : Nat} {s : State}

/-! ### BYTES_TO_BITS (R149) -/

theorem byteBits_getElem? (x : Byte) (hj : j < 8) : (byteBits x)[j]? = some (x.getLsbD (7 - j)) := by
  interval_cases j <;> rfl

/-- Bit 8k + j of the conversion is bit j of the k-th group, most significant first. -/
theorem bytesToBits_getElem? (hk : k < xs.length) (hj : j < 8) :
    (bytesToBits xs)[8 * k + j]? = some (xs[k].getLsbD (7 - j)) := by
  induction xs generalizing k with
  | nil => exact absurd hk (Nat.not_lt_zero k)
  | cons x xs ih =>
    rw [bytesToBits_cons]
    cases k with
    | zero =>
      rw [Nat.mul_zero, Nat.zero_add, List.getElem?_append_left (by simpa using hj), byteBits_getElem? x hj]
      rfl
    | succ k =>
      have hskip : 8 * (k + 1) + j - (byteBits x).length = 8 * k + j := by rw [byteBits_length]; omega
      rw [List.getElem?_append_right (by rw [byteBits_length]; omega), hskip, ih (Nat.lt_of_succ_lt_succ hk)]
      rfl

theorem exec_bytesToBits (s : State) (xs : List Byte) :
    exec (.bytesToBits xs) s = .next { s with out := .bits (bytesToBits xs) } := rfl

/-- Settles O55: the conversion has the bits of each byte at 8 times its index. -/
theorem bytesToBitsIsMsbFirst : Obligations.BytesToBitsIsMsbFirst := fun s xs =>
  ⟨bytesToBits xs, exec_bytesToBits s xs, bytesToBits_length xs, fun _ _ => bytesToBits_getElem?⟩

/-! ### BITS_TO_BYTE (R151) -/

/-- The number that a bit sequence writes, as a sum over its positions (R42, R151). -/
theorem bitsValue_eq_sum (bs : List Bit) :
    bitsValue bs = ((List.range bs.length).map fun j => (bs.getD j false).toNat * 2 ^ (bs.length - 1 - j)).sum := by
  induction bs with
  | nil => rfl
  | cons b bs ih =>
    simp only [bitsValue, ih, List.length_cons, List.range_succ_eq_map, List.map_cons, List.map_map, List.sum_cons,
      Function.comp_def, List.getD_cons_zero, List.getD_cons_succ, Nat.add_sub_cancel, Nat.sub_zero, Nat.sub_sub,
      Nat.one_add]

theorem bitsToByte_of_length (h : bs.length = 8) : bitsToByte bs = some (BitVec.ofNat 8 (bitsValue bs)) := if_pos h

theorem bitsToByte_of_length_ne (h : bs.length ≠ 8) : bitsToByte bs = none := if_neg h

theorem exec_bitsToByte_some (h : bitsToByte bs = some x) :
    exec (.bitsToByte bs) s = .next { s with out := .byte x } := by
  simp only [exec, execBitsToByte, h, returns]

theorem exec_bitsToByte_none (h : bitsToByte bs = none) :
    exec (.bitsToByte bs) s = .next { s with refused := some .badLength } := by
  simp only [exec, execBitsToByte, h, refuse]

/-- Settles O56: the number that eight bits write is less than 2^8, so its byte holds the whole sum. -/
theorem bitsToByteIsMsbFirst : Obligations.BitsToByteIsMsbFirst := by
  refine fun s bs => ⟨fun h => ⟨_, exec_bitsToByte_some (bitsToByte_of_length h), ?_⟩,
    fun h => exec_bitsToByte_none (bitsToByte_of_length_ne h)⟩
  have hlt : bitsValue bs < 2 ^ 8 := h ▸ bitsValue_lt_pow bs
  rw [BitVec.toNat_ofNat, Nat.mod_eq_of_lt hlt, bitsValue_eq_sum, h]

/-! ### The two conversions together (R152) -/

theorem bitsToByte_byteBits (x : Byte) : bitsToByte (byteBits x) = some x := by
  rw [bitsToByte_of_length (byteBits_length x), byteBits_value, BitVec.ofNat_toNat, BitVec.setWidth_eq]

/-- The first group of eight bits gives the first byte. -/
theorem bitsToBytes_byteBits_append (x : Byte) (bs : List Bit) :
    bitsToBytes (byteBits x ++ bs) = (bitsToBytes bs).map (x :: ·) := by
  have hx := bitsToByte_byteBits x
  simp only [byteBits] at hx
  simp only [byteBits, List.cons_append, List.nil_append, bitsToBytes, hx]
  cases bitsToBytes bs <;> rfl

theorem bitsToBytes_bytesToBits (xs : List Byte) : bitsToBytes (bytesToBits xs) = some xs := by
  induction xs with
  | nil => rfl
  | cons x xs ih => rw [bytesToBits_cons, bitsToBytes_byteBits_append, ih, Option.map_some]

/-- Eight bits are the bits of the byte they convert to. -/
theorem byteBits_of_bitsToByte {a b c d e f g h : Bit} (hx : bitsToByte [a, b, c, d, e, f, g, h] = some x) :
    byteBits x = [a, b, c, d, e, f, g, h] := by
  rw [bitsToByte_of_length rfl] at hx
  cases hx
  exact byteBits_ofBits a b c d e f g h

theorem bytesToBits_of_bitsToBytes (h : bitsToBytes bs = some xs) : bytesToBits xs = bs := by
  fun_induction bitsToBytes bs generalizing xs with
  | case1 => cases h; rfl
  | case2 b0 b1 b2 b3 b4 b5 b6 b7 rest x ys hrest hx ih =>
    cases h
    rw [bytesToBits_cons, byteBits_of_bitsToByte hx, ih hrest]
    rfl
  | case3 => cases h
  | case4 => cases h

/-- The domain of the conversion of a whole sequence (R152). -/
theorem length_of_bitsToBytes (h : bitsToBytes bs = some xs) : bs.length = 8 * xs.length := by
  rw [← bytesToBits_of_bitsToBytes h, bytesToBits_length]

/-- Settles O57: each conversion undoes the other group by group, and whatever has bytes is 8 bits for each of them. -/
theorem bitConversionsAreInverse : Obligations.BitConversionsAreInverse := by
  refine ⟨bitsToBytes_bytesToBits, fun _ _ => bytesToBits_of_bitsToBytes, fun bs hlen => ?_⟩
  refine Option.eq_none_iff_forall_ne_some.2 fun xs h => hlen ?_
  rw [length_of_bitsToBytes h, Nat.mul_mod_right]

end Sys2Proof.Machine
end

section
/-! SUPPORT. What a refusal changes, that every operation answers a next state, and the settled statements of
`60_exceptions.md` (R155, R162, R165). -/

namespace Sys2Proof.Machine

variable {s t : State} {i : Instr}

/-- An operation is refused, and then writes the mark alone, or it leaves the mark as it was (R162). -/
theorem exec_refused_cases (h : exec i s = .next t) :
    (∃ r, t = { s with refused := some r }) ∨ t.refused = s.refused := by
  rcases exec_cases h with hrefused | ⟨da, baud, data, stop, start, -, -, -, -, rfl⟩ | ⟨⟨-, hmark, -⟩, -⟩
  · exact .inl hrefused
  · exact .inr rfl
  · exact .inr hmark

/-- Settles O9: an operation that changes the mark is one that was refused. -/
theorem refusalChangesOnlyTheMark : Obligations.RefusalChangesOnlyTheMark := by
  intro i s t h hne
  rcases exec_refused_cases h with ⟨r, rfl⟩ | hmark
  · exact ⟨rfl, Option.some_ne_none r⟩
  · exact absurd hmark hne

/-- An operation on a slot answers a next state where its meaning does so on every device: with no device in the slot it
is refused, and a refusal is a next state. -/
theorem onDevice_next {da : SlotIx} {k : Device → Host.Outcome State Fault Refusal} (hk : ∀ D, ∃ t, k D = .next t) :
    ∃ t, onDevice s da k = .next t := by
  cases hd : devAt s (slotIndex da) with
  | none => exact ⟨_, onDevice_none hd k⟩
  | some D => rw [onDevice_some hd]; exact hk D

/-- Settles O10: every branch of every operation's meaning ends in `refuse` or `returns`, and both answer a next
state. -/
theorem everyOperationAnswersANextState : Obligations.EveryOperationAnswersANextState := by
  intro i s
  cases i with
  | createDevice da baud data stop start =>
    simp only [exec, execCreateDevice]
    split
    · exact ⟨_, rfl⟩
    · split <;> exact ⟨_, rfl⟩
  | connect da db =>
    simp only [exec, execConnect]
    split
    · split <;> exact ⟨_, rfl⟩
    · exact ⟨_, rfl⟩
  | tick | step | peerPush | qPush | qPop => exact onDevice_next fun D => by split <;> exact ⟨_, rfl⟩
  | enqueueTransmit | drainReceived | isReady | resetClock | updateState | handleTransmit | handleReceive | qInit | qPeek
  | qReset | qIsEmpty | qIsFull => exact onDevice_next fun D => ⟨_, rfl⟩
  | bytesToBits xs => exact ⟨_, exec_bytesToBits s xs⟩
  | bitsToByte bs =>
    cases hx : bitsToByte bs with
    | none => exact ⟨_, exec_bitsToByte_none hx⟩
    | some x => exact ⟨_, exec_bitsToByte_some hx⟩

end Sys2Proof.Machine
end

section
/-! SUPPORT. A receive queue that cannot hold a frame, and the settled statement of `70_reset_and_hazards.md` (R186). -/

namespace Sys2Proof.Machine

variable {s t : State} {da : SlotIx} {D : Device} {q : Queue} {N n w : Nat} {c : List Bit} {r : RxResult} {x : Nat}

/-- A well-formed queue holds no more bits than its capacity. -/
theorem contents_length_le (hw : queueWf N q) : (contents N q).length ≤ N := by
  obtain ⟨-, -, hcount, -⟩ := hw
  rwa [contents_length]

/-- Only a sequence as long as a start bit, `n` data bits and a stop bit is read as a byte (R186): in a shorter one
nothing stands behind the data bits. -/
theorem length_of_readFrame_byte (h : (readFrame n w c).1 = .byte) : n + 2 ≤ c.length := by
  cases c with
  | nil => cases h
  | cons b bs =>
    by_contra hshort
    rw [List.length_cons] at hshort
    have hnostop : bs.drop n = [] := List.drop_eq_nil_of_le (by omega)
    simp only [readFrame, hnostop, List.head?_nil, reduceCtorEq, if_false] at h
    split at h
    · cases h
    · split at h <;> cases h

/-- What HANDLE_RECEIVE can do: nothing where its guard stops it, and else what `readFrame` makes of the queued
sequence, for either RX_GUARD (R120, R121). -/
theorem exec_handleReceive_cases (hs : s.Inv) (hD : devAt s (slotIndex da) = some D)
    (hx : exec (.handleReceive da) s = .next t) (hout : t.out = .receive r x) :
    (r = .none ∧ devAt t (slotIndex da) = some D) ∨
      ((readFrame D.dataBits.toNat s.params.accW (contents s.params.nRx D.rx)).1 = r ∧
        ∃ q, devAt t (slotIndex da) = some (received D q r x)) := by
  by_cases hruns : ReceiveRuns s D
  · obtain ⟨u, q, hu, houtu, -, -, -, hdev⟩ := exec_handleReceive_of_readFrame hs hD hruns rfl
    cases hx.symm.trans hu
    cases hout.symm.trans houtu
    exact .inr ⟨rfl, q, hdev⟩
  · obtain ⟨-, hstopped, -⟩ := phasesThatChangeNothing s da D hD
    obtain ⟨u, hu, houtu, -, hdev⟩ := hstopped hruns
    cases hx.symm.trans hu
    cases hout.symm.trans houtu
    exact .inl ⟨rfl, (hdev _).trans hD⟩

/-- Settles O45: a byte takes data_bits + 2 queued bits, more than the capacity, and without a byte the store stays. -/
theorem smallReceiveQueueNeverReadsAByte : Obligations.SmallReceiveQueueNeverReadsAByte := by
  intro s t da D r x hs hD hsmall hx hout
  rcases exec_handleReceive_cases hs hD hx hout with ⟨rfl, hdev⟩ | ⟨hread, q, hdev⟩
  · exact ⟨by decide, D, hdev, rfl⟩
  · have hr : r ≠ .byte := by
      rintro rfl
      have hlen := length_of_readFrame_byte hread
      have hcap := contents_length_le (inv_rx_wf hs hD)
      omega
    exact ⟨hr, received D q r x, hdev, if_neg hr⟩

end Sys2Proof.Machine
end
